-- ==== Sys2Proof/Word.lean ====
section
/-! DEFINITION. The word types of the machine: spec/00_scope.md rules R5 (`XLEN`, `ILEN`) and R6. -/

namespace Sys2Proof

/-- A register, a CSR, the pc or an address: `XLEN = 64` bits (R5, R50). -/
abbrev Word := BitVec 64

/-- A byte of memory: 8 bits (R29). -/
abbrev Byte := BitVec 8

/-- An instruction word: `ILEN = 32` bits (R5, R80). -/
abbrev Insn := BitVec 32

/-- The number of a general register: the 5-bit fields `rd`, `rs1`, `rs2` (R21, R81). -/
abbrev RegIdx := BitVec 5

/-- The number of a CSR: the 12-bit field `csr` (R26, R89). -/
abbrev CsrIdx := BitVec 12

end Sys2Proof
end

