-- ==== Sys2Proof/Config.lean ====
section
/-! DEFINITION. What one machine is built with: the implementation parameters of spec/00_scope.md rule R5 and the types they use.
The spec leaves no value free (spec/93_implementation_defined.md, part 1), so no constant here is opaque. -/

namespace Sys2Proof

/-- The privilege levels in the order the spec lists them (10_state.md R27). -/
inductive Priv where
  | user
  | supervisor
  | reserved
  | machine
  deriving DecidableEq, Repr

/-- Where instruction words come from: `FETCH_MODE` (R5, 40_execution_loop.md R121). -/
inductive FetchMode where
  /-- Words are read from `mem` at `pc`. -/
  | memory
  /-- Words come from the finite list `PROGRAM`, which is not part of `mem` (20_memory.md R65). -/
  | buffer (program : List Insn)
  deriving DecidableEq, Repr

/-- The parameters of R5 that the block takes. `STEP_LIMIT` is outside the block: it is the argument of `Machine.runFor`. -/
structure Params where
  /-- `MEM_BASE`: the lowest mapped address. -/
  memBase : Word
  /-- `MEM_SIZE`: the number of mapped bytes. -/
  memSize : Nat
  /-- `RESET_PC`: the pc after reset (70_reset_and_hazards.md R305). -/
  resetPc : Word
  /-- `SP_SEED`: whether reset writes `x[2]`, and with what (R302). -/
  spSeed : Option Word
  /-- `RESET_PRIV`: the privilege level after reset. -/
  resetPriv : Priv
  /-- `CSR_INIT`: pairs of a CSR number and its value after reset; a CSR that is not listed is 0, of two pairs for one number the later holds. -/
  csrInit : List (Nat × Word)
  /-- `MEM_INIT`: pairs of an address and the byte it holds at reset; a mapped byte that is not listed is 0, of two pairs for one address the later holds. -/
  memInit : List (Nat × Byte)
  /-- `FETCH_MODE`, with `PROGRAM` in `Buffer` mode. -/
  fetchMode : FetchMode
  deriving DecidableEq, Repr

/-- The defaults of R5 where the spec gives one, and its suggested values where it leaves the parameter open.
DESIGN CHOICE (unsafe): `FETCH_MODE = Memory` (log 2), `SP_SEED = none` (log 3), `CSR_INIT` zero (log 5), `RESET_PRIV = Machine` (log 6),
`MEM_INIT` zero (log 7). -/
def Params.default : Params where
  memBase := 0x80000000#64
  memSize := 10 * 1024 * 1024
  resetPc := 0x80000000#64
  spSeed := none
  resetPriv := .machine
  csrInit := []
  memInit := []
  fetchMode := .memory

end Sys2Proof
end

