-- ==== Sys2Proof/Machine/State.lean ====
section
/-! DEFINITION. The state of the machine: spec/10_state.md R20 to R34, and the fault values of spec/60_exceptions.md R270 to R273. -/

namespace Sys2Proof.Machine

/-- What a `MemoryAccess` fault was doing (R272). -/
inductive AccessKind where
  | fetch
  | load
  | store
  deriving DecidableEq, Repr

/-- The three faults of the spec, with their payloads (R270). The spec uses "fault" and "exception" for the same thing; the model calls
this type `Exc`, since `Fault` is the host's name for what stops a step. -/
inductive Exc where
  /-- R271: the fetched word and the pc it was fetched at. -/
  | illegalInstruction (insn : Insn) (pc : Word)
  /-- R272: the kind, the address of the first byte, the width in bytes, and the pc of the instruction. -/
  | memoryAccess (kind : AccessKind) (addr : Word) (n : Nat) (pc : Word)
  /-- R273: the privilege level, `x[10]` to `x[17]`, and the pc of the `ecall`. -/
  | environmentCall (priv : Priv) (a : Vector Word 8) (pc : Word)
  deriving DecidableEq, Repr

/-- Whether the machine can step (R30). -/
inductive Status where
  | running
  /-- In `Buffer` mode the fetch found no word at `pc`. -/
  | exhausted
  /-- A step ended in a fault. -/
  | faulted (e : Exc)
  deriving DecidableEq, Repr

/-- The state of R20. `params` is the model's own field (log 1): the parameters of R5, which no step changes. -/
structure State where
  /-- R24. -/
  pc : Word
  /-- `x[1]` to `x[31]`, at index 0 to 30; `x[0]` is not storage (R20, R22). Read and written by `readReg` and `writeReg` alone. -/
  x : Vector Word 31
  /-- `f[0]` to `f[31]`, which no instruction reads or writes (R25). -/
  f : Vector Word 32
  /-- The CSR file (R26), as pairs of a number and a value in rising order; a number that is not listed holds 0. Read and written by
  `readCsr` and `writeCsr` alone. -/
  csr : List (Nat × Word)
  /-- R27. -/
  priv : Priv
  /-- Memory (R29), as pairs of an address and a byte in rising order; a mapped byte that is not listed holds 0 (log 7). -/
  mem : List Host.Cell
  /-- R30. -/
  status : Status
  /-- The parameters this machine was built with (R5). -/
  params : Params
  deriving DecidableEq, Repr

/-- Why a step can stop without a next state. The spec's own faults are not among these: they are next states whose `status` is
`Faulted` (R278, log 9). -/
inductive Fault where
  /-- Raised by `step` alone, on a machine that is not `Running`: R120 defines no step there (U19, "stuck"). Safe: nothing is claimed
  of such a step. -/
  | stopped (status : Status)
  deriving DecidableEq, Repr

/-- Why the model gives a step no meaning. -/
inductive Refusal where
  /-- An instruction whose meaning is not written, by its mnemonic. No arm of `exec` answers it. Safe. -/
  | notModelled (mnemonic : String)
  /-- Raised by `step` and `powerOn` on parameters that row U16 of 93_implementation_defined.md refuses: `MEM_SIZE = 0` or
  `MEM_BASE + MEM_SIZE > 2^64` (log 10). Safe. -/
  | badConfiguration
  deriving DecidableEq, Repr

/-- The machine right after reset with the default parameters (R33, R300): `pc` at `MEM_BASE`, every general register 0, `Running`.
Not given by the spec and chosen here (DESIGN CHOICE, unsafe): `x[2]` (log 3), `f` (log 4), `csr` (log 5), `priv` (log 6), memory (log 7). -/
def State.reset : State where
  pc := 0x80000000#64
  x := Vector.replicate 31 0#64
  f := Vector.replicate 32 0#64
  csr := []
  priv := .machine
  mem := []
  status := .running
  params := Params.default

end Sys2Proof.Machine
end

