-- ==== Sys2Proof/Machine/Ops.lean ====
section
/-! DEFINITION. The operations over registers, CSRs and memory, taking an exception, and reset: spec/10_state.md R22 to R26,
spec/20_memory.md R50 to R59, spec/40_execution_loop.md R124 and R127, spec/60_exceptions.md R278, spec/70_reset_and_hazards.md R300. -/

namespace Sys2Proof.Machine

/-! ### Sparse stores: a list of (key, value) pairs, an unlisted key holding 0 -/

/-- What an unlisted key reads as: a byte of memory that nothing has written (log 7) and a CSR that nothing has written (log 5). -/
def unlisted (n : Nat) : BitVec n := 0#n

def Sparse.read {n : Nat} : List (Nat × BitVec n) → Nat → BitVec n
  | [], _ => unlisted n
  | (k, v) :: rest, a => if k = a then v else Sparse.read rest a

/-- The pairs with a key other than `a`. -/
def Sparse.remove {n : Nat} (m : List (Nat × BitVec n)) (a : Nat) : List (Nat × BitVec n) :=
  m.filter fun c => c.1 != a

/-- Puts a pair before the first larger key. -/
def Sparse.insert {n : Nat} : List (Nat × BitVec n) → Nat → BitVec n → List (Nat × BitVec n)
  | [], a, v => [(a, v)]
  | (k, u) :: rest, a, v => if a < k then (a, v) :: (k, u) :: rest else (k, u) :: Sparse.insert rest a v

/-- Writing what an unlisted key reads as removes the pair, so that equal contents are equal lists. -/
def Sparse.write {n : Nat} (m : List (Nat × BitVec n)) (a : Nat) (v : BitVec n) : List (Nat × BitVec n) :=
  if v = unlisted n then Sparse.remove m a else Sparse.insert (Sparse.remove m a) a v

/-- Every key at least `lo`, keys strictly rising, no value equal to what an unlisted key reads as. -/
def Sparse.canonicalFrom {n : Nat} : Nat → List (Nat × BitVec n) → Bool
  | _, [] => true
  | lo, (k, v) :: rest => decide (lo ≤ k) && decide (v ≠ unlisted n) && Sparse.canonicalFrom (k + 1) rest

/-- The one form in which a store's contents are held. -/
def Sparse.canonical {n : Nat} (m : List (Nat × BitVec n)) : Bool := Sparse.canonicalFrom 0 m

/-- The store that a list of writes leaves, starting from nothing, the later writes last. -/
def Sparse.ofWrites {n : Nat} (ws : List (Nat × BitVec n)) : List (Nat × BitVec n) :=
  ws.foldl (fun m c => Sparse.write m c.1 c.2) []

/-! ### General registers (R22, R23) -/

/-- `x[i]`: zero when `i = 0`, the stored value otherwise (R23). -/
def State.readReg (s : State) (i : RegIdx) : Word :=
  if i = 0#5 then 0#64 else (s.x[i.toNat - 1]?).getD 0#64

/-- `x[i] <- v`: nothing when `i = 0` (R22, R23). -/
def State.writeReg (s : State) (i : RegIdx) (v : Word) : State :=
  if i = 0#5 then s else { s with x := s.x.setIfInBounds (i.toNat - 1) v }

/-! ### Control and status registers (R26): 4096 plain cells, no side effect, no check -/

def State.readCsr (s : State) (c : CsrIdx) : Word := Sparse.read s.csr c.toNat

def State.writeCsr (s : State) (c : CsrIdx) (v : Word) : State := { s with csr := Sparse.write s.csr c.toNat v }

/-! ### Memory (R50 to R59) -/

/-- The memory predicate the host names: the list is in its one form. -/
def Memory.wf (m : List Host.Cell) : Bool := Sparse.canonical m

/-- The widths of an access (R57). -/
inductive Width where
  | byte
  | half
  | word
  | double
  deriving DecidableEq, Repr

def Width.bytes : Width → Nat
  | .byte => 1
  | .half => 2
  | .word => 4
  | .double => 8

/-- `MEM_TOP = MEM_BASE + MEM_SIZE`, the first unmapped address above the region, in unbounded integers (R5, R55). -/
def memTop (p : Params) : Nat := p.memBase.toNat + p.memSize

/-- Row U16 of 93_implementation_defined.md: a machine with `MEM_SIZE = 0` or `MEM_BASE + MEM_SIZE > 2^64` is refused (log 10). -/
def accepted (p : Params) : Bool := decide (p.memSize ≠ 0) && decide (memTop p ≤ 2 ^ 64)

/-- R50: whether one address is in the mapped region. -/
def mapped (p : Params) (a : Nat) : Bool := decide (p.memBase.toNat ≤ a) && decide (a < memTop p)

/-- R55, the bounds test, in unbounded integers: `MEM_BASE <= addr` and `addr + n <= MEM_TOP`. -/
def inRange (p : Params) (addr : Word) (n : Nat) : Bool :=
  decide (p.memBase.toNat ≤ addr.toNat) && decide (addr.toNat + n ≤ memTop p)

/-- The byte at one address of `mem`. -/
def State.readByte (s : State) (a : Nat) : Byte := Sparse.read s.mem a

/-- The `n` bytes from `a`, the byte at `a` lowest, zero-extended to 64 bits (R52, R53). -/
def loadBytesLE (m : List Host.Cell) (a : Nat) : Nat → Word
  | 0 => 0#64
  | n + 1 => (loadBytesLE m (a + 1) n <<< 8) ||| (Sparse.read m a).setWidth 64

/-- Bytes `v[7:0]`, `v[15:8]`, ... to the `n` bytes from `a` (R52, R54). -/
def storeBytesLE (m : List Host.Cell) (a : Nat) (v : Word) : Nat → List Host.Cell
  | 0 => m
  | n + 1 => storeBytesLE (Sparse.write m a (v.setWidth 8)) (a + 1) (v >>> 8) n

/-- `MemRead` (R53): none where the bounds test fails. -/
def State.memRead (s : State) (addr : Word) (w : Width) : Option Word :=
  if inRange s.params addr w.bytes then some (loadBytesLE s.mem addr.toNat w.bytes) else none

/-- `MemWrite` (R54): none, and no byte written, where the bounds test fails. -/
def State.memWrite (s : State) (addr : Word) (w : Width) (v : Word) : Option State :=
  if inRange s.params addr w.bytes then some { s with mem := storeBytesLE s.mem addr.toNat v w.bytes } else none

/-! ### The next pc and the status -/

/-- `pc <- t` (R124). -/
def State.setPc (s : State) (t : Word) : State := { s with pc := t }

/-- `pc <- pc + 4`, modulo 2^64 (R24, R124). -/
def State.advance (s : State) : State := s.setPc (s.pc + 4#64)

def State.setStatus (s : State) (st : Status) : State := { s with status := st }

/-- TAKING AN EXCEPTION (R127, R278): `status <- Faulted(F)` and nothing else. Nothing is saved, no mode changes, control goes nowhere and
`pc` keeps the address of the faulting instruction. There is no return from it (R280). -/
def State.raise (s : State) (e : Exc) : State := s.setStatus (.faulted e)

/-! ### Reset (R300) and what the host does before the first step (R68, R304) -/

/-- R300 for any parameters: the state after reset. A CSR number above 4095 and an address outside the region name nothing. -/
def resetOf (p : Params) : State where
  pc := p.resetPc
  x := match p.spSeed with
    | none => Vector.replicate 31 0#64
    | some v => (Vector.replicate 31 0#64).setIfInBounds 1 v
  f := Vector.replicate 32 0#64
  csr := Sparse.ofWrites (p.csrInit.filter fun c => decide (c.1 < 4096))
  priv := p.resetPriv
  mem := Sparse.ofWrites (p.memInit.filter fun c => mapped p c.1)
  status := .running
  params := p

/-- The block's reset input: it takes effect between steps and is the only way out of `Faulted` and `Exhausted` (R280, R300). DESIGN
CHOICE, unsafe: memory is `MEM_INIT` of the parameters again, so bytes that `loadBytes` wrote are gone, while a word that `placeWord` put
into `PROGRAM` is a parameter and stays (log 31). -/
def State.resetInput (s : State) : State := resetOf s.params

/-- Building a machine: row U16 refuses some parameters, every other machine starts in its reset state. -/
def powerOn (p : Params) : Host.Outcome State Fault Refusal :=
  if accepted p then .next (resetOf p) else .refused .badConfiguration

/-- The loader's access to `mem` before the first step (R68): bytes at rising addresses, an unmapped address taking nothing (DESIGN
CHOICE, log 8). DESIGN CHOICE, unsafe: it writes `mem` and not the parameter `MEM_INIT`, so a later `resetInput` drops the bytes; a host
that means them to come back with every reset gives them as `memInit` (log 31). -/
def State.loadBytes (s : State) (a : Nat) : List Byte → State
  | [] => s
  | b :: rest =>
    (if mapped s.params a then { s with mem := Sparse.write s.mem a b } else s).loadBytes (a + 1) rest

end Sys2Proof.Machine
end

