-- ==== Sys2Proof/Machine/Operands.lean ====
section
/-! DEFINITION. Operand forms: the extension primitive of spec/00_scope.md R8, the immediates of spec/30_encoding.md R83 to R87, shift
amounts R88, CSR immediates R89, and the 32-bit views of spec/41_integer_alu.md R169. -/

namespace Sys2Proof.Machine

/-- R8: `sext_N(v) = ((v << (64 - N)) >>s (64 - N))` on 64 bits. The one primitive for every immediate and narrow result (R90). -/
def sext (n : Nat) (v : Word) : Word := (v <<< (64 - n)).sshiftRight (64 - n)

/-- R8: the low `N` bits, the upper bits zero. -/
def zext (n : Nat) (v : Word) : Word := v &&& BitVec.ofNat 64 (2 ^ n - 1)

/-- R83: `immI = sext_12(insn[31:20])`. -/
def immI (imm : BitVec 12) : Word := sext 12 (imm.setWidth 64)

/-- R84: `immS = sext_12(insn[31:25] ++ insn[11:7])`. -/
def immS (imm : BitVec 12) : Word := sext 12 (imm.setWidth 64)

/-- R85: `immB = sext_13(off ++ 0)`, `off` being its bits 12 to 1. -/
def immB (off : BitVec 12) : Word := sext 13 ((off ++ 0#1).setWidth 64)

/-- R86: `immU = sext_20(insn[31:12]) << 12`. -/
def immU (field : BitVec 20) : Word := sext 20 (field.setWidth 64) <<< 12

/-- R87: `immJ = sext_21(off ++ 0)`, `off` being its bits 20 to 1. -/
def immJ (off : BitVec 20) : Word := sext 21 ((off ++ 0#1).setWidth 64)

/-- R89: the 5-bit immediate of a CSR instruction, zero-extended. -/
def immC (uimm : BitVec 5) : Word := uimm.setWidth 64

/-- R169: the amount of a 64-bit shift, `x[rs2] & 0x3f`. -/
def amount6 (v : Word) : Nat := (v &&& 0x3f#64).toNat

/-- R169: the amount of a 32-bit shift, `x[rs2] & 0x1f`. -/
def amount5 (v : Word) : Nat := (v &&& 0x1f#64).toNat

/-- `v[31:0]`: what a W form reads of a register (R169). -/
def low32 (v : Word) : BitVec 32 := v.extractLsb' 0 32

/-- `sext_32(r)`: what a W form writes (R169). -/
def ofLow32 (r : BitVec 32) : Word := sext 32 (r.setWidth 64)

/-- R200: the effective address, a sum modulo 2^64. -/
def effective (base offset : Word) : Word := base + offset

end Sys2Proof.Machine
end

