-- ==== Sys2Proof/Machine/Flags.lean ====
section
/-! DEFINITION. There are no status flags, condition codes or predicate registers (spec/10_state.md R31): no operation here reads or
writes a flag. What stands in their place are the comparisons of spec/00_scope.md R7, which write 0 or 1 to a general register
(41_integer_alu.md R142, R143, R153, R154) or decide a branch (44_control_transfer.md R220). -/

namespace Sys2Proof.Machine

/-- `<s` of R7: the `signed` readings. -/
def signedLess (a b : Word) : Bool := decide (a.toInt < b.toInt)

/-- `<u` of R7: the `unsigned` readings. -/
def unsignedLess (a b : Word) : Bool := decide (a.toNat < b.toNat)

/-- R169: comparisons yield exactly `0^63 ++ 1` or `0^64`. -/
def boolWord (b : Bool) : Word := if b then 1#64 else 0#64

end Sys2Proof.Machine
end

