-- ==== Sys2Proof/Machine/IntegerAlu.lean ====
section
/-! DEFINITION. The 28 instructions of spec/41_integer_alu.md (R140 to R169). Each reads `x[rs1]` and `x[rs2]` or an immediate, writes
`x[rd]`, and goes on at `pc + 4`; none touches memory or a CSR, none raises anything (R140). -/

namespace Sys2Proof.Machine

/-- What every instruction does that only writes a register: `x[rd] <- v`, `pc <- pc + 4` (R124, R140). -/
def retire (rd : RegIdx) (v : Word) (s : State) : Host.Outcome State Fault Refusal :=
  .next ((s.writeReg rd v).advance)

/-- The form `rd, rs1, immI`. -/
def aluImm (f : Word → Word → Word) (rd rs1 : RegIdx) (imm : BitVec 12) (s : State) : Host.Outcome State Fault Refusal :=
  retire rd (f (s.readReg rs1) (immI imm)) s

/-- The form `rd, rs1, shamt`, the amount being `n`. -/
def aluShift (f : Word → Nat → Word) (rd rs1 : RegIdx) (n : Nat) (s : State) : Host.Outcome State Fault Refusal :=
  retire rd (f (s.readReg rs1) n) s

/-- The form `rd, rs1, rs2`. -/
def aluReg (f : Word → Word → Word) (rd rs1 rs2 : RegIdx) (s : State) : Host.Outcome State Fault Refusal :=
  retire rd (f (s.readReg rs1) (s.readReg rs2)) s

/-! ### The values -/

/-- R142, R153. -/
def setLess (a b : Word) : Word := boolWord (signedLess a b)

/-- R143, R154. -/
def setLessU (a b : Word) : Word := boolWord (unsignedLess a b)

/-- `<<` on 64 bits, zeros entering at bit 0 (R147, R152). -/
def shiftLeft64 (a : Word) (n : Nat) : Word := a <<< n

/-- `>>u` on 64 bits (R148, R156). -/
def shiftRight64 (a : Word) (n : Nat) : Word := a >>> n

/-- `>>s` on 64 bits, copies of bit 63 entering (R149, R157). -/
def shiftRightArith64 (a : Word) (n : Nat) : Word := a.sshiftRight n

/-- `sext_32((a + b)[31:0])` (R160, R164). -/
def addW (a b : Word) : Word := ofLow32 (low32 (a + b))

/-- `sext_32((a - b)[31:0])` (R165). -/
def subW (a b : Word) : Word := ofLow32 (low32 (a - b))

/-- `sext_32((a[31:0] << n)[31:0])` (R161, R166). -/
def shiftLeftW (a : Word) (n : Nat) : Word := ofLow32 (low32 a <<< n)

/-- `sext_32(a[31:0] >>u n)` (R162, R167). -/
def shiftRightW (a : Word) (n : Nat) : Word := ofLow32 (low32 a >>> n)

/-- `sext_32(a[31:0] >>s n)`, copies of bit 31 entering (R163, R168). -/
def shiftRightArithW (a : Word) (n : Nat) : Word := ofLow32 ((low32 a).sshiftRight n)

/-! ### Immediate forms on 64 bits -/

/-- R141: `x[rd] <- x[rs1] + immI`. -/
def execAddi (rd rs1 : RegIdx) (imm : BitVec 12) (s : State) : Host.Outcome State Fault Refusal :=
  aluImm (fun a b => a + b) rd rs1 imm s

/-- R142: `x[rd] <- x[rs1] <s immI`. -/
def execSlti (rd rs1 : RegIdx) (imm : BitVec 12) (s : State) : Host.Outcome State Fault Refusal :=
  aluImm setLess rd rs1 imm s

/-- R143: `x[rd] <- x[rs1] <u immI`, the immediate sign-extended first. -/
def execSltiu (rd rs1 : RegIdx) (imm : BitVec 12) (s : State) : Host.Outcome State Fault Refusal :=
  aluImm setLessU rd rs1 imm s

/-- R144: `x[rd] <- x[rs1] ^ immI`. -/
def execXori (rd rs1 : RegIdx) (imm : BitVec 12) (s : State) : Host.Outcome State Fault Refusal :=
  aluImm (fun a b => a ^^^ b) rd rs1 imm s

/-- R145: `x[rd] <- x[rs1] | immI`. -/
def execOri (rd rs1 : RegIdx) (imm : BitVec 12) (s : State) : Host.Outcome State Fault Refusal :=
  aluImm (fun a b => a ||| b) rd rs1 imm s

/-- R146: `x[rd] <- x[rs1] & immI`. -/
def execAndi (rd rs1 : RegIdx) (imm : BitVec 12) (s : State) : Host.Outcome State Fault Refusal :=
  aluImm (fun a b => a &&& b) rd rs1 imm s

/-- R147: `x[rd] <- x[rs1] << shamt6`. -/
def execSlli (rd rs1 : RegIdx) (shamt : BitVec 6) (s : State) : Host.Outcome State Fault Refusal :=
  aluShift shiftLeft64 rd rs1 shamt.toNat s

/-- R148: `x[rd] <- x[rs1] >>u shamt6`. -/
def execSrli (rd rs1 : RegIdx) (shamt : BitVec 6) (s : State) : Host.Outcome State Fault Refusal :=
  aluShift shiftRight64 rd rs1 shamt.toNat s

/-- R149: `x[rd] <- x[rs1] >>s shamt6`. -/
def execSrai (rd rs1 : RegIdx) (shamt : BitVec 6) (s : State) : Host.Outcome State Fault Refusal :=
  aluShift shiftRightArith64 rd rs1 shamt.toNat s

/-! ### Register forms on 64 bits -/

/-- R150: `x[rd] <- x[rs1] + x[rs2]`. -/
def execAdd (rd rs1 rs2 : RegIdx) (s : State) : Host.Outcome State Fault Refusal :=
  aluReg (fun a b => a + b) rd rs1 rs2 s

/-- R151: `x[rd] <- x[rs1] - x[rs2]`. -/
def execSub (rd rs1 rs2 : RegIdx) (s : State) : Host.Outcome State Fault Refusal :=
  aluReg (fun a b => a - b) rd rs1 rs2 s

/-- R152: `x[rd] <- x[rs1] << (x[rs2] & 0x3f)`. -/
def execSll (rd rs1 rs2 : RegIdx) (s : State) : Host.Outcome State Fault Refusal :=
  aluReg (fun a b => shiftLeft64 a (amount6 b)) rd rs1 rs2 s

/-- R153: `x[rd] <- x[rs1] <s x[rs2]`, the register values and not their numbers. -/
def execSlt (rd rs1 rs2 : RegIdx) (s : State) : Host.Outcome State Fault Refusal :=
  aluReg setLess rd rs1 rs2 s

/-- R154: `x[rd] <- x[rs1] <u x[rs2]`. -/
def execSltu (rd rs1 rs2 : RegIdx) (s : State) : Host.Outcome State Fault Refusal :=
  aluReg setLessU rd rs1 rs2 s

/-- R155: `x[rd] <- x[rs1] ^ x[rs2]`. -/
def execXor (rd rs1 rs2 : RegIdx) (s : State) : Host.Outcome State Fault Refusal :=
  aluReg (fun a b => a ^^^ b) rd rs1 rs2 s

/-- R156: `x[rd] <- x[rs1] >>u (x[rs2] & 0x3f)`. -/
def execSrl (rd rs1 rs2 : RegIdx) (s : State) : Host.Outcome State Fault Refusal :=
  aluReg (fun a b => shiftRight64 a (amount6 b)) rd rs1 rs2 s

/-- R157: `x[rd] <- x[rs1] >>s (x[rs2] & 0x3f)`. -/
def execSra (rd rs1 rs2 : RegIdx) (s : State) : Host.Outcome State Fault Refusal :=
  aluReg (fun a b => shiftRightArith64 a (amount6 b)) rd rs1 rs2 s

/-- R158: `x[rd] <- x[rs1] | x[rs2]`. -/
def execOr (rd rs1 rs2 : RegIdx) (s : State) : Host.Outcome State Fault Refusal :=
  aluReg (fun a b => a ||| b) rd rs1 rs2 s

/-- R159: `x[rd] <- x[rs1] & x[rs2]`. -/
def execAnd (rd rs1 rs2 : RegIdx) (s : State) : Host.Outcome State Fault Refusal :=
  aluReg (fun a b => a &&& b) rd rs1 rs2 s

/-! ### W forms on 32 bits -/

/-- R160: `x[rd] <- sext_32((x[rs1] + immI)[31:0])`. -/
def execAddiw (rd rs1 : RegIdx) (imm : BitVec 12) (s : State) : Host.Outcome State Fault Refusal :=
  aluImm addW rd rs1 imm s

/-- R161: `x[rd] <- sext_32((x[rs1][31:0] << shamt5)[31:0])`. -/
def execSlliw (rd rs1 : RegIdx) (shamt : BitVec 5) (s : State) : Host.Outcome State Fault Refusal :=
  aluShift shiftLeftW rd rs1 shamt.toNat s

/-- R162: `x[rd] <- sext_32(x[rs1][31:0] >>u shamt5)`. -/
def execSrliw (rd rs1 : RegIdx) (shamt : BitVec 5) (s : State) : Host.Outcome State Fault Refusal :=
  aluShift shiftRightW rd rs1 shamt.toNat s

/-- R163: `x[rd] <- sext_32(x[rs1][31:0] >>s shamt5)`. -/
def execSraiw (rd rs1 : RegIdx) (shamt : BitVec 5) (s : State) : Host.Outcome State Fault Refusal :=
  aluShift shiftRightArithW rd rs1 shamt.toNat s

/-- R164: `x[rd] <- sext_32((x[rs1] + x[rs2])[31:0])`. -/
def execAddw (rd rs1 rs2 : RegIdx) (s : State) : Host.Outcome State Fault Refusal :=
  aluReg addW rd rs1 rs2 s

/-- R165: `x[rd] <- sext_32((x[rs1] - x[rs2])[31:0])`. -/
def execSubw (rd rs1 rs2 : RegIdx) (s : State) : Host.Outcome State Fault Refusal :=
  aluReg subW rd rs1 rs2 s

/-- R166: `x[rd] <- sext_32((x[rs1][31:0] << (x[rs2] & 0x1f))[31:0])`. -/
def execSllw (rd rs1 rs2 : RegIdx) (s : State) : Host.Outcome State Fault Refusal :=
  aluReg (fun a b => shiftLeftW a (amount5 b)) rd rs1 rs2 s

/-- R167: `x[rd] <- sext_32(x[rs1][31:0] >>u (x[rs2] & 0x1f))`. -/
def execSrlw (rd rs1 rs2 : RegIdx) (s : State) : Host.Outcome State Fault Refusal :=
  aluReg (fun a b => shiftRightW a (amount5 b)) rd rs1 rs2 s

/-- R168: `x[rd] <- sext_32(x[rs1][31:0] >>s (x[rs2] & 0x1f))`. -/
def execSraw (rd rs1 rs2 : RegIdx) (s : State) : Host.Outcome State Fault Refusal :=
  aluReg (fun a b => shiftRightArithW a (amount5 b)) rd rs1 rs2 s

end Sys2Proof.Machine
end

