-- ==== Sys2Proof/Machine/ControlTransfer.lean ====
section
/-! DEFINITION. The branches, jumps, `lui` and `auipc` of spec/44_control_transfer.md (R220 to R232). `pc` is the address of the
instruction; every sum is modulo 2^64; no target is checked (R231), a bad one shows at the next fetch. -/

namespace Sys2Proof.Machine

/-- A conditional branch (R124, R220): `pc + immB` when taken, `pc + 4` when not; it writes no register. -/
def branchIf (taken : Bool) (off : BitVec 12) (s : State) : Host.Outcome State Fault Refusal :=
  .next (s.setPc (if taken then s.pc + immB off else s.pc + 4#64))

/-- A jump: `x[rd] <- pc + 4` and `pc <- t`, where `t` was read before `rd` is written (R128, R227, R228). -/
def linkAndJump (rd : RegIdx) (t : Word) (s : State) : Host.Outcome State Fault Refusal :=
  .next ((s.writeReg rd (s.pc + 4#64)).setPc t)

/-- R221: taken on equal. -/
def execBeq (rs1 rs2 : RegIdx) (off : BitVec 12) (s : State) : Host.Outcome State Fault Refusal :=
  branchIf (s.readReg rs1 == s.readReg rs2) off s

/-- R222: taken on not equal. -/
def execBne (rs1 rs2 : RegIdx) (off : BitVec 12) (s : State) : Host.Outcome State Fault Refusal :=
  branchIf (s.readReg rs1 != s.readReg rs2) off s

/-- R223: taken on `<s`. -/
def execBlt (rs1 rs2 : RegIdx) (off : BitVec 12) (s : State) : Host.Outcome State Fault Refusal :=
  branchIf (signedLess (s.readReg rs1) (s.readReg rs2)) off s

/-- R224: taken on not `<s`. -/
def execBge (rs1 rs2 : RegIdx) (off : BitVec 12) (s : State) : Host.Outcome State Fault Refusal :=
  branchIf (!signedLess (s.readReg rs1) (s.readReg rs2)) off s

/-- R225: taken on `<u`. -/
def execBltu (rs1 rs2 : RegIdx) (off : BitVec 12) (s : State) : Host.Outcome State Fault Refusal :=
  branchIf (unsignedLess (s.readReg rs1) (s.readReg rs2)) off s

/-- R226: taken on not `<u`. -/
def execBgeu (rs1 rs2 : RegIdx) (off : BitVec 12) (s : State) : Host.Outcome State Fault Refusal :=
  branchIf (!unsignedLess (s.readReg rs1) (s.readReg rs2)) off s

/-- R227: `x[rd] <- pc + 4`, `pc <- pc + immJ`. -/
def execJal (rd : RegIdx) (off : BitVec 20) (s : State) : Host.Outcome State Fault Refusal :=
  linkAndJump rd (s.pc + immJ off) s

/-- R228: `x[rd] <- pc + 4`, `pc <- (x[rs1] + immI) & ~1`, the target from the old `x[rs1]` and with nothing added (decision D13, log 19). -/
def execJalr (rd rs1 : RegIdx) (imm : BitVec 12) (s : State) : Host.Outcome State Fault Refusal :=
  linkAndJump rd ((s.readReg rs1 + immI imm) &&& 0xFFFFFFFFFFFFFFFE#64) s

/-- R229: `x[rd] <- immU`. -/
def execLui (rd : RegIdx) (field : BitVec 20) (s : State) : Host.Outcome State Fault Refusal :=
  retire rd (immU field) s

/-- R230: `x[rd] <- pc + immU`. -/
def execAuipc (rd : RegIdx) (field : BitVec 20) (s : State) : Host.Outcome State Fault Refusal :=
  retire rd (s.pc + immU field) s

end Sys2Proof.Machine
end

