-- ==== Sys2Proof/Machine/Csr.lean ====
section
/-! DEFINITION. The CSR instructions of spec/45_csr.md (R240 to R248). Every index is a plain cell, no access is checked (R247). The old
value and the source are both read before either write (R240, R128). The write of `csrrs`, `csrrc`, `csrrsi`, `csrrci` is suppressed when
the field `rs1` or `uimm` is 0 (R248, decision D11). -/

namespace Sys2Proof.Machine

/-- Read-modify-write of `csr[c]`: with `t` its old value, `csr[c] <- v` where `new t` is `some v`, then `x[rd] <- t`, `pc <- pc + 4`. -/
def csrUpdate (rd : RegIdx) (c : CsrIdx) (new : Word → Option Word) (s : State) : Host.Outcome State Fault Refusal :=
  match new (s.readCsr c) with
  | some v => retire rd (s.readCsr c) (s.writeCsr c v)
  | none => retire rd (s.readCsr c) s

/-- R241: `csr[c] <- x[rs1]`, always. -/
def execCsrrw (rd : RegIdx) (c : CsrIdx) (rs1 : RegIdx) (s : State) : Host.Outcome State Fault Refusal :=
  csrUpdate rd c (fun _ => some (s.readReg rs1)) s

/-- R242: `if rs1 != 0 then csr[c] <- t | x[rs1]`. -/
def execCsrrs (rd : RegIdx) (c : CsrIdx) (rs1 : RegIdx) (s : State) : Host.Outcome State Fault Refusal :=
  csrUpdate rd c (fun t => if rs1 = 0#5 then none else some (t ||| s.readReg rs1)) s

/-- R243: `if rs1 != 0 then csr[c] <- t & ~x[rs1]`. -/
def execCsrrc (rd : RegIdx) (c : CsrIdx) (rs1 : RegIdx) (s : State) : Host.Outcome State Fault Refusal :=
  csrUpdate rd c (fun t => if rs1 = 0#5 then none else some (t &&& ~~~(s.readReg rs1))) s

/-- R244: `csr[c] <- zext_64(uimm)`, always. -/
def execCsrrwi (rd : RegIdx) (c : CsrIdx) (uimm : BitVec 5) (s : State) : Host.Outcome State Fault Refusal :=
  csrUpdate rd c (fun _ => some (immC uimm)) s

/-- R245: `if uimm != 0 then csr[c] <- t | zext_64(uimm)`. -/
def execCsrrsi (rd : RegIdx) (c : CsrIdx) (uimm : BitVec 5) (s : State) : Host.Outcome State Fault Refusal :=
  csrUpdate rd c (fun t => if uimm = 0#5 then none else some (t ||| immC uimm)) s

/-- R246: `if uimm != 0 then csr[c] <- t & ~zext_64(uimm)`. -/
def execCsrrci (rd : RegIdx) (c : CsrIdx) (uimm : BitVec 5) (s : State) : Host.Outcome State Fault Refusal :=
  csrUpdate rd c (fun t => if uimm = 0#5 then none else some (t &&& ~~~(immC uimm))) s

end Sys2Proof.Machine
end

