-- ==== Sys2Proof/Machine/LoadStore.lean ====
section
/-! DEFINITION. The loads and stores of spec/43_load_store.md (R200 to R213). No alignment is needed (20_memory.md R56, log 18). An access
whose bytes are not all mapped takes the `MemoryAccess` exception (R212): its step ends with `status = Faulted` and changes nothing else. -/

namespace Sys2Proof.Machine

/-- A load (R200, R212, R213): the address from the old `x[rs1]`, one `MemRead`, the value extended by `ext`; a load with `rd = 0` still
reads, and still faults. -/
def loadFrom (w : Width) (ext : Word → Word) (rd rs1 : RegIdx) (imm : BitVec 12) (s : State) : Host.Outcome State Fault Refusal :=
  match s.memRead (effective (s.readReg rs1) (immI imm)) w with
  | some v => retire rd (ext v) s
  | none => .next (s.raise (.memoryAccess .load (effective (s.readReg rs1) (immI imm)) w.bytes s.pc))

/-- A store (R200, R212, R213): one `MemWrite` of the low bytes of `x[rs2]`; where it fails no byte is written. -/
def storeTo (w : Width) (rs2 rs1 : RegIdx) (imm : BitVec 12) (s : State) : Host.Outcome State Fault Refusal :=
  match s.memWrite (effective (s.readReg rs1) (immS imm)) w (s.readReg rs2) with
  | some t => .next t.advance
  | none => .next (s.raise (.memoryAccess .store (effective (s.readReg rs1) (immS imm)) w.bytes s.pc))

/-- R201: one byte, sign-extended. -/
def execLb (rd rs1 : RegIdx) (imm : BitVec 12) (s : State) : Host.Outcome State Fault Refusal :=
  loadFrom .byte (sext 8) rd rs1 imm s

/-- R202: two bytes, sign-extended. -/
def execLh (rd rs1 : RegIdx) (imm : BitVec 12) (s : State) : Host.Outcome State Fault Refusal :=
  loadFrom .half (sext 16) rd rs1 imm s

/-- R203: four bytes, sign-extended. -/
def execLw (rd rs1 : RegIdx) (imm : BitVec 12) (s : State) : Host.Outcome State Fault Refusal :=
  loadFrom .word (sext 32) rd rs1 imm s

/-- R204: eight bytes, no extension. -/
def execLd (rd rs1 : RegIdx) (imm : BitVec 12) (s : State) : Host.Outcome State Fault Refusal :=
  loadFrom .double (fun v => v) rd rs1 imm s

/-- R205: one byte, zero-extended. -/
def execLbu (rd rs1 : RegIdx) (imm : BitVec 12) (s : State) : Host.Outcome State Fault Refusal :=
  loadFrom .byte (zext 8) rd rs1 imm s

/-- R206: two bytes, zero-extended. -/
def execLhu (rd rs1 : RegIdx) (imm : BitVec 12) (s : State) : Host.Outcome State Fault Refusal :=
  loadFrom .half (zext 16) rd rs1 imm s

/-- R207: four bytes, zero-extended. -/
def execLwu (rd rs1 : RegIdx) (imm : BitVec 12) (s : State) : Host.Outcome State Fault Refusal :=
  loadFrom .word (zext 32) rd rs1 imm s

/-- R208: the low byte of `x[rs2]`. -/
def execSb (rs2 rs1 : RegIdx) (imm : BitVec 12) (s : State) : Host.Outcome State Fault Refusal :=
  storeTo .byte rs2 rs1 imm s

/-- R209: the low two bytes of `x[rs2]`. -/
def execSh (rs2 rs1 : RegIdx) (imm : BitVec 12) (s : State) : Host.Outcome State Fault Refusal :=
  storeTo .half rs2 rs1 imm s

/-- R210: the low four bytes of `x[rs2]`. -/
def execSw (rs2 rs1 : RegIdx) (imm : BitVec 12) (s : State) : Host.Outcome State Fault Refusal :=
  storeTo .word rs2 rs1 imm s

/-- R211: the eight bytes of `x[rs2]`. -/
def execSd (rs2 rs1 : RegIdx) (imm : BitVec 12) (s : State) : Host.Outcome State Fault Refusal :=
  storeTo .double rs2 rs1 imm s

end Sys2Proof.Machine
end

