-- ==== Sys2Proof/Machine/MulDiv.lean ====
section
/-! DEFINITION. The 13 instructions of spec/42_muldiv.md (R180 to R195). Products and quotients are computed in unbounded integers and
narrowed at the end; division by zero and signed overflow give the values of R194 (decision D6, log 17) and never fault. -/

namespace Sys2Proof.Machine

/-- R182: `(signed(a) * signed(b))[127:64]`, which is `floor(product / 2^64)`. -/
def mulHigh (a b : Word) : Word := BitVec.ofInt 64 (a.toInt * b.toInt / 2 ^ 64)

/-- R183: `(signed(a) * unsigned(b))[127:64]`. -/
def mulHighSU (a b : Word) : Word := BitVec.ofInt 64 (a.toInt * (b.toNat : Int) / 2 ^ 64)

/-- R184: `(unsigned(a) * unsigned(b))[127:64]`. -/
def mulHighU (a b : Word) : Word := BitVec.ofNat 64 (a.toNat * b.toNat / 2 ^ 64)

/-- The signed quotient at width `n`, truncated toward zero, with the first two rows of R194. -/
def quotS {n : Nat} (a b : BitVec n) : BitVec n :=
  if b = 0#n then BitVec.allOnes n
  else if a = BitVec.intMin n ∧ b = BitVec.allOnes n then a
  else BitVec.ofInt n (a.toInt.tdiv b.toInt)

/-- The signed remainder at width `n`, with the sign of the dividend, with the first two rows of R194. -/
def remS {n : Nat} (a b : BitVec n) : BitVec n :=
  if b = 0#n then a
  else if a = BitVec.intMin n ∧ b = BitVec.allOnes n then 0#n
  else BitVec.ofInt n (a.toInt.tmod b.toInt)

/-- The unsigned quotient at width `n`, with the first row of R194. -/
def quotU {n : Nat} (a b : BitVec n) : BitVec n :=
  if b = 0#n then BitVec.allOnes n else BitVec.ofNat n (a.toNat / b.toNat)

/-- The unsigned remainder at width `n`, with the first row of R194. -/
def remU {n : Nat} (a b : BitVec n) : BitVec n :=
  if b = 0#n then a else BitVec.ofNat n (a.toNat % b.toNat)

/-- A W form: the operation on the low 32 bits of both registers, its 32-bit result sign-extended (R169, R194). -/
def onLow32 (f : BitVec 32 → BitVec 32 → BitVec 32) (a b : Word) : Word := ofLow32 (f (low32 a) (low32 b))

/-- R181: `x[rd] <- (x[rs1] * x[rs2])[63:0]`. -/
def execMul (rd rs1 rs2 : RegIdx) (s : State) : Host.Outcome State Fault Refusal :=
  aluReg (fun a b => a * b) rd rs1 rs2 s

/-- R182: the high half of the signed product. -/
def execMulh (rd rs1 rs2 : RegIdx) (s : State) : Host.Outcome State Fault Refusal :=
  aluReg mulHigh rd rs1 rs2 s

/-- R183: the high half of the product of signed `x[rs1]` and unsigned `x[rs2]`. -/
def execMulhsu (rd rs1 rs2 : RegIdx) (s : State) : Host.Outcome State Fault Refusal :=
  aluReg mulHighSU rd rs1 rs2 s

/-- R184: the high half of the unsigned product. -/
def execMulhu (rd rs1 rs2 : RegIdx) (s : State) : Host.Outcome State Fault Refusal :=
  aluReg mulHighU rd rs1 rs2 s

/-- R185: the signed quotient, truncated toward zero. -/
def execDiv (rd rs1 rs2 : RegIdx) (s : State) : Host.Outcome State Fault Refusal :=
  aluReg quotS rd rs1 rs2 s

/-- R186: the unsigned quotient. -/
def execDivu (rd rs1 rs2 : RegIdx) (s : State) : Host.Outcome State Fault Refusal :=
  aluReg quotU rd rs1 rs2 s

/-- R187: the signed remainder. -/
def execRem (rd rs1 rs2 : RegIdx) (s : State) : Host.Outcome State Fault Refusal :=
  aluReg remS rd rs1 rs2 s

/-- R188: the unsigned remainder. -/
def execRemu (rd rs1 rs2 : RegIdx) (s : State) : Host.Outcome State Fault Refusal :=
  aluReg remU rd rs1 rs2 s

/-- R189: `x[rd] <- sext_32((x[rs1][31:0] * x[rs2][31:0])[31:0])`. -/
def execMulw (rd rs1 rs2 : RegIdx) (s : State) : Host.Outcome State Fault Refusal :=
  aluReg (onLow32 fun a b => a * b) rd rs1 rs2 s

/-- R190: the signed 32-bit quotient. -/
def execDivw (rd rs1 rs2 : RegIdx) (s : State) : Host.Outcome State Fault Refusal :=
  aluReg (onLow32 quotS) rd rs1 rs2 s

/-- R191: the unsigned 32-bit quotient, sign-extended. -/
def execDivuw (rd rs1 rs2 : RegIdx) (s : State) : Host.Outcome State Fault Refusal :=
  aluReg (onLow32 quotU) rd rs1 rs2 s

/-- R192: the signed 32-bit remainder. -/
def execRemw (rd rs1 rs2 : RegIdx) (s : State) : Host.Outcome State Fault Refusal :=
  aluReg (onLow32 remS) rd rs1 rs2 s

/-- R193: the unsigned 32-bit remainder, sign-extended. -/
def execRemuw (rd rs1 rs2 : RegIdx) (s : State) : Host.Outcome State Fault Refusal :=
  aluReg (onLow32 remU) rd rs1 rs2 s

end Sys2Proof.Machine
end

