-- ==== Sys2Proof/Machine/System.lean ====
section
/-! DEFINITION. The environment call, the breakpoint, the fences, `pause` and the counter reads of spec/46_system.md (R250 to R262).
`ecall` takes the `EnvironmentCall` exception; the other ten change nothing but `pc` (R250). -/

namespace Sys2Proof.Machine

/-- R250: "no state change", meant exactly; the one effect of the step is `pc <- pc + 4`. -/
def noEffect (s : State) : Host.Outcome State Fault Refusal := .next s.advance

/-- The payload of R251: `x[10]` to `x[17]`, in that order. -/
def callArguments (s : State) : Vector Word 8 :=
  #v[s.readReg 10#5, s.readReg 11#5, s.readReg 12#5, s.readReg 13#5, s.readReg 14#5, s.readReg 15#5, s.readReg 16#5, s.readReg 17#5]

/-- R251: `raise EnvironmentCall(priv, [x[10] .. x[17]], pc)`; nothing else changes, `pc` stays at the `ecall`. -/
def execEcall (s : State) : Host.Outcome State Fault Refusal :=
  .next (s.raise (.environmentCall s.priv (callArguments s) s.pc))

/-- R252: no operation; no breakpoint fault is raised and the run goes on. -/
def execEbreak (s : State) : Host.Outcome State Fault Refusal := noEffect s

/-- R253: no operation, whatever the ignored fields hold. -/
def execFence (_fields : BitVec 12) (_rs1 _rd : RegIdx) (s : State) : Host.Outcome State Fault Refusal := noEffect s

/-- R254: no operation. -/
def execFenceTso (_rs1 _rd : RegIdx) (s : State) : Host.Outcome State Fault Refusal := noEffect s

/-- R255: no operation; it does not wait. -/
def execPause (s : State) : Host.Outcome State Fault Refusal := noEffect s

/-- R256: no operation; `x[rd]` keeps the value it had (decision D16). -/
def execRdcycle (_rd : RegIdx) (s : State) : Host.Outcome State Fault Refusal := noEffect s

/-- R257: no operation; `x[rd]` keeps the value it had (decision D16). -/
def execRdtime (_rd : RegIdx) (s : State) : Host.Outcome State Fault Refusal := noEffect s

/-- R258: no operation; `x[rd]` keeps the value it had (decision D16). -/
def execRdinstret (_rd : RegIdx) (s : State) : Host.Outcome State Fault Refusal := noEffect s

/-- R259: no operation; `x[rd]` keeps the value it had (decision D16). -/
def execRdcycleh (_rd : RegIdx) (s : State) : Host.Outcome State Fault Refusal := noEffect s

/-- R260: no operation; `x[rd]` keeps the value it had (decision D16). -/
def execRdtimeh (_rd : RegIdx) (s : State) : Host.Outcome State Fault Refusal := noEffect s

/-- R261: no operation; `x[rd]` keeps the value it had (decision D16). -/
def execRdinstreth (_rd : RegIdx) (s : State) : Host.Outcome State Fault Refusal := noEffect s

end Sys2Proof.Machine
end

