-- ==== Sys2Proof/Syntax.lean ====
section
/-! DEFINITION. The instructions: one constructor per row of spec/opcode_table.json (30_encoding.md R95), in its order.

Operands are held as the word carries them: register numbers, the CSR number, the raw bits of an immediate. `imm : BitVec 12` is
`insn[31:20]` (R83) or `insn[31:25] ++ insn[11:7]` (R84); `off : BitVec 12` of a branch is `immB[12:1]` (R85) and `off : BitVec 20` of
`jal` is `immJ[20:1]` (R87), bit 0 of both being always zero (log 14); `field : BitVec 20` is `insn[31:12]` (R86). The fields that
`fence`, `fence.tso` and the counter reads ignore are kept, so that no bit of a word is lost (log 13). -/

namespace Sys2Proof

inductive Instr where
  | lui (rd : RegIdx) (field : BitVec 20)
  | auipc (rd : RegIdx) (field : BitVec 20)
  | jal (rd : RegIdx) (off : BitVec 20)
  | jalr (rd rs1 : RegIdx) (imm : BitVec 12)
  | beq (rs1 rs2 : RegIdx) (off : BitVec 12)
  | bne (rs1 rs2 : RegIdx) (off : BitVec 12)
  | blt (rs1 rs2 : RegIdx) (off : BitVec 12)
  | bge (rs1 rs2 : RegIdx) (off : BitVec 12)
  | bltu (rs1 rs2 : RegIdx) (off : BitVec 12)
  | bgeu (rs1 rs2 : RegIdx) (off : BitVec 12)
  | lb (rd rs1 : RegIdx) (imm : BitVec 12)
  | lh (rd rs1 : RegIdx) (imm : BitVec 12)
  | lw (rd rs1 : RegIdx) (imm : BitVec 12)
  | ld (rd rs1 : RegIdx) (imm : BitVec 12)
  | lbu (rd rs1 : RegIdx) (imm : BitVec 12)
  | lhu (rd rs1 : RegIdx) (imm : BitVec 12)
  | lwu (rd rs1 : RegIdx) (imm : BitVec 12)
  | sb (rs2 rs1 : RegIdx) (imm : BitVec 12)
  | sh (rs2 rs1 : RegIdx) (imm : BitVec 12)
  | sw (rs2 rs1 : RegIdx) (imm : BitVec 12)
  | sd (rs2 rs1 : RegIdx) (imm : BitVec 12)
  | addi (rd rs1 : RegIdx) (imm : BitVec 12)
  | slti (rd rs1 : RegIdx) (imm : BitVec 12)
  | sltiu (rd rs1 : RegIdx) (imm : BitVec 12)
  | xori (rd rs1 : RegIdx) (imm : BitVec 12)
  | ori (rd rs1 : RegIdx) (imm : BitVec 12)
  | andi (rd rs1 : RegIdx) (imm : BitVec 12)
  | slli (rd rs1 : RegIdx) (shamt : BitVec 6)
  | srli (rd rs1 : RegIdx) (shamt : BitVec 6)
  | srai (rd rs1 : RegIdx) (shamt : BitVec 6)
  | add (rd rs1 rs2 : RegIdx)
  | sub (rd rs1 rs2 : RegIdx)
  | sll (rd rs1 rs2 : RegIdx)
  | slt (rd rs1 rs2 : RegIdx)
  | sltu (rd rs1 rs2 : RegIdx)
  | xor (rd rs1 rs2 : RegIdx)
  | srl (rd rs1 rs2 : RegIdx)
  | sra (rd rs1 rs2 : RegIdx)
  | or (rd rs1 rs2 : RegIdx)
  | and (rd rs1 rs2 : RegIdx)
  | addiw (rd rs1 : RegIdx) (imm : BitVec 12)
  | slliw (rd rs1 : RegIdx) (shamt : BitVec 5)
  | srliw (rd rs1 : RegIdx) (shamt : BitVec 5)
  | sraiw (rd rs1 : RegIdx) (shamt : BitVec 5)
  | addw (rd rs1 rs2 : RegIdx)
  | subw (rd rs1 rs2 : RegIdx)
  | sllw (rd rs1 rs2 : RegIdx)
  | srlw (rd rs1 rs2 : RegIdx)
  | sraw (rd rs1 rs2 : RegIdx)
  | mul (rd rs1 rs2 : RegIdx)
  | mulh (rd rs1 rs2 : RegIdx)
  | mulhsu (rd rs1 rs2 : RegIdx)
  | mulhu (rd rs1 rs2 : RegIdx)
  | div (rd rs1 rs2 : RegIdx)
  | divu (rd rs1 rs2 : RegIdx)
  | rem (rd rs1 rs2 : RegIdx)
  | remu (rd rs1 rs2 : RegIdx)
  | mulw (rd rs1 rs2 : RegIdx)
  | divw (rd rs1 rs2 : RegIdx)
  | divuw (rd rs1 rs2 : RegIdx)
  | remw (rd rs1 rs2 : RegIdx)
  | remuw (rd rs1 rs2 : RegIdx)
  | fence (fields : BitVec 12) (rs1 rd : RegIdx)
  | fenceTso (rs1 rd : RegIdx)
  | pause
  | ecall
  | ebreak
  | csrrw (rd : RegIdx) (csr : CsrIdx) (rs1 : RegIdx)
  | csrrs (rd : RegIdx) (csr : CsrIdx) (rs1 : RegIdx)
  | csrrc (rd : RegIdx) (csr : CsrIdx) (rs1 : RegIdx)
  | csrrwi (rd : RegIdx) (csr : CsrIdx) (uimm : BitVec 5)
  | csrrsi (rd : RegIdx) (csr : CsrIdx) (uimm : BitVec 5)
  | csrrci (rd : RegIdx) (csr : CsrIdx) (uimm : BitVec 5)
  | rdcycle (rd : RegIdx)
  | rdtime (rd : RegIdx)
  | rdinstret (rd : RegIdx)
  | rdcycleh (rd : RegIdx)
  | rdtimeh (rd : RegIdx)
  | rdinstreth (rd : RegIdx)
  deriving DecidableEq, Repr

end Sys2Proof
end

