-- ==== Sys2Proof/WellFormed.lean ====
section
/-! DEFINITION. Which terms of `Instr` stand for a word of their own. Register numbers, CSR numbers and immediates are of exactly the
width the word has room for, so they need no check; what is checked is 30_encoding.md R93: a `fence` whose word `fence.tso` or `pause`
takes, and a `csrrs` whose word one of the six counter reads takes, are not instructions of this machine. -/

namespace Sys2Proof

/-- The CSR numbers of the six counter-read entries (R93, R95 rows 74 to 79). -/
def counterCsrs : List CsrIdx := [0xC00#12, 0xC01#12, 0xC02#12, 0xC80#12, 0xC81#12, 0xC82#12]

/-- R93: the words of `fence.tso` have `insn[31:20] = 0x833`. -/
def fenceTsoFields : BitVec 12 := 0x833#12

/-- R93: the word of `pause` is `0x0100000F`, that is `insn[31:20] = 0x010` with `rs1` and `rd` zero. -/
def pauseFields : BitVec 12 := 0x010#12

/-- A `fence` term keeps clear of the words of `fence.tso` and `pause` (R93, R101). -/
def fenceClear (fields : BitVec 12) (rs1 rd : RegIdx) : Bool :=
  fields != fenceTsoFields && !(fields == pauseFields && rs1 == 0#5 && rd == 0#5)

/-- A `csrrs` term keeps clear of the words of the six counter reads (R93, R240). -/
def csrrsClear (csr : CsrIdx) (rs1 : RegIdx) : Bool :=
  !(rs1 == 0#5 && counterCsrs.contains csr)

def Instr.wellFormed : Instr → Bool
  | .lui _ _ => true
  | .auipc _ _ => true
  | .jal _ _ => true
  | .jalr _ _ _ => true
  | .beq _ _ _ => true
  | .bne _ _ _ => true
  | .blt _ _ _ => true
  | .bge _ _ _ => true
  | .bltu _ _ _ => true
  | .bgeu _ _ _ => true
  | .lb _ _ _ => true
  | .lh _ _ _ => true
  | .lw _ _ _ => true
  | .ld _ _ _ => true
  | .lbu _ _ _ => true
  | .lhu _ _ _ => true
  | .lwu _ _ _ => true
  | .sb _ _ _ => true
  | .sh _ _ _ => true
  | .sw _ _ _ => true
  | .sd _ _ _ => true
  | .addi _ _ _ => true
  | .slti _ _ _ => true
  | .sltiu _ _ _ => true
  | .xori _ _ _ => true
  | .ori _ _ _ => true
  | .andi _ _ _ => true
  | .slli _ _ _ => true
  | .srli _ _ _ => true
  | .srai _ _ _ => true
  | .add _ _ _ => true
  | .sub _ _ _ => true
  | .sll _ _ _ => true
  | .slt _ _ _ => true
  | .sltu _ _ _ => true
  | .xor _ _ _ => true
  | .srl _ _ _ => true
  | .sra _ _ _ => true
  | .or _ _ _ => true
  | .and _ _ _ => true
  | .addiw _ _ _ => true
  | .slliw _ _ _ => true
  | .srliw _ _ _ => true
  | .sraiw _ _ _ => true
  | .addw _ _ _ => true
  | .subw _ _ _ => true
  | .sllw _ _ _ => true
  | .srlw _ _ _ => true
  | .sraw _ _ _ => true
  | .mul _ _ _ => true
  | .mulh _ _ _ => true
  | .mulhsu _ _ _ => true
  | .mulhu _ _ _ => true
  | .div _ _ _ => true
  | .divu _ _ _ => true
  | .rem _ _ _ => true
  | .remu _ _ _ => true
  | .mulw _ _ _ => true
  | .divw _ _ _ => true
  | .divuw _ _ _ => true
  | .remw _ _ _ => true
  | .remuw _ _ _ => true
  | .fence fields rs1 rd => fenceClear fields rs1 rd
  | .fenceTso _ _ => true
  | .pause => true
  | .ecall => true
  | .ebreak => true
  | .csrrw _ _ _ => true
  | .csrrs _ csr rs1 => csrrsClear csr rs1
  | .csrrc _ _ _ => true
  | .csrrwi _ _ _ => true
  | .csrrsi _ _ _ => true
  | .csrrci _ _ _ => true
  | .rdcycle _ => true
  | .rdtime _ => true
  | .rdinstret _ => true
  | .rdcycleh _ => true
  | .rdtimeh _ => true
  | .rdinstreth _ => true

end Sys2Proof
end

