-- ==== Sys2Proof/Decode.lean ====
section
/-! DEFINITION. Field extraction, the dispatch table, the decoder and the encoder: spec/30_encoding.md R80 to R105.

Every mask, match, opcode, funct3 and funct7 value is the spec's own choice of the public RISC-V encodings (decision D20, log 12). -/

namespace Sys2Proof

/-! ### Fields of a word (R81): extracted the same way from every word -/

def Field.opcode (w : Insn) : BitVec 7 := w.extractLsb' 0 7
def Field.rd (w : Insn) : RegIdx := w.extractLsb' 7 5
def Field.funct3 (w : Insn) : BitVec 3 := w.extractLsb' 12 3
def Field.rs1 (w : Insn) : RegIdx := w.extractLsb' 15 5
def Field.rs2 (w : Insn) : RegIdx := w.extractLsb' 20 5
/-- `rs3` is extracted and used by no instruction (R81, N5). -/
def Field.rs3 (w : Insn) : RegIdx := w.extractLsb' 27 5
def Field.funct7 (w : Insn) : BitVec 7 := w.extractLsb' 25 7
def Field.funct6 (w : Insn) : BitVec 6 := w.extractLsb' 26 6
def Field.shamt6 (w : Insn) : BitVec 6 := w.extractLsb' 20 6
def Field.shamt5 (w : Insn) : BitVec 5 := w.extractLsb' 20 5
def Field.csr (w : Insn) : CsrIdx := w.extractLsb' 20 12
def Field.uimm (w : Insn) : BitVec 5 := w.extractLsb' 15 5

/-- A group of bits put with its lowest bit at offset `k` of a value of `n` bits (R6). A concatenation is written as the `|||` of its
groups at their offsets. -/
def put {n m : Nat} (k : Nat) (f : BitVec m) : BitVec n := f.setWidth n <<< k

/-! ### The raw bits of the five immediates (R83 to R87); `Machine.immI` and its siblings extend them to 64 bits -/

/-- R83: `insn[31:20]`. -/
def Field.immI (w : Insn) : BitVec 12 := w.extractLsb' 20 12
/-- R84, with the reading of conflict C4: `insn[31:25] ++ insn[11:7]`. -/
def Field.immS (w : Insn) : BitVec 12 := 
  put 5 (w.extractLsb' 25 7) ||| put 0 (w.extractLsb' 7 5)
/-- R85: bits 12 to 1 of `immB`, `insn[31] ++ insn[7] ++ insn[30:25] ++ insn[11:8]`. -/
def Field.offB (w : Insn) : BitVec 12 := 
  put 11 (w.extractLsb' 31 1) ||| put 10 (w.extractLsb' 7 1) ||| put 4 (w.extractLsb' 25 6) ||| put 0 (w.extractLsb' 8 4)
/-- R86: `insn[31:12]`. -/
def Field.immU (w : Insn) : BitVec 20 := w.extractLsb' 12 20
/-- R87: bits 20 to 1 of `immJ`, `insn[31] ++ insn[19:12] ++ insn[20] ++ insn[30:21]`. -/
def Field.offJ (w : Insn) : BitVec 20 := 
  put 19 (w.extractLsb' 31 1) ||| put 11 (w.extractLsb' 12 8) ||| put 10 (w.extractLsb' 20 1) ||| put 0 (w.extractLsb' 21 10)

/-! ### The dispatch table (R91, R95) -/

/-- The operations the decoder can answer: one per row of R95. -/
inductive Op where
  | lui | auipc | jal | jalr | beq | bne | blt | bge | bltu | bgeu | lb | lh | lw | ld | lbu | lhu | lwu | sb
  | sh | sw | sd | addi | slti | sltiu | xori | ori | andi | slli | srli | srai | add | sub | sll | slt
  | sltu | xor | srl | sra | or | and | addiw | slliw | srliw | sraiw | addw | subw | sllw | srlw | sraw
  | mul | mulh | mulhsu | mulhu | div | divu | rem | remu | mulw | divw | divuw | remw | remuw | fence
  | fenceTso | pause | ecall | ebreak | csrrw | csrrs | csrrc | csrrwi | csrrsi | csrrci | rdcycle | rdtime
  | rdinstret | rdcycleh | rdtimeh | rdinstreth
  deriving DecidableEq, Repr

/-- One entry of the table: "A word is recognized when `(word & mask) == match`" (R91). -/
structure Entry where
  mask : Insn
  pattern : Insn
  op : Op
  deriving DecidableEq, Repr

/-- R91. -/
def Entry.hits (e : Entry) (w : Insn) : Bool := w &&& e.mask == e.pattern

/-- Rows 1 to 4 of R95. -/
def table.upperAndJumps : List Entry :=
  [⟨0x0000007f#32, 0x00000037#32, .lui⟩,
   ⟨0x0000007f#32, 0x00000017#32, .auipc⟩,
   ⟨0x0000007f#32, 0x0000006f#32, .jal⟩,
   ⟨0x0000707f#32, 0x00000067#32, .jalr⟩]

/-- Rows 5 to 10 of R95. -/
def table.branches : List Entry :=
  [⟨0x0000707f#32, 0x00000063#32, .beq⟩,
   ⟨0x0000707f#32, 0x00001063#32, .bne⟩,
   ⟨0x0000707f#32, 0x00004063#32, .blt⟩,
   ⟨0x0000707f#32, 0x00005063#32, .bge⟩,
   ⟨0x0000707f#32, 0x00006063#32, .bltu⟩,
   ⟨0x0000707f#32, 0x00007063#32, .bgeu⟩]

/-- Rows 11 to 17 of R95. -/
def table.loads : List Entry :=
  [⟨0x0000707f#32, 0x00000003#32, .lb⟩,
   ⟨0x0000707f#32, 0x00001003#32, .lh⟩,
   ⟨0x0000707f#32, 0x00002003#32, .lw⟩,
   ⟨0x0000707f#32, 0x00003003#32, .ld⟩,
   ⟨0x0000707f#32, 0x00004003#32, .lbu⟩,
   ⟨0x0000707f#32, 0x00005003#32, .lhu⟩,
   ⟨0x0000707f#32, 0x00006003#32, .lwu⟩]

/-- Rows 18 to 21 of R95. -/
def table.stores : List Entry :=
  [⟨0x0000707f#32, 0x00000023#32, .sb⟩,
   ⟨0x0000707f#32, 0x00001023#32, .sh⟩,
   ⟨0x0000707f#32, 0x00002023#32, .sw⟩,
   ⟨0x0000707f#32, 0x00003023#32, .sd⟩]

/-- Rows 22 to 30 of R95. -/
def table.opImm : List Entry :=
  [⟨0x0000707f#32, 0x00000013#32, .addi⟩,
   ⟨0x0000707f#32, 0x00002013#32, .slti⟩,
   ⟨0x0000707f#32, 0x00003013#32, .sltiu⟩,
   ⟨0x0000707f#32, 0x00004013#32, .xori⟩,
   ⟨0x0000707f#32, 0x00006013#32, .ori⟩,
   ⟨0x0000707f#32, 0x00007013#32, .andi⟩,
   ⟨0xfc00707f#32, 0x00001013#32, .slli⟩,
   ⟨0xfc00707f#32, 0x00005013#32, .srli⟩,
   ⟨0xfc00707f#32, 0x40005013#32, .srai⟩]

/-- Rows 31 to 40 of R95. -/
def table.op : List Entry :=
  [⟨0xfe00707f#32, 0x00000033#32, .add⟩,
   ⟨0xfe00707f#32, 0x40000033#32, .sub⟩,
   ⟨0xfe00707f#32, 0x00001033#32, .sll⟩,
   ⟨0xfe00707f#32, 0x00002033#32, .slt⟩,
   ⟨0xfe00707f#32, 0x00003033#32, .sltu⟩,
   ⟨0xfe00707f#32, 0x00004033#32, .xor⟩,
   ⟨0xfe00707f#32, 0x00005033#32, .srl⟩,
   ⟨0xfe00707f#32, 0x40005033#32, .sra⟩,
   ⟨0xfe00707f#32, 0x00006033#32, .or⟩,
   ⟨0xfe00707f#32, 0x00007033#32, .and⟩]

/-- Rows 41 to 49 of R95. -/
def table.wForms : List Entry :=
  [⟨0x0000707f#32, 0x0000001b#32, .addiw⟩,
   ⟨0xfe00707f#32, 0x0000101b#32, .slliw⟩,
   ⟨0xfe00707f#32, 0x0000501b#32, .srliw⟩,
   ⟨0xfe00707f#32, 0x4000501b#32, .sraiw⟩,
   ⟨0xfe00707f#32, 0x0000003b#32, .addw⟩,
   ⟨0xfe00707f#32, 0x4000003b#32, .subw⟩,
   ⟨0xfe00707f#32, 0x0000103b#32, .sllw⟩,
   ⟨0xfe00707f#32, 0x0000503b#32, .srlw⟩,
   ⟨0xfe00707f#32, 0x4000503b#32, .sraw⟩]

/-- Rows 50 to 62 of R95. -/
def table.mulDiv : List Entry :=
  [⟨0xfe00707f#32, 0x02000033#32, .mul⟩,
   ⟨0xfe00707f#32, 0x02001033#32, .mulh⟩,
   ⟨0xfe00707f#32, 0x02002033#32, .mulhsu⟩,
   ⟨0xfe00707f#32, 0x02003033#32, .mulhu⟩,
   ⟨0xfe00707f#32, 0x02004033#32, .div⟩,
   ⟨0xfe00707f#32, 0x02005033#32, .divu⟩,
   ⟨0xfe00707f#32, 0x02006033#32, .rem⟩,
   ⟨0xfe00707f#32, 0x02007033#32, .remu⟩,
   ⟨0xfe00707f#32, 0x0200003b#32, .mulw⟩,
   ⟨0xfe00707f#32, 0x0200403b#32, .divw⟩,
   ⟨0xfe00707f#32, 0x0200503b#32, .divuw⟩,
   ⟨0xfe00707f#32, 0x0200603b#32, .remw⟩,
   ⟨0xfe00707f#32, 0x0200703b#32, .remuw⟩]

/-- Rows 63 to 67 of R95. -/
def table.system : List Entry :=
  [⟨0x0000707f#32, 0x0000000f#32, .fence⟩,
   ⟨0xfff0707f#32, 0x8330000f#32, .fenceTso⟩,
   ⟨0xffffffff#32, 0x0100000f#32, .pause⟩,
   ⟨0xffffffff#32, 0x00000073#32, .ecall⟩,
   ⟨0xffffffff#32, 0x00100073#32, .ebreak⟩]

/-- Rows 68 to 73 of R95. -/
def table.csr : List Entry :=
  [⟨0x0000707f#32, 0x00001073#32, .csrrw⟩,
   ⟨0x0000707f#32, 0x00002073#32, .csrrs⟩,
   ⟨0x0000707f#32, 0x00003073#32, .csrrc⟩,
   ⟨0x0000707f#32, 0x00005073#32, .csrrwi⟩,
   ⟨0x0000707f#32, 0x00006073#32, .csrrsi⟩,
   ⟨0x0000707f#32, 0x00007073#32, .csrrci⟩]

/-- Rows 74 to 79 of R95. -/
def table.counterReads : List Entry :=
  [⟨0xfffff07f#32, 0xc0002073#32, .rdcycle⟩,
   ⟨0xfffff07f#32, 0xc0102073#32, .rdtime⟩,
   ⟨0xfffff07f#32, 0xc0202073#32, .rdinstret⟩,
   ⟨0xfffff07f#32, 0xc8002073#32, .rdcycleh⟩,
   ⟨0xfffff07f#32, 0xc8102073#32, .rdtimeh⟩,
   ⟨0xfffff07f#32, 0xc8202073#32, .rdinstreth⟩]

/-- The 79 entries of R95 in the spec's order. -/
def dispatchTable : List Entry :=
  table.upperAndJumps ++ table.branches ++ table.loads ++ table.stores ++ table.opImm ++ table.op ++
  table.wForms ++ table.mulDiv ++ table.system ++ table.csr ++ table.counterReads

/-- The number of one bits among the low `n` bits of a mask. -/
def onesBelow (m : Insn) : Nat → Nat
  | 0 => 0
  | n + 1 => (if m.getLsbD n then 1 else 0) + onesBelow m n

/-- "Specificity" (R12): the number of one bits in an entry's mask. -/
def Entry.specificity (e : Entry) : Nat := onesBelow e.mask 32

/-- R92: of two entries that match, the one whose mask has more one bits; the earlier one on a tie (no tie occurs among
overlapping entries, `Laws.overlaps_are_exactly_eight`; log 20). -/
def moreSpecific (e : Entry) : Option Entry → Entry
  | none => e
  | some b => if e.specificity < b.specificity then b else e

/-- The most specific of the entries that match a word, if any matches (R91, R92, R94). -/
def bestMatch (w : Insn) : List Entry → Option Entry
  | [] => none
  | e :: es => if e.hits w then some (moreSpecific e (bestMatch w es)) else bestMatch w es

/-- `decode` of R91: the operation of the matching entry, or none. -/
def dispatch (w : Insn) : Option Op := (bestMatch w dispatchTable).map Entry.op

/-- The field extractor of R81 to R89 applied for one operation. -/
def operands (w : Insn) : Op → Instr
  | .lui => .lui (Field.rd w) (Field.immU w)
  | .auipc => .auipc (Field.rd w) (Field.immU w)
  | .jal => .jal (Field.rd w) (Field.offJ w)
  | .jalr => .jalr (Field.rd w) (Field.rs1 w) (Field.immI w)
  | .beq => .beq (Field.rs1 w) (Field.rs2 w) (Field.offB w)
  | .bne => .bne (Field.rs1 w) (Field.rs2 w) (Field.offB w)
  | .blt => .blt (Field.rs1 w) (Field.rs2 w) (Field.offB w)
  | .bge => .bge (Field.rs1 w) (Field.rs2 w) (Field.offB w)
  | .bltu => .bltu (Field.rs1 w) (Field.rs2 w) (Field.offB w)
  | .bgeu => .bgeu (Field.rs1 w) (Field.rs2 w) (Field.offB w)
  | .lb => .lb (Field.rd w) (Field.rs1 w) (Field.immI w)
  | .lh => .lh (Field.rd w) (Field.rs1 w) (Field.immI w)
  | .lw => .lw (Field.rd w) (Field.rs1 w) (Field.immI w)
  | .ld => .ld (Field.rd w) (Field.rs1 w) (Field.immI w)
  | .lbu => .lbu (Field.rd w) (Field.rs1 w) (Field.immI w)
  | .lhu => .lhu (Field.rd w) (Field.rs1 w) (Field.immI w)
  | .lwu => .lwu (Field.rd w) (Field.rs1 w) (Field.immI w)
  | .sb => .sb (Field.rs2 w) (Field.rs1 w) (Field.immS w)
  | .sh => .sh (Field.rs2 w) (Field.rs1 w) (Field.immS w)
  | .sw => .sw (Field.rs2 w) (Field.rs1 w) (Field.immS w)
  | .sd => .sd (Field.rs2 w) (Field.rs1 w) (Field.immS w)
  | .addi => .addi (Field.rd w) (Field.rs1 w) (Field.immI w)
  | .slti => .slti (Field.rd w) (Field.rs1 w) (Field.immI w)
  | .sltiu => .sltiu (Field.rd w) (Field.rs1 w) (Field.immI w)
  | .xori => .xori (Field.rd w) (Field.rs1 w) (Field.immI w)
  | .ori => .ori (Field.rd w) (Field.rs1 w) (Field.immI w)
  | .andi => .andi (Field.rd w) (Field.rs1 w) (Field.immI w)
  | .slli => .slli (Field.rd w) (Field.rs1 w) (Field.shamt6 w)
  | .srli => .srli (Field.rd w) (Field.rs1 w) (Field.shamt6 w)
  | .srai => .srai (Field.rd w) (Field.rs1 w) (Field.shamt6 w)
  | .add => .add (Field.rd w) (Field.rs1 w) (Field.rs2 w)
  | .sub => .sub (Field.rd w) (Field.rs1 w) (Field.rs2 w)
  | .sll => .sll (Field.rd w) (Field.rs1 w) (Field.rs2 w)
  | .slt => .slt (Field.rd w) (Field.rs1 w) (Field.rs2 w)
  | .sltu => .sltu (Field.rd w) (Field.rs1 w) (Field.rs2 w)
  | .xor => .xor (Field.rd w) (Field.rs1 w) (Field.rs2 w)
  | .srl => .srl (Field.rd w) (Field.rs1 w) (Field.rs2 w)
  | .sra => .sra (Field.rd w) (Field.rs1 w) (Field.rs2 w)
  | .or => .or (Field.rd w) (Field.rs1 w) (Field.rs2 w)
  | .and => .and (Field.rd w) (Field.rs1 w) (Field.rs2 w)
  | .addiw => .addiw (Field.rd w) (Field.rs1 w) (Field.immI w)
  | .slliw => .slliw (Field.rd w) (Field.rs1 w) (Field.shamt5 w)
  | .srliw => .srliw (Field.rd w) (Field.rs1 w) (Field.shamt5 w)
  | .sraiw => .sraiw (Field.rd w) (Field.rs1 w) (Field.shamt5 w)
  | .addw => .addw (Field.rd w) (Field.rs1 w) (Field.rs2 w)
  | .subw => .subw (Field.rd w) (Field.rs1 w) (Field.rs2 w)
  | .sllw => .sllw (Field.rd w) (Field.rs1 w) (Field.rs2 w)
  | .srlw => .srlw (Field.rd w) (Field.rs1 w) (Field.rs2 w)
  | .sraw => .sraw (Field.rd w) (Field.rs1 w) (Field.rs2 w)
  | .mul => .mul (Field.rd w) (Field.rs1 w) (Field.rs2 w)
  | .mulh => .mulh (Field.rd w) (Field.rs1 w) (Field.rs2 w)
  | .mulhsu => .mulhsu (Field.rd w) (Field.rs1 w) (Field.rs2 w)
  | .mulhu => .mulhu (Field.rd w) (Field.rs1 w) (Field.rs2 w)
  | .div => .div (Field.rd w) (Field.rs1 w) (Field.rs2 w)
  | .divu => .divu (Field.rd w) (Field.rs1 w) (Field.rs2 w)
  | .rem => .rem (Field.rd w) (Field.rs1 w) (Field.rs2 w)
  | .remu => .remu (Field.rd w) (Field.rs1 w) (Field.rs2 w)
  | .mulw => .mulw (Field.rd w) (Field.rs1 w) (Field.rs2 w)
  | .divw => .divw (Field.rd w) (Field.rs1 w) (Field.rs2 w)
  | .divuw => .divuw (Field.rd w) (Field.rs1 w) (Field.rs2 w)
  | .remw => .remw (Field.rd w) (Field.rs1 w) (Field.rs2 w)
  | .remuw => .remuw (Field.rd w) (Field.rs1 w) (Field.rs2 w)
  | .fence => .fence (Field.immI w) (Field.rs1 w) (Field.rd w)
  | .fenceTso => .fenceTso (Field.rs1 w) (Field.rd w)
  | .pause => .pause
  | .ecall => .ecall
  | .ebreak => .ebreak
  | .csrrw => .csrrw (Field.rd w) (Field.csr w) (Field.rs1 w)
  | .csrrs => .csrrs (Field.rd w) (Field.csr w) (Field.rs1 w)
  | .csrrc => .csrrc (Field.rd w) (Field.csr w) (Field.rs1 w)
  | .csrrwi => .csrrwi (Field.rd w) (Field.csr w) (Field.uimm w)
  | .csrrsi => .csrrsi (Field.rd w) (Field.csr w) (Field.uimm w)
  | .csrrci => .csrrci (Field.rd w) (Field.csr w) (Field.uimm w)
  | .rdcycle => .rdcycle (Field.rd w)
  | .rdtime => .rdtime (Field.rd w)
  | .rdinstret => .rdinstret (Field.rd w)
  | .rdcycleh => .rdcycleh (Field.rd w)
  | .rdtimeh => .rdtimeh (Field.rd w)
  | .rdinstreth => .rdinstreth (Field.rd w)

/-- The decoder: total on all 2^32 words, `none` exactly for an illegal word (R94, R104). It reads nothing but the word (R91). -/
def decode (w : Insn) : Option Instr := (dispatch w).map (operands w)

/-! ### Bytes: an instruction is four bytes, the least significant at the lowest address (20_memory.md R52) -/

/-- Why a list of bytes is not an instruction. -/
inductive DecodeError where
  /-- Fewer than four bytes: every instruction is one 32-bit word (R80). -/
  | truncated
  /-- The word matches no dispatch entry (R94). -/
  | illegal (w : Insn)
  deriving DecidableEq, Repr

/-- The word that four bytes hold, lowest address first (R52). -/
def wordOfBytes (b0 b1 b2 b3 : Byte) : Insn :=
  put 24 b3 ||| put 16 b2 ||| put 8 b1 ||| put 0 b0

/-- The four bytes of a word, lowest address first (R52). -/
def bytesOfWord (w : Insn) : List Byte :=
  [w.extractLsb' 0 8, w.extractLsb' 8 8, w.extractLsb' 16 8, w.extractLsb' 24 8]

/-- Decoding from bytes: total, rejecting by name, and giving back the bytes that follow. -/
def decodeBytes : List Byte → Except DecodeError (Instr × List Byte)
  | b0 :: b1 :: b2 :: b3 :: rest =>
    match decode (wordOfBytes b0 b1 b2 b3) with
    | some i => .ok (i, rest)
    | none => .error (.illegal (wordOfBytes b0 b1 b2 b3))
  | _ => .error .truncated

/-- The host's port: the instruction that the decoder reads from the word whose bits are `w`, every bit from `nbits` up being 0. -/
def decodeTableWord (nbits w : Nat) : Option Instr :=
  match decodeBytes (bytesOfWord (BitVec.ofNat 32 (w % 2 ^ nbits))) with
  | .ok (i, _) => some i
  | .error _ => none

/-! ### The encoder, from the formats of R82, the inverse immediates of R90 and the opcode map of R96 to R102 -/

def encodeR (funct7 : BitVec 7) (rs2 rs1 : RegIdx) (funct3 : BitVec 3) (rd : RegIdx) (opcode : BitVec 7) : Insn :=
  put 25 funct7 ||| put 20 rs2 ||| put 15 rs1 ||| put 12 funct3 ||| put 7 rd ||| put 0 opcode

def encodeI (imm : BitVec 12) (rs1 : RegIdx) (funct3 : BitVec 3) (rd : RegIdx) (opcode : BitVec 7) : Insn :=
  put 20 imm ||| put 15 rs1 ||| put 12 funct3 ||| put 7 rd ||| put 0 opcode

def encodeShamt6 (funct6 : BitVec 6) (shamt : BitVec 6) (rs1 : RegIdx) (funct3 : BitVec 3) (rd : RegIdx) (opcode : BitVec 7) : Insn :=
  put 26 funct6 ||| put 20 shamt ||| put 15 rs1 ||| put 12 funct3 ||| put 7 rd ||| put 0 opcode

/-- R90, S: `insn[31:25] = m[11:5]`, `insn[11:7] = m[4:0]`. -/
def encodeS (m : BitVec 12) (rs2 rs1 : RegIdx) (funct3 : BitVec 3) (opcode : BitVec 7) : Insn :=
  put 25 (m.extractLsb' 5 7) ||| put 20 rs2 ||| put 15 rs1 ||| put 12 funct3 ||| put 7 (m.extractLsb' 0 5) ||| put 0 opcode

/-- R90, B, with `off = m[12:1]`: `insn[31] = m[12]`, `insn[30:25] = m[10:5]`, `insn[11:8] = m[4:1]`, `insn[7] = m[11]`. -/
def encodeB (off : BitVec 12) (rs2 rs1 : RegIdx) (funct3 : BitVec 3) (opcode : BitVec 7) : Insn :=
  put 31 (off.extractLsb' 11 1) ||| put 25 (off.extractLsb' 4 6) ||| put 20 rs2 ||| put 15 rs1 ||| put 12 funct3 |||
    put 8 (off.extractLsb' 0 4) ||| put 7 (off.extractLsb' 10 1) ||| put 0 opcode

/-- R90, U: `insn[31:12] = m[31:12]`. -/
def encodeU (field : BitVec 20) (rd : RegIdx) (opcode : BitVec 7) : Insn :=
  put 12 field ||| put 7 rd ||| put 0 opcode

/-- R90, J, with `off = m[20:1]`: `insn[31] = m[20]`, `insn[30:21] = m[10:1]`, `insn[20] = m[11]`, `insn[19:12] = m[19:12]`. -/
def encodeJ (off : BitVec 20) (rd : RegIdx) (opcode : BitVec 7) : Insn :=
  put 31 (off.extractLsb' 19 1) ||| put 21 (off.extractLsb' 0 10) ||| put 20 (off.extractLsb' 10 1) ||| put 12 (off.extractLsb' 11 8) |||
    put 7 rd ||| put 0 opcode

/-- The word of a well-formed instruction: opcode, funct3 and funct7 from R96 to R102, not from the masks of R95. -/
def encode : Instr → Insn
  | .lui rd field => encodeU field rd 0b0110111#7
  | .auipc rd field => encodeU field rd 0b0010111#7
  | .jal rd off => encodeJ off rd 0b1101111#7
  | .jalr rd rs1 imm => encodeI imm rs1 0b000#3 rd 0b1100111#7
  | .beq rs1 rs2 off => encodeB off rs2 rs1 0b000#3 0b1100011#7
  | .bne rs1 rs2 off => encodeB off rs2 rs1 0b001#3 0b1100011#7
  | .blt rs1 rs2 off => encodeB off rs2 rs1 0b100#3 0b1100011#7
  | .bge rs1 rs2 off => encodeB off rs2 rs1 0b101#3 0b1100011#7
  | .bltu rs1 rs2 off => encodeB off rs2 rs1 0b110#3 0b1100011#7
  | .bgeu rs1 rs2 off => encodeB off rs2 rs1 0b111#3 0b1100011#7
  | .lb rd rs1 imm => encodeI imm rs1 0b000#3 rd 0b0000011#7
  | .lh rd rs1 imm => encodeI imm rs1 0b001#3 rd 0b0000011#7
  | .lw rd rs1 imm => encodeI imm rs1 0b010#3 rd 0b0000011#7
  | .ld rd rs1 imm => encodeI imm rs1 0b011#3 rd 0b0000011#7
  | .lbu rd rs1 imm => encodeI imm rs1 0b100#3 rd 0b0000011#7
  | .lhu rd rs1 imm => encodeI imm rs1 0b101#3 rd 0b0000011#7
  | .lwu rd rs1 imm => encodeI imm rs1 0b110#3 rd 0b0000011#7
  | .sb rs2 rs1 imm => encodeS imm rs2 rs1 0b000#3 0b0100011#7
  | .sh rs2 rs1 imm => encodeS imm rs2 rs1 0b001#3 0b0100011#7
  | .sw rs2 rs1 imm => encodeS imm rs2 rs1 0b010#3 0b0100011#7
  | .sd rs2 rs1 imm => encodeS imm rs2 rs1 0b011#3 0b0100011#7
  | .addi rd rs1 imm => encodeI imm rs1 0b000#3 rd 0b0010011#7
  | .slti rd rs1 imm => encodeI imm rs1 0b010#3 rd 0b0010011#7
  | .sltiu rd rs1 imm => encodeI imm rs1 0b011#3 rd 0b0010011#7
  | .xori rd rs1 imm => encodeI imm rs1 0b100#3 rd 0b0010011#7
  | .ori rd rs1 imm => encodeI imm rs1 0b110#3 rd 0b0010011#7
  | .andi rd rs1 imm => encodeI imm rs1 0b111#3 rd 0b0010011#7
  | .slli rd rs1 shamt => encodeShamt6 0b000000#6 shamt rs1 0b001#3 rd 0b0010011#7
  | .srli rd rs1 shamt => encodeShamt6 0b000000#6 shamt rs1 0b101#3 rd 0b0010011#7
  | .srai rd rs1 shamt => encodeShamt6 0b010000#6 shamt rs1 0b101#3 rd 0b0010011#7
  | .add rd rs1 rs2 => encodeR 0b0000000#7 rs2 rs1 0b000#3 rd 0b0110011#7
  | .sub rd rs1 rs2 => encodeR 0b0100000#7 rs2 rs1 0b000#3 rd 0b0110011#7
  | .sll rd rs1 rs2 => encodeR 0b0000000#7 rs2 rs1 0b001#3 rd 0b0110011#7
  | .slt rd rs1 rs2 => encodeR 0b0000000#7 rs2 rs1 0b010#3 rd 0b0110011#7
  | .sltu rd rs1 rs2 => encodeR 0b0000000#7 rs2 rs1 0b011#3 rd 0b0110011#7
  | .xor rd rs1 rs2 => encodeR 0b0000000#7 rs2 rs1 0b100#3 rd 0b0110011#7
  | .srl rd rs1 rs2 => encodeR 0b0000000#7 rs2 rs1 0b101#3 rd 0b0110011#7
  | .sra rd rs1 rs2 => encodeR 0b0100000#7 rs2 rs1 0b101#3 rd 0b0110011#7
  | .or rd rs1 rs2 => encodeR 0b0000000#7 rs2 rs1 0b110#3 rd 0b0110011#7
  | .and rd rs1 rs2 => encodeR 0b0000000#7 rs2 rs1 0b111#3 rd 0b0110011#7
  | .addiw rd rs1 imm => encodeI imm rs1 0b000#3 rd 0b0011011#7
  | .slliw rd rs1 shamt => encodeR 0b0000000#7 shamt rs1 0b001#3 rd 0b0011011#7
  | .srliw rd rs1 shamt => encodeR 0b0000000#7 shamt rs1 0b101#3 rd 0b0011011#7
  | .sraiw rd rs1 shamt => encodeR 0b0100000#7 shamt rs1 0b101#3 rd 0b0011011#7
  | .addw rd rs1 rs2 => encodeR 0b0000000#7 rs2 rs1 0b000#3 rd 0b0111011#7
  | .subw rd rs1 rs2 => encodeR 0b0100000#7 rs2 rs1 0b000#3 rd 0b0111011#7
  | .sllw rd rs1 rs2 => encodeR 0b0000000#7 rs2 rs1 0b001#3 rd 0b0111011#7
  | .srlw rd rs1 rs2 => encodeR 0b0000000#7 rs2 rs1 0b101#3 rd 0b0111011#7
  | .sraw rd rs1 rs2 => encodeR 0b0100000#7 rs2 rs1 0b101#3 rd 0b0111011#7
  | .mul rd rs1 rs2 => encodeR 0b0000001#7 rs2 rs1 0b000#3 rd 0b0110011#7
  | .mulh rd rs1 rs2 => encodeR 0b0000001#7 rs2 rs1 0b001#3 rd 0b0110011#7
  | .mulhsu rd rs1 rs2 => encodeR 0b0000001#7 rs2 rs1 0b010#3 rd 0b0110011#7
  | .mulhu rd rs1 rs2 => encodeR 0b0000001#7 rs2 rs1 0b011#3 rd 0b0110011#7
  | .div rd rs1 rs2 => encodeR 0b0000001#7 rs2 rs1 0b100#3 rd 0b0110011#7
  | .divu rd rs1 rs2 => encodeR 0b0000001#7 rs2 rs1 0b101#3 rd 0b0110011#7
  | .rem rd rs1 rs2 => encodeR 0b0000001#7 rs2 rs1 0b110#3 rd 0b0110011#7
  | .remu rd rs1 rs2 => encodeR 0b0000001#7 rs2 rs1 0b111#3 rd 0b0110011#7
  | .mulw rd rs1 rs2 => encodeR 0b0000001#7 rs2 rs1 0b000#3 rd 0b0111011#7
  | .divw rd rs1 rs2 => encodeR 0b0000001#7 rs2 rs1 0b100#3 rd 0b0111011#7
  | .divuw rd rs1 rs2 => encodeR 0b0000001#7 rs2 rs1 0b101#3 rd 0b0111011#7
  | .remw rd rs1 rs2 => encodeR 0b0000001#7 rs2 rs1 0b110#3 rd 0b0111011#7
  | .remuw rd rs1 rs2 => encodeR 0b0000001#7 rs2 rs1 0b111#3 rd 0b0111011#7
  | .fence fields rs1 rd => encodeI fields rs1 0b000#3 rd 0b0001111#7
  | .fenceTso rs1 rd => encodeI fenceTsoFields rs1 0b000#3 rd 0b0001111#7
  | .pause => encodeI pauseFields 0#5 0b000#3 0#5 0b0001111#7
  | .ecall => encodeI 0x000#12 0#5 0b000#3 0#5 0b1110011#7
  | .ebreak => encodeI 0x001#12 0#5 0b000#3 0#5 0b1110011#7
  | .csrrw rd csr rs1 => encodeI csr rs1 0b001#3 rd 0b1110011#7
  | .csrrs rd csr rs1 => encodeI csr rs1 0b010#3 rd 0b1110011#7
  | .csrrc rd csr rs1 => encodeI csr rs1 0b011#3 rd 0b1110011#7
  | .csrrwi rd csr uimm => encodeI csr uimm 0b101#3 rd 0b1110011#7
  | .csrrsi rd csr uimm => encodeI csr uimm 0b110#3 rd 0b1110011#7
  | .csrrci rd csr uimm => encodeI csr uimm 0b111#3 rd 0b1110011#7
  | .rdcycle rd => encodeI 0xC00#12 0#5 0b010#3 rd 0b1110011#7
  | .rdtime rd => encodeI 0xC01#12 0#5 0b010#3 rd 0b1110011#7
  | .rdinstret rd => encodeI 0xC02#12 0#5 0b010#3 rd 0b1110011#7
  | .rdcycleh rd => encodeI 0xC80#12 0#5 0b010#3 rd 0b1110011#7
  | .rdtimeh rd => encodeI 0xC81#12 0#5 0b010#3 rd 0b1110011#7
  | .rdinstreth rd => encodeI 0xC82#12 0#5 0b010#3 rd 0b1110011#7

/-- The bytes of a well-formed instruction as memory holds them. -/
def encodeBytes (i : Instr) : List Byte := bytesOfWord (encode i)

end Sys2Proof
end

