-- ==== Sys2Proof/Machine/Fetch.lean ====
section
/-! DEFINITION. Fetching an instruction word: spec/40_execution_loop.md R121, in both fetch modes. -/

namespace Sys2Proof.Machine

/-- What a fetch gives. -/
inductive Fetched where
  | word (w : Insn)
  /-- In `Buffer` mode no word stands at `pc`: not a fault (R30). -/
  | exhausted
  | raised (e : Exc)
  deriving DecidableEq, Repr

/-- The fault of a fetch: `MemoryAccess(fetch, pc, 4, pc)` (R121, R272). -/
def fetchFault (pc : Word) : Exc := .memoryAccess .fetch pc 4 pc

/-- `(pc - MEM_BASE) >>u 2`: the index in `PROGRAM`, `pc[1:0]` dropped (R121, decision D8). -/
def bufferIndex (p : Params) (pc : Word) : Nat := ((pc - p.memBase) >>> 2).toNat

/-- R121. -/
def fetch (s : State) : Fetched :=
  match s.params.fetchMode with
  | .memory =>
    match s.memRead s.pc .word with
    | some v => .word (v.setWidth 32)
    | none => .raised (fetchFault s.pc)
  | .buffer program =>
    if s.pc.toNat < s.params.memBase.toNat then .raised (fetchFault s.pc)
    else
      match program[bufferIndex s.params s.pc]? with
      | some w => .word w
      | none => .exhausted

/-- A program whose word at `k` is `w`; words that were missing before `k` are zero. -/
def placeInProgram (program : List Insn) (k : Nat) (w : Insn) : List Insn :=
  if k < program.length then program.set k w
  else program ++ List.replicate (k - program.length) 0#32 ++ [w]

/-- Puts a word where `fetch` finds the next one: in `Memory` mode the loader's write of its four bytes at `pc`, in `Buffer` mode the
word of `PROGRAM` that `pc` points at. It moves neither `pc` nor `status`, so where `pc` is a place no word can be fetched from (unmapped,
or below `MEM_BASE`) nothing is fetched there afterwards either (log 8). DESIGN CHOICE, unsafe: after a later `resetInput` a word placed in `mem` is gone and
a word placed in `PROGRAM` stands (log 31). -/
def placeWord (s : State) (w : Insn) : State :=
  match s.params.fetchMode with
  | .memory => s.loadBytes s.pc.toNat (bytesOfWord w)
  | .buffer program =>
    { s with params := { s.params with fetchMode := .buffer (placeInProgram program (bufferIndex s.params s.pc) w) } }

end Sys2Proof.Machine
end

