-- ==== Sys2Proof/Machine/Step.lean ====
section
/-! DEFINITION. One step: spec/40_execution_loop.md R120, R129. -/

namespace Sys2Proof.Machine

/-- Fetch, Decode, Execute, Commit (R120). A refused configuration has no step (U16, log 10), a stopped machine has none (R120, U19,
log 9); otherwise the step answers a next state: the executed one, or the same state `Exhausted` or `Faulted` (R129). -/
def step (s : State) : Host.Outcome State Fault Refusal :=
  if accepted s.params = false then .refused .badConfiguration
  else if s.status ≠ .running then .fault (.stopped s.status)
  else
    match fetch s with
    | .exhausted => .next (s.setStatus .exhausted)
    | .raised e => .next (s.raise e)
    | .word w =>
      match decode w with
      | none => .next (s.raise (.illegalInstruction w s.pc))
      | some i => exec i s

/-- The host's port: the word whose bits are `w`, every bit from `nbits` up being 0, placed where the next fetch finds it. -/
def State.withFetchWord (s : State) (nbits w : Nat) : State := placeWord s (BitVec.ofNat 32 (w % 2 ^ nbits))

end Sys2Proof.Machine
end

