-- ==== Sys2Proof/Machine/Run.lean ====
section
/-! DEFINITION. The run (spec/40_execution_loop.md R130, R131) and the introspection port (spec/10_state.md R34). -/

namespace Sys2Proof.Machine

/-- R130 under a `STEP_LIMIT` (R131): while `Running`, take a step, at most `k` of them. Reaching the limit leaves `status = Running`. -/
def runFor : Nat → State → State
  | 0, s => s
  | k + 1, s =>
    match step s with
    | .next t => runFor k t
    | .fault _ => s
    | .refused _ => s

/-- R130, R310: a run is finished when the machine is no longer `Running`. -/
def State.finished (s : State) : Bool := decide (s.status ≠ .running)

/-- What the host may select at the introspection port (R34). -/
inductive Selector where
  | x (i : RegIdx)
  | csr (c : CsrIdx)
  | pc
  deriving DecidableEq, Repr

/-- The introspection port: it reads, changes nothing, and exposes neither `f`, `priv`, `status` nor memory (R34). -/
def observe (s : State) : Selector → Word
  | .x i => s.readReg i
  | .csr c => s.readCsr c
  | .pc => s.pc

end Sys2Proof.Machine
end

