-- ==== Sys2Proof/Safety.lean ====
section
/-! DEFINITION. The terms that statements about the machine are written in: the invariant of its states, what an instruction changes and
leaves alone, the specification's own arithmetic on integers, and the tables of spec/40_execution_loop.md R124 and R129. -/

namespace Sys2Proof.Machine

/-! ### The invariant -/

/-- What every state of a run satisfies: accepted parameters (U16), memory in its one form with mapped addresses only (20_memory.md
R50), CSR cells in their one form with numbers 0 to 4095 only (10_state.md R26). -/
def State.wf (s : State) : Prop :=
  accepted s.params = true ∧ Memory.wf s.mem = true ∧ (∀ c ∈ s.mem, mapped s.params c.1 = true) ∧
    Sparse.canonical s.csr = true ∧ (∀ c ∈ s.csr, c.1 < 4096)

/-! ### What a step leaves alone -/

def SameRegisters (s t : State) : Prop := ∀ r : RegIdx, t.readReg r = s.readReg r

def SameCsrs (s t : State) : Prop := ∀ c : CsrIdx, t.readCsr c = s.readCsr c

/-- Every byte reads as before. -/
def SameMemory (s t : State) : Prop := ∀ a : Nat, t.readByte a = s.readByte a

/-- The rest of the state: the floating registers, the privilege level, the status, the parameters. -/
def SameElsewhere (s t : State) : Prop := t.f = s.f ∧ t.priv = s.priv ∧ t.status = s.status ∧ t.params = s.params

/-- `pc <- next` and nothing else. -/
def GoesOnly (s t : State) (next : Word) : Prop :=
  t.pc = next ∧ SameRegisters s t ∧ SameCsrs s t ∧ SameMemory s t ∧ SameElsewhere s t

/-- `x[rd] <- v`, `pc <- next` and nothing else; with `rd = 0` no register changes (10_state.md R22, R23). -/
def WritesOnly (s t : State) (rd : RegIdx) (v next : Word) : Prop :=
  t.pc = next ∧ (∀ r : RegIdx, t.readReg r = if r = rd ∧ rd ≠ 0#5 then v else s.readReg r) ∧
    SameCsrs s t ∧ SameMemory s t ∧ SameElsewhere s t

/-- `x[rd] <- csr[c]`, `csr[c] <- new`, `pc <- pc + 4` and nothing else; with `rd = 0` no register changes (45_csr.md R240). -/
def SwapsCsrOnly (s t : State) (rd : RegIdx) (c : CsrIdx) (new : Word) : Prop :=
  t.pc = s.pc + 4#64 ∧ (∀ r : RegIdx, t.readReg r = if r = rd ∧ rd ≠ 0#5 then s.readCsr c else s.readReg r) ∧
    (∀ k : CsrIdx, t.readCsr k = if k = c then new else s.readCsr k) ∧ SameMemory s t ∧ SameElsewhere s t

/-- The `n` bytes from `ea` receive the low bytes of `v`, the lowest first, `pc <- pc + 4` and nothing else (43_load_store.md R213). -/
def StoresOnly (s t : State) (ea : Word) (n : Nat) (v : Word) : Prop :=
  t.pc = s.pc + 4#64 ∧ (∀ k : Nat, k < n → t.readByte (ea.toNat + k) = v.extractLsb' (8 * k) 8) ∧
    (∀ a : Nat, a < ea.toNat ∨ ea.toNat + n ≤ a → t.readByte a = s.readByte a) ∧
    SameRegisters s t ∧ SameCsrs s t ∧ SameElsewhere s t

/-! ### Memory, in unbounded integers -/

/-- 20_memory.md R55: `MEM_BASE <= addr` and `addr + n <= MEM_TOP`. -/
def AllMapped (s : State) (addr : Word) (n : Nat) : Prop :=
  s.params.memBase.toNat ≤ addr.toNat ∧ addr.toNat + n ≤ s.params.memBase.toNat + s.params.memSize

/-- 20_memory.md R52: the value of the `n` bytes from `a`, the byte at `a` lowest. -/
def littleEndian (s : State) (a : Nat) : Nat → Nat
  | 0 => 0
  | n + 1 => (s.readByte a).toNat + 256 * littleEndian s (a + 1) n

/-- The rule of a load of `n` bytes from `ea` (43_load_store.md R201 to R207): `x[rd] <- v`, or the fault. -/
def LoadRule (i : Instr) (s : State) (rd : RegIdx) (ea : Word) (n : Nat) (v : Word) : Prop :=
  (AllMapped s ea n → ∃ t, exec i s = .next t ∧ WritesOnly s t rd v (s.pc + 4#64)) ∧
    (¬ AllMapped s ea n → ∃ t, exec i s = .next t ∧ t.status = .faulted (.memoryAccess .load ea n s.pc))

/-- The rule of a store of the low `n` bytes of `v` at `ea` (43_load_store.md R208 to R211): the bytes are stored, or the fault is raised
and no byte is written (R209, R210). -/
def StoreRule (i : Instr) (s : State) (ea : Word) (n : Nat) (v : Word) : Prop :=
  (AllMapped s ea n → ∃ t, exec i s = .next t ∧ StoresOnly s t ea n v) ∧
    (¬ AllMapped s ea n → ∃ t, exec i s = .next t ∧ t.status = .faulted (.memoryAccess .store ea n s.pc) ∧ SameMemory s t)

/-! ### 32-bit readings (41_integer_alu.md R169) -/

/-- `signed(v[31:0])`. -/
def low32S (v : Word) : Int := v.toInt.bmod (2 ^ 32)

/-- `unsigned(v[31:0])`. -/
def low32U (v : Word) : Nat := v.toNat % 2 ^ 32

/-- `sext_32` of the low 32 bits of an integer. -/
def sext32 (i : Int) : Word := BitVec.ofInt 64 (i.bmod (2 ^ 32))

/-- The destination of the instructions that compute on 32 bits and sign-extend (00_scope.md R12, "W-suffix instruction"). -/
def wFormDest : Instr → Option RegIdx
  | .addiw rd _ _ | .slliw rd _ _ | .srliw rd _ _ | .sraiw rd _ _ | .addw rd _ _ | .subw rd _ _ | .sllw rd _ _ | .srlw rd _ _
  | .sraw rd _ _ | .mulw rd _ _ | .divw rd _ _ | .divuw rd _ _ | .remw rd _ _ | .remuw rd _ _ => some rd
  | _ => none

/-! ### Division (42_muldiv.md R185 to R194) -/

/-- `q` and `r` are the signed quotient and remainder of `a` by `b`, with the first two rows of R194. -/
def IsSignedDivision {n : Nat} (a b q r : BitVec n) : Prop :=
  (b = 0#n → q = BitVec.allOnes n ∧ r = a) ∧
    (a = BitVec.intMin n → b = BitVec.allOnes n → q = a ∧ r = 0#n) ∧
    (b ≠ 0#n → ¬ (a = BitVec.intMin n ∧ b = BitVec.allOnes n) →
      a.toInt = b.toInt * q.toInt + r.toInt ∧ r.toInt.natAbs < b.toInt.natAbs ∧
        (0 ≤ a.toInt → 0 ≤ r.toInt) ∧ (a.toInt ≤ 0 → r.toInt ≤ 0)) ∧
    (b ≠ 0#n → a = b * q + r)

/-- `q` and `r` are the unsigned quotient and remainder of `a` by `b`, with the first row of R194. -/
def IsUnsignedDivision {n : Nat} (a b q r : BitVec n) : Prop :=
  (b = 0#n → q = BitVec.allOnes n ∧ r = a) ∧
    (b ≠ 0#n → a.toNat = b.toNat * q.toNat + r.toNat ∧ r.toNat < b.toNat ∧ a = b * q + r)

/-! ### Which words are an instruction: the "Encoding" line of its rule, in the fields of 30_encoding.md R81 and R82 -/

def EncodedR (opcode : BitVec 7) (funct3 : BitVec 3) (funct7 : BitVec 7) (make : RegIdx → RegIdx → RegIdx → Instr) : Prop :=
  ∀ w : Insn, Field.opcode w = opcode → Field.funct3 w = funct3 → Field.funct7 w = funct7 →
    decode w = some (make (Field.rd w) (Field.rs1 w) (Field.rs2 w))

def EncodedI (opcode : BitVec 7) (funct3 : BitVec 3) (make : RegIdx → RegIdx → BitVec 12 → Instr) : Prop :=
  ∀ w : Insn, Field.opcode w = opcode → Field.funct3 w = funct3 →
    decode w = some (make (Field.rd w) (Field.rs1 w) (Field.immI w))

def EncodedShamt6 (funct3 : BitVec 3) (funct6 : BitVec 6) (make : RegIdx → RegIdx → BitVec 6 → Instr) : Prop :=
  ∀ w : Insn, Field.opcode w = 0b0010011#7 → Field.funct3 w = funct3 → Field.funct6 w = funct6 →
    decode w = some (make (Field.rd w) (Field.rs1 w) (Field.shamt6 w))

def EncodedShamt5 (funct3 : BitVec 3) (funct7 : BitVec 7) (make : RegIdx → RegIdx → BitVec 5 → Instr) : Prop :=
  ∀ w : Insn, Field.opcode w = 0b0011011#7 → Field.funct3 w = funct3 → Field.funct7 w = funct7 →
    decode w = some (make (Field.rd w) (Field.rs1 w) (Field.shamt5 w))

def EncodedS (funct3 : BitVec 3) (make : RegIdx → RegIdx → BitVec 12 → Instr) : Prop :=
  ∀ w : Insn, Field.opcode w = 0b0100011#7 → Field.funct3 w = funct3 →
    decode w = some (make (Field.rs2 w) (Field.rs1 w) (Field.immS w))

def EncodedB (funct3 : BitVec 3) (make : RegIdx → RegIdx → BitVec 12 → Instr) : Prop :=
  ∀ w : Insn, Field.opcode w = 0b1100011#7 → Field.funct3 w = funct3 →
    decode w = some (make (Field.rs1 w) (Field.rs2 w) (Field.offB w))

def EncodedU (opcode : BitVec 7) (make : RegIdx → BitVec 20 → Instr) : Prop :=
  ∀ w : Insn, Field.opcode w = opcode → decode w = some (make (Field.rd w) (Field.immU w))

def EncodedCsr (funct3 : BitVec 3) (make : RegIdx → CsrIdx → BitVec 5 → Instr) : Prop :=
  ∀ w : Insn, Field.opcode w = 0b1110011#7 → Field.funct3 w = funct3 →
    ¬ (funct3 = 0b010#3 ∧ Field.rs1 w = 0#5 ∧ Field.csr w ∈ counterCsrs) →
    decode w = some (make (Field.rd w) (Field.csr w) (Field.rs1 w))

/-! ### What an instruction may touch (10_state.md R20, 40_execution_loop.md R123) -/

/-- The register that an instruction writes, if it writes one: branches, stores and the instructions of 46_system.md write none. -/
def destOf : Instr → Option RegIdx
  | .lui rd _ | .auipc rd _ | .jal rd _ | .jalr rd _ _ => some rd
  | .lb rd _ _ | .lh rd _ _ | .lw rd _ _ | .ld rd _ _ | .lbu rd _ _ | .lhu rd _ _ | .lwu rd _ _ => some rd
  | .addi rd _ _ | .slti rd _ _ | .sltiu rd _ _ | .xori rd _ _ | .ori rd _ _ | .andi rd _ _ => some rd
  | .slli rd _ _ | .srli rd _ _ | .srai rd _ _ => some rd
  | .add rd _ _ | .sub rd _ _ | .sll rd _ _ | .slt rd _ _ | .sltu rd _ _ => some rd
  | .xor rd _ _ | .srl rd _ _ | .sra rd _ _ | .or rd _ _ | .and rd _ _ => some rd
  | .addiw rd _ _ | .slliw rd _ _ | .srliw rd _ _ | .sraiw rd _ _ => some rd
  | .addw rd _ _ | .subw rd _ _ | .sllw rd _ _ | .srlw rd _ _ | .sraw rd _ _ => some rd
  | .mul rd _ _ | .mulh rd _ _ | .mulhsu rd _ _ | .mulhu rd _ _ => some rd
  | .div rd _ _ | .divu rd _ _ | .rem rd _ _ | .remu rd _ _ => some rd
  | .mulw rd _ _ | .divw rd _ _ | .divuw rd _ _ | .remw rd _ _ | .remuw rd _ _ => some rd
  | .csrrw rd _ _ | .csrrs rd _ _ | .csrrc rd _ _ | .csrrwi rd _ _ | .csrrsi rd _ _ | .csrrci rd _ _ => some rd
  | _ => none

/-- The CSR that an instruction reads and may write. -/
def csrOf : Instr → Option CsrIdx
  | .csrrw _ c _ | .csrrs _ c _ | .csrrc _ c _ | .csrrwi _ c _ | .csrrsi _ c _ | .csrrci _ c _ => some c
  | _ => none

/-- The memory access of an instruction: its kind, its effective address and its width (43_load_store.md R200, 20_memory.md R57). -/
def accessOf (s : State) : Instr → Option (AccessKind × Word × Nat)
  | .lb _ rs1 imm | .lbu _ rs1 imm => some (.load, effective (s.readReg rs1) (immI imm), 1)
  | .lh _ rs1 imm | .lhu _ rs1 imm => some (.load, effective (s.readReg rs1) (immI imm), 2)
  | .lw _ rs1 imm | .lwu _ rs1 imm => some (.load, effective (s.readReg rs1) (immI imm), 4)
  | .ld _ rs1 imm => some (.load, effective (s.readReg rs1) (immI imm), 8)
  | .sb _ rs1 imm => some (.store, effective (s.readReg rs1) (immS imm), 1)
  | .sh _ rs1 imm => some (.store, effective (s.readReg rs1) (immS imm), 2)
  | .sw _ rs1 imm => some (.store, effective (s.readReg rs1) (immS imm), 4)
  | .sd _ rs1 imm => some (.store, effective (s.readReg rs1) (immS imm), 8)
  | _ => none

/-! ### The tables of the sequencer -/

/-- The condition of a branch (44_control_transfer.md R221 to R226) and its offset. -/
def branchOf (s : State) : Instr → Option (Prop × BitVec 12)
  | .beq rs1 rs2 off => some (s.readReg rs1 = s.readReg rs2, off)
  | .bne rs1 rs2 off => some (s.readReg rs1 ≠ s.readReg rs2, off)
  | .blt rs1 rs2 off => some ((s.readReg rs1).toInt < (s.readReg rs2).toInt, off)
  | .bge rs1 rs2 off => some ((s.readReg rs2).toInt ≤ (s.readReg rs1).toInt, off)
  | .bltu rs1 rs2 off => some ((s.readReg rs1).toNat < (s.readReg rs2).toNat, off)
  | .bgeu rs1 rs2 off => some ((s.readReg rs2).toNat ≤ (s.readReg rs1).toNat, off)
  | _ => none

/-- The next pc of an instruction that raises nothing (40_execution_loop.md R124); offsets are in integers, twice the bits that the
instruction holds. The `jalr` row is decision D13 (log 19). -/
def NextPc (i : Instr) (s : State) (next : Word) : Prop :=
  match branchOf s i with
  | some (taken, off) => (taken → next = s.pc + BitVec.ofInt 64 (2 * off.toInt)) ∧ (¬ taken → next = s.pc + 4#64)
  | none =>
    match i with
    | .jal _ off => next = s.pc + BitVec.ofInt 64 (2 * off.toInt)
    | .jalr _ rs1 imm =>
      next.getLsbD 0 = false ∧
        ∀ k : Nat, 0 < k → next.getLsbD k = (s.readReg rs1 + BitVec.ofInt 64 imm.toInt).getLsbD k
    | _ => next = s.pc + 4#64

/-- What a fetch finds at `pc` (40_execution_loop.md R121). -/
inductive FetchFinds (s : State) : Fetched → Prop where
  /-- `Memory` mode, the four bytes mapped: their little-endian value. -/
  | memWord (w : Insn) (hm : s.params.fetchMode = .memory) (ha : AllMapped s s.pc 4) (hw : w.toNat = littleEndian s s.pc.toNat 4) :
      FetchFinds s (.word w)
  | memFault (hm : s.params.fetchMode = .memory) (ha : ¬ AllMapped s s.pc 4) :
      FetchFinds s (.raised (.memoryAccess .fetch s.pc 4 s.pc))
  | bufFault (program : List Insn) (hm : s.params.fetchMode = .buffer program) (hp : s.pc.toNat < s.params.memBase.toNat) :
      FetchFinds s (.raised (.memoryAccess .fetch s.pc 4 s.pc))
  | bufWord (program : List Insn) (w : Insn) (hm : s.params.fetchMode = .buffer program) (hp : s.params.memBase.toNat ≤ s.pc.toNat)
      (hw : program[(s.pc.toNat - s.params.memBase.toNat) / 4]? = some w) : FetchFinds s (.word w)
  | bufEnd (program : List Insn) (hm : s.params.fetchMode = .buffer program) (hp : s.params.memBase.toNat ≤ s.pc.toNat)
      (hn : program.length ≤ (s.pc.toNat - s.params.memBase.toNat) / 4) : FetchFinds s .exhausted

/-- `x[10]` to `x[17]`, in that order (46_system.md R251). -/
def ArgumentsAre (s : State) (a : Vector Word 8) : Prop :=
  ∀ k : Fin 8, a[k] = s.readReg (BitVec.ofNat 5 (10 + k))

/-- The outcome that the execute and commit stages give an instruction (40_execution_loop.md R129). -/
inductive ExecuteGives (i : Instr) (s : State) : State → Prop where
  | accessFault (kind : AccessKind) (ea : Word) (n : Nat) (ha : accessOf s i = some (kind, ea, n)) (hm : ¬ AllMapped s ea n) (t : State)
      (ht : t = s.setStatus (.faulted (.memoryAccess kind ea n s.pc))) : ExecuteGives i s t
  | envCall (a : Vector Word 8) (hi : i = .ecall) (ha : ArgumentsAre s a) (t : State)
      (ht : t = s.setStatus (.faulted (.environmentCall s.priv a s.pc))) : ExecuteGives i s t
  | commits (t : State) (hi : i ≠ .ecall) (hm : ∀ kind ea n, accessOf s i = some (kind, ea, n) → AllMapped s ea n)
      (ht : t.status = .running) : ExecuteGives i s t

/-- The outcome of a step of a running machine, stage by stage (40_execution_loop.md R129). -/
inductive StepGives (s : State) : State → Prop where
  | fetchFault (e : Exc) (hf : FetchFinds s (.raised e)) (t : State) (ht : t = s.setStatus (.faulted e)) : StepGives s t
  | exhausted (hf : FetchFinds s .exhausted) (t : State) (ht : t = s.setStatus .exhausted) : StepGives s t
  | illegal (w : Insn) (hf : FetchFinds s (.word w)) (hd : decode w = none) (t : State)
      (ht : t = s.setStatus (.faulted (.illegalInstruction w s.pc))) : StepGives s t
  | executes (w : Insn) (i : Instr) (hf : FetchFinds s (.word w)) (hd : decode w = some i) (t : State) (ht : ExecuteGives i s t) :
      StepGives s t

/-! ### Faults -/

/-- The pc that every fault carries (60_exceptions.md R270). -/
def Exc.pc : Exc → Word
  | .illegalInstruction _ pc => pc
  | .memoryAccess _ _ _ pc => pc
  | .environmentCall _ _ pc => pc

/-- The same status with another privilege level in the payload of an environment call. -/
def Status.relabel (p : Priv) : Status → Status
  | .faulted (.environmentCall _ a pc) => .faulted (.environmentCall p a pc)
  | st => st

/-! ### Reset -/

/-- The value that a list of (key, value) pairs gives a key: that of its last pair, 0 where it has none (00_scope.md R5). -/
def lastValue {n : Nat} (ws : List (Nat × BitVec n)) (k : Nat) : BitVec n :=
  match ws.reverse.find? fun c => c.1 == k with
  | some c => c.2
  | none => 0#n

end Sys2Proof.Machine
end

