-- ==== Sys2Proof/Certificates/Slice0/Obligations.lean ====
section
/-! DEFINITION. The statements for the provers. Each says what the machine does by a rule of spec/ or by a decision the spec records; a
docstring names the log entry where a statement rests on one. The numbers in every `Encoded…` clause are the spec's, borrowed from the
public RISC-V encodings (decision D20, log 12). `exec` does not read `status` (log 11), so the statements about it hold for every status. -/

open Sys2Proof Sys2Proof.Machine

/-! ## Integer arithmetic, logic, shifts and comparisons (spec/41_integer_alu.md) -/

/-- R141, R150, R151: the words of `addi`, `add` and `sub`, and their results modulo 2^64 from the signed readings. -/
def Obligations.AddAndSubtract : Prop :=
  EncodedI 0b0010011#7 0b000#3 .addi ∧ EncodedR 0b0110011#7 0b000#3 0b0000000#7 .add ∧
  EncodedR 0b0110011#7 0b000#3 0b0100000#7 .sub ∧
  ∀ (s : State) (rd rs1 rs2 : RegIdx) (imm : BitVec 12),
    (∃ t, exec (.addi rd rs1 imm) s = .next t ∧
      WritesOnly s t rd (BitVec.ofInt 64 ((s.readReg rs1).toInt + imm.toInt)) (s.pc + 4#64)) ∧
    (∃ t, exec (.add rd rs1 rs2) s = .next t ∧
      WritesOnly s t rd (BitVec.ofInt 64 ((s.readReg rs1).toInt + (s.readReg rs2).toInt)) (s.pc + 4#64)) ∧
    (∃ t, exec (.sub rd rs1 rs2) s = .next t ∧
      WritesOnly s t rd (BitVec.ofInt 64 ((s.readReg rs1).toInt - (s.readReg rs2).toInt)) (s.pc + 4#64))

/-- R142, R143, R153, R154: the four comparisons compare register values (never numbers) and give 0 or 1. -/
def Obligations.SetLessThan : Prop :=
  EncodedI 0b0010011#7 0b010#3 .slti ∧ EncodedI 0b0010011#7 0b011#3 .sltiu ∧
  EncodedR 0b0110011#7 0b010#3 0b0000000#7 .slt ∧ EncodedR 0b0110011#7 0b011#3 0b0000000#7 .sltu ∧
  ∀ (s : State) (rd rs1 rs2 : RegIdx) (imm : BitVec 12),
    (∃ t, exec (.slti rd rs1 imm) s = .next t ∧
      WritesOnly s t rd (if (s.readReg rs1).toInt < imm.toInt then 1#64 else 0#64) (s.pc + 4#64)) ∧
    (∃ t, exec (.sltiu rd rs1 imm) s = .next t ∧
      WritesOnly s t rd (if (s.readReg rs1).toNat < (BitVec.ofInt 64 imm.toInt).toNat then 1#64 else 0#64) (s.pc + 4#64)) ∧
    (∃ t, exec (.slt rd rs1 rs2) s = .next t ∧
      WritesOnly s t rd (if (s.readReg rs1).toInt < (s.readReg rs2).toInt then 1#64 else 0#64) (s.pc + 4#64)) ∧
    (∃ t, exec (.sltu rd rs1 rs2) s = .next t ∧
      WritesOnly s t rd (if (s.readReg rs1).toNat < (s.readReg rs2).toNat then 1#64 else 0#64) (s.pc + 4#64))

/-- The six logic instructions, bit by bit; bit `k` of the extended immediate is its bit `min k 11`. That the six exist is decision D4. -/
def Obligations.BitwiseLogic : Prop :=
  EncodedI 0b0010011#7 0b100#3 .xori ∧ EncodedI 0b0010011#7 0b110#3 .ori ∧ EncodedI 0b0010011#7 0b111#3 .andi ∧
  EncodedR 0b0110011#7 0b100#3 0b0000000#7 .xor ∧ EncodedR 0b0110011#7 0b110#3 0b0000000#7 .or ∧
  EncodedR 0b0110011#7 0b111#3 0b0000000#7 .and ∧
  ∀ (s : State) (rd rs1 rs2 : RegIdx) (imm : BitVec 12),
    (∃ t v, exec (.xori rd rs1 imm) s = .next t ∧ WritesOnly s t rd v (s.pc + 4#64) ∧
      ∀ k, k < 64 → v.getLsbD k = xor ((s.readReg rs1).getLsbD k) (imm.getLsbD (min k 11))) ∧
    (∃ t v, exec (.ori rd rs1 imm) s = .next t ∧ WritesOnly s t rd v (s.pc + 4#64) ∧
      ∀ k, k < 64 → v.getLsbD k = ((s.readReg rs1).getLsbD k || imm.getLsbD (min k 11))) ∧
    (∃ t v, exec (.andi rd rs1 imm) s = .next t ∧ WritesOnly s t rd v (s.pc + 4#64) ∧
      ∀ k, k < 64 → v.getLsbD k = ((s.readReg rs1).getLsbD k && imm.getLsbD (min k 11))) ∧
    (∃ t v, exec (.xor rd rs1 rs2) s = .next t ∧ WritesOnly s t rd v (s.pc + 4#64) ∧
      ∀ k, k < 64 → v.getLsbD k = xor ((s.readReg rs1).getLsbD k) ((s.readReg rs2).getLsbD k)) ∧
    (∃ t v, exec (.or rd rs1 rs2) s = .next t ∧ WritesOnly s t rd v (s.pc + 4#64) ∧
      ∀ k, k < 64 → v.getLsbD k = ((s.readReg rs1).getLsbD k || (s.readReg rs2).getLsbD k)) ∧
    (∃ t v, exec (.and rd rs1 rs2) s = .next t ∧ WritesOnly s t rd v (s.pc + 4#64) ∧
      ∀ k, k < 64 → v.getLsbD k = ((s.readReg rs1).getLsbD k && (s.readReg rs2).getLsbD k))

/-- The four logical shifts on 64 bits as a product and a floor quotient by a power of two, the amount of a register form being
`x[rs2]` modulo 64. That the four exist is decision D4. -/
def Obligations.LogicalShifts : Prop :=
  EncodedShamt6 0b001#3 0b000000#6 .slli ∧ EncodedShamt6 0b101#3 0b000000#6 .srli ∧
  EncodedR 0b0110011#7 0b001#3 0b0000000#7 .sll ∧ EncodedR 0b0110011#7 0b101#3 0b0000000#7 .srl ∧
  ∀ (s : State) (rd rs1 rs2 : RegIdx) (shamt : BitVec 6),
    (∃ t, exec (.slli rd rs1 shamt) s = .next t ∧
      WritesOnly s t rd (BitVec.ofNat 64 ((s.readReg rs1).toNat * 2 ^ shamt.toNat)) (s.pc + 4#64)) ∧
    (∃ t, exec (.srli rd rs1 shamt) s = .next t ∧
      WritesOnly s t rd (BitVec.ofNat 64 ((s.readReg rs1).toNat / 2 ^ shamt.toNat)) (s.pc + 4#64)) ∧
    (∃ t, exec (.sll rd rs1 rs2) s = .next t ∧
      WritesOnly s t rd (BitVec.ofNat 64 ((s.readReg rs1).toNat * 2 ^ ((s.readReg rs2).toNat % 64))) (s.pc + 4#64)) ∧
    (∃ t, exec (.srl rd rs1 rs2) s = .next t ∧
      WritesOnly s t rd (BitVec.ofNat 64 ((s.readReg rs1).toNat / 2 ^ ((s.readReg rs2).toNat % 64))) (s.pc + 4#64))

/-- R149, R157: `srai` and `sra` are `floor(signed(x[rs1]) / 2^amount)`. -/
def Obligations.ArithmeticShifts : Prop :=
  EncodedShamt6 0b101#3 0b010000#6 .srai ∧ EncodedR 0b0110011#7 0b101#3 0b0100000#7 .sra ∧
  ∀ (s : State) (rd rs1 rs2 : RegIdx) (shamt : BitVec 6),
    (∃ t, exec (.srai rd rs1 shamt) s = .next t ∧
      WritesOnly s t rd (BitVec.ofInt 64 ((s.readReg rs1).toInt.fdiv (2 ^ shamt.toNat))) (s.pc + 4#64)) ∧
    (∃ t, exec (.sra rd rs1 rs2) s = .next t ∧
      WritesOnly s t rd (BitVec.ofInt 64 ((s.readReg rs1).toInt.fdiv (2 ^ ((s.readReg rs2).toNat % 64)))) (s.pc + 4#64))

/-- R164, R165: `addw` and `subw`. -/
def Obligations.WordAddAndSubtract : Prop :=
  EncodedR 0b0111011#7 0b000#3 0b0000000#7 .addw ∧ EncodedR 0b0111011#7 0b000#3 0b0100000#7 .subw ∧
  ∀ (s : State) (rd rs1 rs2 : RegIdx),
    (∃ t, exec (.addw rd rs1 rs2) s = .next t ∧
      WritesOnly s t rd (sext32 ((s.readReg rs1).toInt + (s.readReg rs2).toInt)) (s.pc + 4#64)) ∧
    (∃ t, exec (.subw rd rs1 rs2) s = .next t ∧
      WritesOnly s t rd (sext32 ((s.readReg rs1).toInt - (s.readReg rs2).toInt)) (s.pc + 4#64))

/-- R166, R167, R168: the 32-bit register shifts, the amount being `x[rs2]` modulo 32. -/
def Obligations.WordRegisterShifts : Prop :=
  EncodedR 0b0111011#7 0b001#3 0b0000000#7 .sllw ∧ EncodedR 0b0111011#7 0b101#3 0b0000000#7 .srlw ∧
  EncodedR 0b0111011#7 0b101#3 0b0100000#7 .sraw ∧
  ∀ (s : State) (rd rs1 rs2 : RegIdx),
    (∃ t, exec (.sllw rd rs1 rs2) s = .next t ∧
      WritesOnly s t rd (sext32 (low32U (s.readReg rs1) * 2 ^ ((s.readReg rs2).toNat % 32))) (s.pc + 4#64)) ∧
    (∃ t, exec (.srlw rd rs1 rs2) s = .next t ∧
      WritesOnly s t rd (sext32 (low32U (s.readReg rs1) / 2 ^ ((s.readReg rs2).toNat % 32) : Nat)) (s.pc + 4#64)) ∧
    (∃ t, exec (.sraw rd rs1 rs2) s = .next t ∧
      WritesOnly s t rd (sext32 ((low32S (s.readReg rs1)).fdiv (2 ^ ((s.readReg rs2).toNat % 32)))) (s.pc + 4#64))

/-- The 32-bit immediate forms. That the four exist is decision D4. -/
def Obligations.WordImmediateForms : Prop :=
  EncodedI 0b0011011#7 0b000#3 .addiw ∧ EncodedShamt5 0b001#3 0b0000000#7 .slliw ∧ EncodedShamt5 0b101#3 0b0000000#7 .srliw ∧
  EncodedShamt5 0b101#3 0b0100000#7 .sraiw ∧
  ∀ (s : State) (rd rs1 : RegIdx) (imm : BitVec 12) (shamt : BitVec 5),
    (∃ t, exec (.addiw rd rs1 imm) s = .next t ∧
      WritesOnly s t rd (sext32 ((s.readReg rs1).toInt + imm.toInt)) (s.pc + 4#64)) ∧
    (∃ t, exec (.slliw rd rs1 shamt) s = .next t ∧
      WritesOnly s t rd (sext32 (low32U (s.readReg rs1) * 2 ^ shamt.toNat)) (s.pc + 4#64)) ∧
    (∃ t, exec (.srliw rd rs1 shamt) s = .next t ∧
      WritesOnly s t rd (sext32 (low32U (s.readReg rs1) / 2 ^ shamt.toNat : Nat)) (s.pc + 4#64)) ∧
    (∃ t, exec (.sraiw rd rs1 shamt) s = .next t ∧
      WritesOnly s t rd (sext32 ((low32S (s.readReg rs1)).fdiv (2 ^ shamt.toNat))) (s.pc + 4#64))

/-- A law of R169 for all fourteen W forms: two states whose registers agree in their low halves give one result, and its bits 63 to 31
are all equal. -/
def Obligations.WordFormsIgnoreUpperHalves : Prop :=
  ∀ (i : Instr) (rd : RegIdx) (s u : State), wFormDest i = some rd →
    (∀ r : RegIdx, (s.readReg r).setWidth 32 = (u.readReg r).setWidth 32) →
    ∃ t v, exec i s = .next t ∧ exec i u = .next v ∧ t.readReg rd = v.readReg rd ∧
      ∀ k, 31 ≤ k → k < 64 → (t.readReg rd).getLsbD k = (t.readReg rd).getLsbD 31

/-! ## Multiplication and division (spec/42_muldiv.md) -/

/-- R181 to R184: the low half and the three high halves put together are the 128-bit products. -/
def Obligations.MultiplyHalves : Prop :=
  EncodedR 0b0110011#7 0b000#3 0b0000001#7 .mul ∧ EncodedR 0b0110011#7 0b001#3 0b0000001#7 .mulh ∧
  EncodedR 0b0110011#7 0b010#3 0b0000001#7 .mulhsu ∧ EncodedR 0b0110011#7 0b011#3 0b0000001#7 .mulhu ∧
  ∀ (s : State) (rd rs1 rs2 : RegIdx), ∃ lo hi hsu hu : Word,
    (∃ t, exec (.mul rd rs1 rs2) s = .next t ∧ WritesOnly s t rd lo (s.pc + 4#64)) ∧
    (∃ t, exec (.mulh rd rs1 rs2) s = .next t ∧ WritesOnly s t rd hi (s.pc + 4#64)) ∧
    (∃ t, exec (.mulhsu rd rs1 rs2) s = .next t ∧ WritesOnly s t rd hsu (s.pc + 4#64)) ∧
    (∃ t, exec (.mulhu rd rs1 rs2) s = .next t ∧ WritesOnly s t rd hu (s.pc + 4#64)) ∧
    hi.toInt * 2 ^ 64 + lo.toNat = (s.readReg rs1).toInt * (s.readReg rs2).toInt ∧
    hsu.toInt * 2 ^ 64 + lo.toNat = (s.readReg rs1).toInt * (s.readReg rs2).toNat ∧
    hu.toNat * 2 ^ 64 + lo.toNat = (s.readReg rs1).toNat * (s.readReg rs2).toNat

/-- The correction of R195, which the spec derives: how the three high halves that the machine writes differ. -/
def Obligations.HighMultiplyCorrection : Prop :=
  ∀ (s : State) (rd rs1 rs2 : RegIdx), rd ≠ 0#5 → ∃ h hsu hu,
    exec (.mulh rd rs1 rs2) s = .next h ∧ exec (.mulhsu rd rs1 rs2) s = .next hsu ∧ exec (.mulhu rd rs1 rs2) s = .next hu ∧
    hsu.readReg rd = hu.readReg rd - (if (s.readReg rs1).msb then s.readReg rs2 else 0#64) ∧
    h.readReg rd = hu.readReg rd - (if (s.readReg rs1).msb then s.readReg rs2 else 0#64) -
      (if (s.readReg rs2).msb then s.readReg rs1 else 0#64)

/-- R189: `mulw`. -/
def Obligations.MultiplyWord : Prop :=
  EncodedR 0b0111011#7 0b000#3 0b0000001#7 .mulw ∧
  ∀ (s : State) (rd rs1 rs2 : RegIdx), ∃ t, exec (.mulw rd rs1 rs2) s = .next t ∧
    WritesOnly s t rd (sext32 (low32U (s.readReg rs1) * low32U (s.readReg rs2))) (s.pc + 4#64)

/-- `div` and `rem`. The two corner rows are decision D6 (log 17). -/
def Obligations.SignedDivision : Prop :=
  EncodedR 0b0110011#7 0b100#3 0b0000001#7 .div ∧ EncodedR 0b0110011#7 0b110#3 0b0000001#7 .rem ∧
  ∀ (s : State) (rd rs1 rs2 : RegIdx), ∃ q r : Word,
    (∃ t, exec (.div rd rs1 rs2) s = .next t ∧ WritesOnly s t rd q (s.pc + 4#64)) ∧
    (∃ t, exec (.rem rd rs1 rs2) s = .next t ∧ WritesOnly s t rd r (s.pc + 4#64)) ∧
    IsSignedDivision (s.readReg rs1) (s.readReg rs2) q r

/-- `divu` and `remu`. The zero-divisor row is decision D6 (log 17). -/
def Obligations.UnsignedDivision : Prop :=
  EncodedR 0b0110011#7 0b101#3 0b0000001#7 .divu ∧ EncodedR 0b0110011#7 0b111#3 0b0000001#7 .remu ∧
  ∀ (s : State) (rd rs1 rs2 : RegIdx), ∃ q r : Word,
    (∃ t, exec (.divu rd rs1 rs2) s = .next t ∧ WritesOnly s t rd q (s.pc + 4#64)) ∧
    (∃ t, exec (.remu rd rs1 rs2) s = .next t ∧ WritesOnly s t rd r (s.pc + 4#64)) ∧
    IsUnsignedDivision (s.readReg rs1) (s.readReg rs2) q r

/-- `divw`, `remw`, `divuw`, `remuw`: the 32-bit divisions of the low halves, their results sign-extended. The corner rows are decision
D6 (log 17); that `divuw` and `remuw` exist is decision D4. -/
def Obligations.WordDivision : Prop :=
  EncodedR 0b0111011#7 0b100#3 0b0000001#7 .divw ∧ EncodedR 0b0111011#7 0b110#3 0b0000001#7 .remw ∧
  EncodedR 0b0111011#7 0b101#3 0b0000001#7 .divuw ∧ EncodedR 0b0111011#7 0b111#3 0b0000001#7 .remuw ∧
  ∀ (s : State) (rd rs1 rs2 : RegIdx), ∃ q r qu ru : BitVec 32,
    (∃ t, exec (.divw rd rs1 rs2) s = .next t ∧ WritesOnly s t rd (q.signExtend 64) (s.pc + 4#64)) ∧
    (∃ t, exec (.remw rd rs1 rs2) s = .next t ∧ WritesOnly s t rd (r.signExtend 64) (s.pc + 4#64)) ∧
    (∃ t, exec (.divuw rd rs1 rs2) s = .next t ∧ WritesOnly s t rd (qu.signExtend 64) (s.pc + 4#64)) ∧
    (∃ t, exec (.remuw rd rs1 rs2) s = .next t ∧ WritesOnly s t rd (ru.signExtend 64) (s.pc + 4#64)) ∧
    IsSignedDivision ((s.readReg rs1).setWidth 32) ((s.readReg rs2).setWidth 32) q r ∧
    IsUnsignedDivision ((s.readReg rs1).setWidth 32) ((s.readReg rs2).setWidth 32) qu ru

/-! ## Memory, loads and stores (spec/20_memory.md, spec/43_load_store.md) -/

/-- R53, R54: `MemRead` and `MemWrite`, byte by byte, and their refusal of an access that is not all mapped. -/
def Obligations.MemoryPrimitives : Prop :=
  ∀ (s : State) (addr v : Word) (w : Width),
    (¬ AllMapped s addr w.bytes → s.memRead addr w = none ∧ s.memWrite addr w v = none) ∧
    (AllMapped s addr w.bytes →
      s.memRead addr w = some (BitVec.ofNat 64 (littleEndian s addr.toNat w.bytes)) ∧
      ∃ t, s.memWrite addr w v = some t ∧
        (∀ k, k < w.bytes → t.readByte (addr.toNat + k) = v.extractLsb' (8 * k) 8) ∧
        (∀ a, a < addr.toNat ∨ addr.toNat + w.bytes ≤ a → t.readByte a = s.readByte a) ∧
        t.pc = s.pc ∧ SameRegisters s t ∧ SameCsrs s t ∧ SameElsewhere s t)

/-- The consequence that R52 derives: after an 8-byte write, narrower reads see its bytes. -/
def Obligations.MixedWidthAccesses : Prop :=
  ∀ (s t : State) (a v : Word), accepted s.params = true → s.memWrite a .double v = some t →
    (∀ k, k < 8 → t.memRead (a + BitVec.ofNat 64 k) .byte = some ((v.extractLsb' (8 * k) 8).setWidth 64)) ∧
    (∀ k, k < 4 → t.memRead (a + BitVec.ofNat 64 (2 * k)) .half = some ((v.extractLsb' (16 * k) 16).setWidth 64)) ∧
    (∀ k, k < 2 → t.memRead (a + BitVec.ofNat 64 (4 * k)) .word = some ((v.extractLsb' (32 * k) 32).setWidth 64)) ∧
    t.memRead a .double = some v

/-- R201 to R207: the seven loads, in range and out of range, aligned or not. -/
def Obligations.Loads : Prop :=
  EncodedI 0b0000011#7 0b000#3 .lb ∧ EncodedI 0b0000011#7 0b001#3 .lh ∧ EncodedI 0b0000011#7 0b010#3 .lw ∧
  EncodedI 0b0000011#7 0b011#3 .ld ∧ EncodedI 0b0000011#7 0b100#3 .lbu ∧ EncodedI 0b0000011#7 0b101#3 .lhu ∧
  EncodedI 0b0000011#7 0b110#3 .lwu ∧
  ∀ (s : State) (rd rs1 : RegIdx) (imm : BitVec 12) (ea : Word), ea = effective (s.readReg rs1) (immI imm) →
    LoadRule (.lb rd rs1 imm) s rd ea 1 (BitVec.ofInt 64 ((littleEndian s ea.toNat 1 : Int).bmod (2 ^ 8))) ∧
    LoadRule (.lh rd rs1 imm) s rd ea 2 (BitVec.ofInt 64 ((littleEndian s ea.toNat 2 : Int).bmod (2 ^ 16))) ∧
    LoadRule (.lw rd rs1 imm) s rd ea 4 (BitVec.ofInt 64 ((littleEndian s ea.toNat 4 : Int).bmod (2 ^ 32))) ∧
    LoadRule (.ld rd rs1 imm) s rd ea 8 (BitVec.ofNat 64 (littleEndian s ea.toNat 8)) ∧
    LoadRule (.lbu rd rs1 imm) s rd ea 1 (BitVec.ofNat 64 (littleEndian s ea.toNat 1)) ∧
    LoadRule (.lhu rd rs1 imm) s rd ea 2 (BitVec.ofNat 64 (littleEndian s ea.toNat 2)) ∧
    LoadRule (.lwu rd rs1 imm) s rd ea 4 (BitVec.ofNat 64 (littleEndian s ea.toNat 4))

/-- R208 to R211: the four stores, in range and out of range (then no byte is written), aligned or not. -/
def Obligations.Stores : Prop :=
  EncodedS 0b000#3 .sb ∧ EncodedS 0b001#3 .sh ∧ EncodedS 0b010#3 .sw ∧ EncodedS 0b011#3 .sd ∧
  ∀ (s : State) (rs2 rs1 : RegIdx) (imm : BitVec 12) (ea : Word), ea = effective (s.readReg rs1) (immS imm) →
    StoreRule (.sb rs2 rs1 imm) s ea 1 (s.readReg rs2) ∧ StoreRule (.sh rs2 rs1 imm) s ea 2 (s.readReg rs2) ∧
    StoreRule (.sw rs2 rs1 imm) s ea 4 (s.readReg rs2) ∧ StoreRule (.sd rs2 rs1 imm) s ea 8 (s.readReg rs2)

/-- A load or store whose bytes are not all mapped changes nothing but the status, a load with `rd = 0` too (decision D3, log 16; the
payload is decision D18). -/
def Obligations.FailedAccessChangesOnlyStatus : Prop :=
  ∀ (i : Instr) (s : State) (kind : AccessKind) (ea : Word) (n : Nat), accessOf s i = some (kind, ea, n) → ¬ AllMapped s ea n →
    exec i s = .next (s.setStatus (.faulted (.memoryAccess kind ea n s.pc)))

/-! ## Control transfer (spec/44_control_transfer.md) -/

/-- R221 to R226: the six branches; the offset is twice the 12 bits that the instruction holds (R85). -/
def Obligations.ConditionalBranches : Prop :=
  EncodedB 0b000#3 .beq ∧ EncodedB 0b001#3 .bne ∧ EncodedB 0b100#3 .blt ∧ EncodedB 0b101#3 .bge ∧ EncodedB 0b110#3 .bltu ∧
  EncodedB 0b111#3 .bgeu ∧
  ∀ (s : State) (rs1 rs2 : RegIdx) (off : BitVec 12) (target : Word), target = s.pc + BitVec.ofInt 64 (2 * off.toInt) →
    (∃ t, exec (.beq rs1 rs2 off) s = .next t ∧
      GoesOnly s t (if s.readReg rs1 = s.readReg rs2 then target else s.pc + 4#64)) ∧
    (∃ t, exec (.bne rs1 rs2 off) s = .next t ∧
      GoesOnly s t (if s.readReg rs1 ≠ s.readReg rs2 then target else s.pc + 4#64)) ∧
    (∃ t, exec (.blt rs1 rs2 off) s = .next t ∧
      GoesOnly s t (if (s.readReg rs1).toInt < (s.readReg rs2).toInt then target else s.pc + 4#64)) ∧
    (∃ t, exec (.bge rs1 rs2 off) s = .next t ∧
      GoesOnly s t (if (s.readReg rs2).toInt ≤ (s.readReg rs1).toInt then target else s.pc + 4#64)) ∧
    (∃ t, exec (.bltu rs1 rs2 off) s = .next t ∧
      GoesOnly s t (if (s.readReg rs1).toNat < (s.readReg rs2).toNat then target else s.pc + 4#64)) ∧
    (∃ t, exec (.bgeu rs1 rs2 off) s = .next t ∧
      GoesOnly s t (if (s.readReg rs2).toNat ≤ (s.readReg rs1).toNat then target else s.pc + 4#64))

/-- R227: `jal` links `pc + 4` and goes to `pc + immJ`. -/
def Obligations.JumpAndLink : Prop :=
  (∀ w : Insn, Field.opcode w = 0b1101111#7 → decode w = some (.jal (Field.rd w) (Field.offJ w))) ∧
  ∀ (s : State) (rd : RegIdx) (off : BitVec 20), ∃ t, exec (.jal rd off) s = .next t ∧
    WritesOnly s t rd (s.pc + 4#64) (s.pc + BitVec.ofInt 64 (2 * off.toInt))

/-- `jalr` links `pc + 4` and goes to the sum with bit 0 cleared, from the old `x[rs1]` and with nothing added (decisions D12 and D13,
log 19, log 22). -/
def Obligations.JumpAndLinkRegister : Prop :=
  EncodedI 0b1100111#7 0b000#3 .jalr ∧
  ∀ (s : State) (rd rs1 : RegIdx) (imm : BitVec 12), ∃ t target, exec (.jalr rd rs1 imm) s = .next t ∧
    WritesOnly s t rd (s.pc + 4#64) target ∧
    target.toNat = (BitVec.ofInt 64 ((s.readReg rs1).toInt + imm.toInt)).toNat / 2 * 2

/-- R229, R230: `lui` and `auipc`, the 20-bit field times 4096 in signed integers. -/
def Obligations.UpperImmediates : Prop :=
  EncodedU 0b0110111#7 .lui ∧ EncodedU 0b0010111#7 .auipc ∧
  ∀ (s : State) (rd : RegIdx) (field : BitVec 20),
    (∃ t, exec (.lui rd field) s = .next t ∧ WritesOnly s t rd (BitVec.ofInt 64 (field.toInt * 4096)) (s.pc + 4#64)) ∧
    (∃ t, exec (.auipc rd field) s = .next t ∧
      WritesOnly s t rd (BitVec.ofInt 64 (s.pc.toNat + field.toInt * 4096)) (s.pc + 4#64))

/-! ## Control and status registers (spec/45_csr.md) -/

/-- R241, R244: `csrrw` and `csrrwi` always write. -/
def Obligations.CsrReadWrite : Prop :=
  EncodedCsr 0b001#3 .csrrw ∧ EncodedCsr 0b101#3 .csrrwi ∧
  ∀ (s : State) (rd rs1 : RegIdx) (c : CsrIdx) (uimm : BitVec 5),
    (∃ t, exec (.csrrw rd c rs1) s = .next t ∧ SwapsCsrOnly s t rd c (s.readReg rs1)) ∧
    (∃ t, exec (.csrrwi rd c uimm) s = .next t ∧ SwapsCsrOnly s t rd c (BitVec.ofNat 64 uimm.toNat))

/-- R242, R243, R245, R246: the set and clear forms, which leave the CSR alone when the field `rs1` or `uimm` is 0. -/
def Obligations.CsrSetAndClear : Prop :=
  EncodedCsr 0b010#3 .csrrs ∧ EncodedCsr 0b011#3 .csrrc ∧ EncodedCsr 0b110#3 .csrrsi ∧ EncodedCsr 0b111#3 .csrrci ∧
  ∀ (s : State) (rd rs1 : RegIdx) (c : CsrIdx) (uimm : BitVec 5),
    (∃ t, exec (.csrrs rd c rs1) s = .next t ∧
      SwapsCsrOnly s t rd c (if rs1 ≠ 0#5 then s.readCsr c ||| s.readReg rs1 else s.readCsr c)) ∧
    (∃ t, exec (.csrrc rd c rs1) s = .next t ∧
      SwapsCsrOnly s t rd c (if rs1 ≠ 0#5 then s.readCsr c &&& ~~~(s.readReg rs1) else s.readCsr c)) ∧
    (∃ t, exec (.csrrsi rd c uimm) s = .next t ∧
      SwapsCsrOnly s t rd c (if uimm ≠ 0#5 then s.readCsr c ||| BitVec.ofNat 64 uimm.toNat else s.readCsr c)) ∧
    (∃ t, exec (.csrrci rd c uimm) s = .next t ∧
      SwapsCsrOnly s t rd c (if uimm ≠ 0#5 then s.readCsr c &&& ~~~(BitVec.ofNat 64 uimm.toNat) else s.readCsr c))

/-- The consequence that R248 derives: suppressing by index (decision D11, log 21) or by value reaches one and the same state. -/
def Obligations.CsrSuppressionUnobservable : Prop :=
  ∀ (s : State) (rd rs1 : RegIdx) (c : CsrIdx), Sparse.canonical s.csr = true → s.readReg rs1 = 0#64 →
    exec (.csrrs rd c rs1) s = exec (.csrrs rd c 0#5) s ∧ exec (.csrrc rd c rs1) s = exec (.csrrc rd c 0#5) s

/-- What R26 and R247 come to: an instruction that is none of the six behaves the same whatever the CSRs hold. -/
def Obligations.CsrsAffectOnlyCsrInstructions : Prop :=
  ∀ (i : Instr) (s t : State) (m : List (Nat × Word)), csrOf i = none → exec i s = .next t →
    exec i { s with csr := m } = .next { t with csr := m }

/-! ## System instructions (spec/46_system.md) -/

/-- The environment call: the fault carries the privilege level, `x[10]` to `x[17]` and the pc, and nothing but the status changes
(decision D3, log 16; the payload is decision D18). -/
def Obligations.EnvironmentCall : Prop :=
  decode 0x00000073#32 = some .ecall ∧
  ∀ s : State, ∃ a : Vector Word 8, ArgumentsAre s a ∧
    exec .ecall s = .next (s.setStatus (.faulted (.environmentCall s.priv a s.pc)))

/-- R250: the ten entries that do nothing complete with `pc + 4` and no other change, not even of `x[rd]`. -/
def Obligations.NoOperations : Prop :=
  ∀ (s : State) (fields : BitVec 12) (rd rs1 : RegIdx) (i : Instr),
    i ∈ [.ebreak, .fence fields rs1 rd, .fenceTso rs1 rd, .pause, .rdcycle rd, .rdtime rd, .rdinstret rd, .rdcycleh rd,
      .rdtimeh rd, .rdinstreth rd] →
    ∃ t, exec i s = .next t ∧ GoesOnly s t (s.pc + 4#64)

/-! ## The sequencer (spec/40_execution_loop.md) -/

/-- A step runs the decoded instruction: in `Memory` mode that of the four bytes at `pc`, in `Buffer` mode that of the word of `PROGRAM`
at `(pc - MEM_BASE) / 4`. -/
def Obligations.StepRunsDecodedInstruction : Prop :=
  ∀ (s : State) (i : Instr), accepted s.params = true → s.status = .running →
    (s.params.fetchMode = .memory → AllMapped s s.pc 4 →
      decodeBytes [s.readByte s.pc.toNat, s.readByte (s.pc.toNat + 1), s.readByte (s.pc.toNat + 2), s.readByte (s.pc.toNat + 3)] =
        .ok (i, []) →
      step s = exec i s) ∧
    (∀ (program : List Insn) (w : Insn), s.params.fetchMode = .buffer program → s.params.memBase.toNat ≤ s.pc.toNat →
      program[(s.pc.toNat - s.params.memBase.toNat) / 4]? = some w → decode w = some i → step s = exec i s)

/-- What a fetch finds, in both modes and for every pc (decisions D8, D10, D21, log 18, log 24). -/
def Obligations.FetchFindsWhatItsModeSays : Prop :=
  ∀ (s : State) (f : Fetched), FetchFinds s f ↔ fetch s = f

/-- R129: a step of a running machine answers a next state, and it is the one that its stage gives. Two parts of the table are the
spec's decisions: the payloads, D18 (log 26), and the `Buffer`-mode rows, D21 (log 24). -/
def Obligations.StepOutcomes : Prop :=
  ∀ s : State, accepted s.params = true → s.status = .running → ∃ t, step s = .next t ∧ StepGives s t

/-- A step that ends in a fault changes nothing but the status, and the fault carries the pc, which stays (decision D3, log 16). -/
def Obligations.FaultingStepChangesOnlyStatus : Prop :=
  ∀ (s t : State) (e : Exc), step s = .next t → t.status = .faulted e → t = s.setStatus (.faulted e) ∧ e.pc = s.pc

/-- A machine that is not running has no step, and a refused configuration has none either (log 9, log 10). -/
def Obligations.StoppedOrRefusedMachinesTakeNoStep : Prop :=
  ∀ s : State,
    (accepted s.params = true → s.status ≠ .running → step s = .fault (.stopped s.status)) ∧
    (accepted s.params = false → step s = .refused .badConfiguration ∧ powerOn s.params = .refused .badConfiguration)

/-- The next pc of every instruction that raises nothing (the `jalr` row is decision D13, log 19). -/
def Obligations.NextProgramCounter : Prop :=
  ∀ (i : Instr) (s t : State), s.status = .running → exec i s = .next t → t.status = .running → NextPc i s t.pc

/-- Only the destinations that the spec names ever change: over all instructions, a register that changed is the destination, a CSR that
changed is the one named, a byte that changed lies in the bytes stored to. -/
def Obligations.OnlyNamedDestinationsChange : Prop :=
  ∀ (i : Instr) (s t : State), exec i s = .next t →
    (∀ r : RegIdx, t.readReg r ≠ s.readReg r → destOf i = some r) ∧
    (∀ c : CsrIdx, t.readCsr c ≠ s.readCsr c → csrOf i = some c) ∧
    (∀ a : Nat, t.readByte a ≠ s.readByte a →
      ∃ ea n, accessOf s i = some (.store, ea, n) ∧ ea.toNat ≤ a ∧ a < ea.toNat + n ∧ AllMapped s ea n)

/-- A run of `j + k` steps is a run of `j` and then of `k`, and a finished machine stays as it is (log 9). -/
def Obligations.RunsComposeAndFinishedRunsStay : Prop :=
  ∀ (s : State) (j k : Nat), runFor (j + k) s = runFor k (runFor j s) ∧ (s.finished = true → runFor k s = s)

/-- How a run ends: in `Memory` mode never `Exhausted`; in `Buffer` mode `Exhausted` exactly with pc at or past the end of `PROGRAM`
(decisions D2 and D21, log 24). -/
def Obligations.RunsEndAsTheModeSays : Prop :=
  ∀ (s : State) (k : Nat), s.status = .running →
    (s.params.fetchMode = .memory → (runFor k s).status ≠ .exhausted) ∧
    (∀ program : List Insn, s.params.fetchMode = .buffer program → (runFor k s).status = .exhausted →
      s.params.memBase.toNat + 4 * program.length ≤ (runFor k s).pc.toNat)

/-! ## Privilege, floating registers, code and data -/

/-- R282: every step keeps the privilege level, reset alone sets it, and the one thing it decides is the class of an environment call:
from another level the same step is taken, its fault relabelled. -/
def Obligations.PrivilegeRestrictsNothing : Prop :=
  (∀ p : Params, (resetOf p).priv = p.resetPriv) ∧
  ∀ (s t : State) (p : Priv), s.status = .running → step s = .next t →
    t.priv = s.priv ∧ step { s with priv := p } = .next { t with priv := p, status := t.status.relabel p }

/-- The floating registers are never read and never written: with other contents every step is the same. -/
def Obligations.FloatingRegistersNeverMatter : Prop :=
  ∀ (s : State) (g : Vector Word 32),
    (∀ t, step s = .next t → t.f = s.f ∧ step { s with f := g } = .next { t with f := g }) ∧
    (∀ r, step s = .fault r → step { s with f := g } = .fault r) ∧
    (∀ r, step s = .refused r → step { s with f := g } = .refused r) ∧
    (∀ sel, observe { s with f := g } sel = observe s sel)

/-- Code and stores (decision D10, log 24): in `Memory` mode a stored word is what the next fetch there finds; in `Buffer` mode no
instruction changes what any fetch finds. -/
def Obligations.StoresReachTheInstructionStreamInMemoryModeOnly : Prop :=
  ∀ (s : State),
    (∀ (rs2 rs1 : RegIdx) (imm : BitVec 12) (ea : Word), s.params.fetchMode = .memory → ea = effective (s.readReg rs1) (immS imm) →
      AllMapped s ea 4 →
      ∃ t, exec (.sw rs2 rs1 imm) s = .next t ∧ fetch (t.setPc ea) = .word ((s.readReg rs2).setWidth 32)) ∧
    (∀ (program : List Insn) (i : Instr) (t : State) (pc : Word), s.params.fetchMode = .buffer program → exec i s = .next t →
      fetch (t.setPc pc) = fetch (s.setPc pc))

/-! ## Reset, the invariant, the loader -/

/-- The state after reset for every choice of the parameters: every field of it, and that the reset input reaches it (values the document
does not give: decision D15, log 3 to log 7; that memory is `MEM_INIT` again after a later reset: log 31). -/
def Obligations.ResetValues : Prop :=
  (∀ p : Params, (resetOf p).pc = p.resetPc ∧
    (∀ r : RegIdx, (resetOf p).readReg r =
      match p.spSeed with
      | some v => if r = 2#5 then v else 0#64
      | none => 0#64) ∧
    (∀ k : Fin 32, (resetOf p).f[k] = 0#64) ∧
    (∀ c : CsrIdx, (resetOf p).readCsr c = lastValue p.csrInit c.toNat) ∧
    (∀ a : Nat, mapped p a = true → (resetOf p).readByte a = lastValue p.memInit a) ∧
    (resetOf p).priv = p.resetPriv ∧ (resetOf p).status = .running ∧ (resetOf p).params = p) ∧
  ∀ s : State, s.resetInput = resetOf s.params

/-- The invariant holds after every reset of an accepted machine, and the default reset state is one of them. The model's own choices in
it: that `powerOn` is where parameters are refused (log 10), the one list form that `State.wf` asks of memory (log 7) and of the CSR file
(log 5), the default parameters of `State.reset` (log 2 to log 7). -/
def Obligations.InvariantAtReset : Prop :=
  (∀ p : Params, accepted p = true → powerOn p = .next (resetOf p) ∧ (resetOf p).wf) ∧
  State.reset = resetOf Params.default ∧ State.reset.wf

/-- Every step keeps the invariant: parameters accepted, memory and CSR file in their one form, only mapped addresses and CSR numbers
below 4096 listed. The one form is the model's choice (log 5, log 7), and so is that refused parameters take no step (log 10). -/
def Obligations.EveryStepKeepsTheInvariant : Prop :=
  ∀ s t : State, s.wf → step s = .next t → t.wf ∧ t.params = s.params

/-- Equal contents are equal data: two stores in the one form that read alike everywhere are the same list (log 7). -/
def Obligations.CanonicalStoresWithEqualReadsAreEqual : Prop :=
  ∀ (n : Nat) (m m' : List (Nat × BitVec n)), Sparse.canonical m = true → Sparse.canonical m' = true →
    (∀ a : Nat, Sparse.read m a = Sparse.read m' a) → m = m'

/-- The loader's bytes are where it put them (an unmapped address takes none), nothing else changed, and a word placed for the next fetch
is the one that step runs (the model's choices: log 8). -/
def Obligations.LoadedBytesAreReadAndFetched : Prop :=
  (∀ (s : State) (a : Nat) (bs : List Byte),
    (∀ b : Nat, (s.loadBytes a bs).readByte b =
      (if a ≤ b ∧ mapped s.params b = true then bs[b - a]? else none).getD (s.readByte b)) ∧
    (s.loadBytes a bs).pc = s.pc ∧ SameRegisters s (s.loadBytes a bs) ∧ SameCsrs s (s.loadBytes a bs) ∧
    SameElsewhere s (s.loadBytes a bs)) ∧
  ∀ (s : State) (w : Insn), accepted s.params = true → s.status = .running →
    (s.params.fetchMode = .memory → AllMapped s s.pc 4) → s.params.memBase.toNat ≤ s.pc.toNat →
    step (s.withFetchWord 32 w.toNat) =
      match decode w with
      | some i => exec i (s.withFetchWord 32 w.toNat)
      | none => .next ((s.withFetchWord 32 w.toNat).setStatus (.faulted (.illegalInstruction w s.pc)))

/-! ## Encoding (spec/30_encoding.md) -/

/-- Decoding the word, or the bytes, of a well-formed instruction gives it back, with every operand at every value. -/
def Obligations.DecodeOfEncode : Prop :=
  ∀ i : Instr, i.wellFormed = true → decode (encode i) = some i ∧ ∀ rest : List Byte, decodeBytes (encodeBytes i ++ rest) = .ok (i, rest)

/-- Every word that decodes is the encoding of its instruction, which is well-formed: no bit of a word is dropped and no two words are
one instruction. -/
def Obligations.EncodeOfDecode : Prop :=
  ∀ (w : Insn) (i : Instr), decode w = some i → i.wellFormed = true ∧ encode i = w

/-- R92: of the 79 entries the one with the most specific mask wins; a rival's mask is then strictly contained in the winner's. -/
def Obligations.MostSpecificMaskWins : Prop :=
  dispatchTable.length = 79 ∧
  ∀ w : Insn,
    (dispatch w = none ↔ ∀ e ∈ dispatchTable, w &&& e.mask ≠ e.pattern) ∧
    ∀ op : Op, dispatch w = some op ↔
      ∃ e ∈ dispatchTable, e.op = op ∧ w &&& e.mask = e.pattern ∧
        ∀ b ∈ dispatchTable, w &&& b.mask = b.pattern → b = e ∨ (b.specificity < e.specificity ∧ b.mask &&& e.mask = b.mask)

/-- R99, R100: the words of LOAD, STORE, BRANCH, JALR, JAL, LUI and AUIPC, and which of them are illegal. -/
def Obligations.LoadStoreAndTransferOpcodes : Prop :=
  ∀ w : Insn,
    (Field.opcode w = 0x03#7 → decode w =
      match (Field.funct3 w).toNat with
      | 0 => some (.lb (Field.rd w) (Field.rs1 w) (Field.immI w))
      | 1 => some (.lh (Field.rd w) (Field.rs1 w) (Field.immI w))
      | 2 => some (.lw (Field.rd w) (Field.rs1 w) (Field.immI w))
      | 3 => some (.ld (Field.rd w) (Field.rs1 w) (Field.immI w))
      | 4 => some (.lbu (Field.rd w) (Field.rs1 w) (Field.immI w))
      | 5 => some (.lhu (Field.rd w) (Field.rs1 w) (Field.immI w))
      | 6 => some (.lwu (Field.rd w) (Field.rs1 w) (Field.immI w))
      | _ => none) ∧
    (Field.opcode w = 0x23#7 → decode w =
      match (Field.funct3 w).toNat with
      | 0 => some (.sb (Field.rs2 w) (Field.rs1 w) (Field.immS w))
      | 1 => some (.sh (Field.rs2 w) (Field.rs1 w) (Field.immS w))
      | 2 => some (.sw (Field.rs2 w) (Field.rs1 w) (Field.immS w))
      | 3 => some (.sd (Field.rs2 w) (Field.rs1 w) (Field.immS w))
      | _ => none) ∧
    (Field.opcode w = 0x63#7 → decode w =
      match (Field.funct3 w).toNat with
      | 0 => some (.beq (Field.rs1 w) (Field.rs2 w) (Field.offB w))
      | 1 => some (.bne (Field.rs1 w) (Field.rs2 w) (Field.offB w))
      | 4 => some (.blt (Field.rs1 w) (Field.rs2 w) (Field.offB w))
      | 5 => some (.bge (Field.rs1 w) (Field.rs2 w) (Field.offB w))
      | 6 => some (.bltu (Field.rs1 w) (Field.rs2 w) (Field.offB w))
      | 7 => some (.bgeu (Field.rs1 w) (Field.rs2 w) (Field.offB w))
      | _ => none) ∧
    (Field.opcode w = 0x67#7 → decode w =
      if Field.funct3 w = 0#3 then some (.jalr (Field.rd w) (Field.rs1 w) (Field.immI w)) else none) ∧
    (Field.opcode w = 0x6f#7 → decode w = some (.jal (Field.rd w) (Field.offJ w))) ∧
    (Field.opcode w = 0x37#7 → decode w = some (.lui (Field.rd w) (Field.immU w))) ∧
    (Field.opcode w = 0x17#7 → decode w = some (.auipc (Field.rd w) (Field.immU w)))

/-- OP-IMM, OP-IMM-32, OP and OP-32: which words are illegal. The words that are legal stand in the `Encoded…` clauses of the statements
on integer arithmetic, multiplication and division (decision D4 for the mnemonics the document does not name). -/
def Obligations.IllegalIntegerWords : Prop :=
  ∀ w : Insn,
    (Field.opcode w = 0x13#7 →
      (decode w = none ↔ (Field.funct3 w = 1#3 ∧ Field.funct6 w ≠ 0b000000#6) ∨
        (Field.funct3 w = 5#3 ∧ Field.funct6 w ≠ 0b000000#6 ∧ Field.funct6 w ≠ 0b010000#6))) ∧
    (Field.opcode w = 0x1b#7 →
      (decode w = none ↔ Field.funct3 w ∈ [2#3, 3#3, 4#3, 6#3, 7#3] ∨ (Field.funct3 w = 1#3 ∧ Field.funct7 w ≠ 0b0000000#7) ∨
        (Field.funct3 w = 5#3 ∧ Field.funct7 w ≠ 0b0000000#7 ∧ Field.funct7 w ≠ 0b0100000#7))) ∧
    (Field.opcode w = 0x33#7 →
      (decode w = none ↔ Field.funct7 w ∉ [0b0000000#7, 0b0100000#7, 0b0000001#7] ∨
        (Field.funct7 w = 0b0100000#7 ∧ Field.funct3 w ≠ 0#3 ∧ Field.funct3 w ≠ 5#3))) ∧
    (Field.opcode w = 0x3b#7 →
      (decode w = none ↔ Field.funct7 w ∉ [0b0000000#7, 0b0100000#7, 0b0000001#7] ∨
        (Field.funct7 w = 0b0000000#7 ∧ Field.funct3 w ∉ [0#3, 1#3, 5#3]) ∨
        (Field.funct7 w = 0b0100000#7 ∧ Field.funct3 w ∉ [0#3, 5#3]) ∨
        (Field.funct7 w = 0b0000001#7 ∧ Field.funct3 w ∈ [1#3, 2#3, 3#3])))

/-- MISC-MEM and SYSTEM word by word: `fence`, `fence.tso`, `pause`; `ecall`, `ebreak`; the counter reads that win over `csrrs`
(decision D16, log 23); everything else with funct3 000 or 100, and every other MISC-MEM word, is illegal (decision D5). -/
def Obligations.MiscMemAndSystemOpcodes : Prop :=
  ∀ w : Insn,
    (Field.opcode w = 0x0f#7 → decode w =
      if Field.funct3 w ≠ 0#3 then none
      else if w = 0x0100000f#32 then some .pause
      else if Field.immI w = 0x833#12 then some (.fenceTso (Field.rs1 w) (Field.rd w))
      else some (.fence (Field.immI w) (Field.rs1 w) (Field.rd w))) ∧
    (Field.opcode w = 0x73#7 → Field.funct3 w = 0#3 → decode w =
      if w = 0x00000073#32 then some .ecall else if w = 0x00100073#32 then some .ebreak else none) ∧
    (Field.opcode w = 0x73#7 → Field.funct3 w = 4#3 → decode w = none) ∧
    (Field.opcode w = 0x73#7 → Field.funct3 w = 2#3 → Field.rs1 w = 0#5 → decode w =
      match (Field.csr w).toNat with
      | 0xC00 => some (.rdcycle (Field.rd w))
      | 0xC01 => some (.rdtime (Field.rd w))
      | 0xC02 => some (.rdinstret (Field.rd w))
      | 0xC80 => some (.rdcycleh (Field.rd w))
      | 0xC81 => some (.rdtimeh (Field.rd w))
      | 0xC82 => some (.rdinstreth (Field.rd w))
      | _ => some (.csrrs (Field.rd w) (Field.csr w) 0#5))

/-- R105: a word whose low two bits are not `0b11` is illegal as a whole 32-bit word, and so is every word outside the thirteen major
opcodes. -/
def Obligations.OtherOpcodesAreIllegal : Prop :=
  ∀ w : Insn,
    (w.extractLsb' 0 2 ≠ 0b11#2 → decode w = none) ∧
    (Field.opcode w ∉ [0x03#7, 0x0f#7, 0x13#7, 0x17#7, 0x1b#7, 0x23#7, 0x33#7, 0x37#7, 0x3b#7, 0x63#7, 0x67#7, 0x6f#7, 0x73#7] →
      decode w = none)

/-- The five immediates bit by bit, as 30_encoding.md section 2 reads them (the S form with the reading of conflict C4). -/
def Obligations.ImmediatesBitByBit : Prop :=
  ∀ (w : Insn) (k : Nat), k < 64 →
    (immI (Field.immI w)).getLsbD k = w.getLsbD (min (20 + k) 31) ∧
    (immS (Field.immS w)).getLsbD k = (if k < 5 then w.getLsbD (7 + k) else w.getLsbD (min (20 + k) 31)) ∧
    (immB (Field.offB w)).getLsbD k =
      (if k = 0 then false else if k < 5 then w.getLsbD (7 + k) else if k < 11 then w.getLsbD (20 + k)
        else if k = 11 then w.getLsbD 7 else w.getLsbD 31) ∧
    (immU (Field.immU w)).getLsbD k = (if k < 12 then false else w.getLsbD (min k 31)) ∧
    (immJ (Field.offJ w)).getLsbD k =
      (if k = 0 then false else if k < 11 then w.getLsbD (20 + k) else if k = 11 then w.getLsbD 20
        else if k < 20 then w.getLsbD k else w.getLsbD 31)

/-- The extension primitives of R8 for every width 1 to 64: `sext` reads the low `n` bits as signed, `zext` as unsigned. -/
def Obligations.ExtensionPrimitives : Prop :=
  ∀ (n : Nat) (v : Word), 0 < n → n ≤ 64 →
    (sext n v).toInt = (v.toNat : Int).bmod (2 ^ n) ∧ (zext n v).toNat = v.toNat % 2 ^ n

/-- Words of the spec's own examples, at least one of each format, decode to the instructions they stand for (R94 and R105 for the two illegal ones). -/
def Obligations.ExampleWordsDecode : Prop :=
  decode 0x00620533#32 = some (.add 10#5 4#5 6#5) ∧ decode 0x02419333#32 = some (.mulh 6#5 3#5 4#5) ∧
  decode 0x7ff30293#32 = some (.addi 5#5 6#5 2047#12) ∧ decode 0x40435293#32 = some (.srai 5#5 6#5 4#6) ∧
  decode 0x00432283#32 = some (.lw 5#5 6#5 4#12) ∧ decode 0xfe733c23#32 = some (.sd 7#5 6#5 (-8#12)) ∧
  decode 0x00009463#32 = some (.bne 1#5 0#5 4#12) ∧ decode 0xffdff0ef#32 = some (.jal 1#5 (-2#20)) ∧
  decode 0x00400237#32 = some (.lui 4#5 1024#20) ∧ decode 0x340312f3#32 = some (.csrrw 5#5 0x340#12 6#5) ∧
  decode 0x3401f2f3#32 = some (.csrrci 5#5 0x340#12 3#5) ∧ decode 0xc00022f3#32 = some (.rdcycle 5#5) ∧
  decode 0xffffffff#32 = none ∧ decode 0x00000000#32 = none
end

