-- ==== Sys2Proof/Laws/Fields.lean ====
section
/-! SUPPORT. Groups of bits put at an offset: reading them back, masking them, and cutting a word by the masks of the dispatch table. -/

namespace Sys2Proof.Laws

variable {n m l : Nat}

theorem getLsbD_put (k i : Nat) (f : BitVec m) :
    (put k f : BitVec n).getLsbD i = (decide (i < n) && decide (k ≤ i) && f.getLsbD (i - k)) := by
  unfold put
  by_cases h1 : i < n
  · by_cases h2 : k ≤ i
    · simp [h1, h2, Nat.not_lt.mpr h2]
    · simp [h1, h2, Nat.lt_of_not_le h2]
  · simp [h1]

@[simp] theorem put_zero (k : Nat) : (put k (0#m) : BitVec n) = 0#n := by
  apply BitVec.eq_of_getLsbD_eq; intro i hi; simp [getLsbD_put]

/-- Part of a group is read back from its place inside. -/
theorem extract_put_inside (k a : Nat) (f : BitVec m) (hk : k ≤ a) (h : a + l ≤ n) :
    (put k f : BitVec n).extractLsb' a l = f.extractLsb' (a - k) l := by
  apply BitVec.eq_of_getLsbD_eq; intro i hi
  have h1 : a + i < n := by omega
  have h2 : k ≤ a + i := by omega
  have h3 : a + i - k = a - k + i := by omega
  rw [BitVec.getLsbD_extractLsb', BitVec.getLsbD_extractLsb', getLsbD_put, h3]
  simp only [hi, h1, h2, decide_true, Bool.true_and]

/-- A group is read back whole from the place it was put. -/
theorem extract_put_same (k : Nat) (f : BitVec m) (h : k + m ≤ n) : (put k f : BitVec n).extractLsb' k m = f := by
  rw [extract_put_inside k k f (Nat.le_refl k) h, Nat.sub_self, BitVec.extractLsb'_eq_self]

/-- Elsewhere there is nothing of it. -/
theorem extract_put_outside (k a : Nat) (f : BitVec m) (h : a + l ≤ k ∨ k + m ≤ a) :
    (put k f : BitVec n).extractLsb' a l = 0#l := by
  apply BitVec.eq_of_getLsbD_eq; intro i hi
  rw [BitVec.getLsbD_extractLsb', getLsbD_put, BitVec.getLsbD_zero]
  rcases h with h | h
  · have h2 : ¬ k ≤ a + i := by omega
    simp only [h2, decide_false, Bool.and_false, Bool.false_and]
  · rw [BitVec.getLsbD_of_ge f _ (by omega), Bool.and_false, Bool.and_false]

theorem extract_or (a : Nat) (x y : BitVec n) : (x ||| y).extractLsb' a l = x.extractLsb' a l ||| y.extractLsb' a l := by
  apply BitVec.eq_of_getLsbD_eq; intro i hi; simp [hi]

/-- Masking a group is masking it before it is put. -/
theorem put_and (k : Nat) (f : BitVec m) (M : BitVec n) : put k f &&& M = put k (f &&& M.extractLsb' k m) := by
  apply BitVec.eq_of_getLsbD_eq; intro i hi
  rw [BitVec.getLsbD_and, getLsbD_put, getLsbD_put, BitVec.getLsbD_and, BitVec.getLsbD_extractLsb']
  by_cases h2 : k ≤ i
  · have h3 : k + (i - k) = i := by omega
    by_cases h4 : i - k < m
    · simp only [h2, hi, h3, h4, decide_true, Bool.true_and]
    · rw [BitVec.getLsbD_of_ge f _ (by omega)]
      simp only [Bool.and_false, Bool.false_and]
  · simp only [h2, decide_false, Bool.and_false, Bool.false_and]

theorem or_and (x y M : BitVec n) : (x ||| y) &&& M = (x &&& M) ||| (y &&& M) := by
  apply BitVec.eq_of_getLsbD_eq; intro i hi
  simp [Bool.and_or_distrib_right]

/-! ### The six mask shapes of R95, read as the fields they keep -/

theorem and_or_right (w x y : BitVec n) : w &&& (x ||| y) = w &&& x ||| w &&& y := by
  rw [BitVec.and_comm, or_and, BitVec.and_comm x, BitVec.and_comm y]

/-- A run of ones in a mask keeps the bits it covers. -/
theorem and_put_ones (w : BitVec n) (k : Nat) : w &&& put k (BitVec.allOnes m) = put k (w.extractLsb' k m) := by
  apply BitVec.eq_of_getLsbD_eq; intro i hi
  rw [BitVec.getLsbD_and, getLsbD_put, getLsbD_put, BitVec.getLsbD_extractLsb', BitVec.getLsbD_allOnes]
  by_cases h2 : k ≤ i
  · have h3 : k + (i - k) = i := by omega
    simp only [hi, h2, h3, decide_true, Bool.true_and, Bool.and_comm]
  · simp only [h2, decide_false, Bool.and_false, Bool.false_and]

theorem mask_opcode (w : Insn) : w &&& 0x0000007f#32 = put 0 (Field.opcode w) := by
  rw [show (0x0000007f#32 : Insn) = put 0 (BitVec.allOnes 7) from by decide, and_put_ones]; rfl

theorem mask_funct3 (w : Insn) : w &&& 0x0000707f#32 = put 12 (Field.funct3 w) ||| put 0 (Field.opcode w) := by
  rw [show (0x0000707f#32 : Insn) = put 12 (BitVec.allOnes 3) ||| put 0 (BitVec.allOnes 7) from by decide, and_or_right]
  simp only [and_put_ones]; rfl

theorem mask_funct7 (w : Insn) :
    w &&& 0xfe00707f#32 = put 25 (Field.funct7 w) ||| put 12 (Field.funct3 w) ||| put 0 (Field.opcode w) := by
  rw [show (0xfe00707f#32 : Insn) = put 25 (BitVec.allOnes 7) ||| put 12 (BitVec.allOnes 3) ||| put 0 (BitVec.allOnes 7) from by decide,
    and_or_right, and_or_right]
  simp only [and_put_ones]; rfl

theorem mask_funct6 (w : Insn) :
    w &&& 0xfc00707f#32 = put 26 (Field.funct6 w) ||| put 12 (Field.funct3 w) ||| put 0 (Field.opcode w) := by
  rw [show (0xfc00707f#32 : Insn) = put 26 (BitVec.allOnes 6) ||| put 12 (BitVec.allOnes 3) ||| put 0 (BitVec.allOnes 7) from by decide,
    and_or_right, and_or_right]
  simp only [and_put_ones]; rfl

theorem mask_funct12 (w : Insn) :
    w &&& 0xfff0707f#32 = put 20 (Field.immI w) ||| put 12 (Field.funct3 w) ||| put 0 (Field.opcode w) := by
  rw [show (0xfff0707f#32 : Insn) = put 20 (BitVec.allOnes 12) ||| put 12 (BitVec.allOnes 3) ||| put 0 (BitVec.allOnes 7) from by decide,
    and_or_right, and_or_right]
  simp only [and_put_ones]; rfl

theorem mask_counter (w : Insn) :
    w &&& 0xfffff07f#32 =
      put 20 (Field.csr w) ||| put 15 (Field.rs1 w) ||| put 12 (Field.funct3 w) ||| put 0 (Field.opcode w) := by
  rw [show (0xfffff07f#32 : Insn) = put 20 (BitVec.allOnes 12) ||| put 15 (BitVec.allOnes 5) ||| put 12 (BitVec.allOnes 3) |||
      put 0 (BitVec.allOnes 7) from by decide, and_or_right, and_or_right, and_or_right]
  simp only [and_put_ones]; rfl

end Sys2Proof.Laws
end

