-- ==== Sys2Proof/Laws/Decode.lean ====
section
/-! SUPPORT. The dispatch table: which entries overlap (spec/30_encoding.md R93), and how one entry's match settles a decoding. -/

namespace Sys2Proof.Laws

/-- R93: two entries overlap when `(match1 ^ match2) & mask1 & mask2 = 0`. -/
def overlap (a b : Entry) : Bool := (a.pattern ^^^ b.pattern) &&& a.mask &&& b.mask == 0#32

/-- Every pair of a list, the earlier element first. -/
def pairsOf : List Entry → List (Entry × Entry)
  | [] => []
  | e :: es => es.map (fun b => (e, b)) ++ pairsOf es

/-- R93: exactly eight pairs overlap, and in each the second entry has the more specific mask. -/
theorem overlaps_are_exactly_eight :
    ((pairsOf dispatchTable).filter fun p => overlap p.1 p.2).map
        (fun p => (p.1.op, p.2.op, decide (p.1.specificity < p.2.specificity))) =
      [(.fence, .fenceTso, true), (.fence, .pause, true), (.csrrs, .rdcycle, true), (.csrrs, .rdtime, true),
        (.csrrs, .rdinstret, true), (.csrrs, .rdcycleh, true), (.csrrs, .rdtimeh, true), (.csrrs, .rdinstreth, true)] := by
  decide +kernel

/-- A word that two entries match is a word on which they overlap. -/
theorem overlap_of_hits {a b : Entry} {w : Insn} (ha : a.hits w = true) (hb : b.hits w = true) : overlap a b = true := by
  simp only [Entry.hits, beq_iff_eq] at ha hb
  simp only [overlap, beq_iff_eq, ← ha, ← hb]
  ext i hi
  simp only [BitVec.getElem_and, BitVec.getElem_xor, BitVec.getElem_zero]
  cases w[i] <;> cases a.mask[i] <;> cases b.mask[i] <;> rfl

/-! ### The most specific match -/

theorem bestMatch_eq_none {w : Insn} {es : List Entry} : bestMatch w es = none ↔ ∀ e ∈ es, e.hits w = false := by
  induction es with
  | nil => simp [bestMatch]
  | cons e es ih =>
    unfold bestMatch
    cases he : e.hits w <;> simp [he, ih]

/-- What a search can answer: an entry of the list that matches, no matching entry being more specific. -/
theorem bestMatch_eq_some {w : Insn} {es : List Entry} {e : Entry} (h : bestMatch w es = some e) :
    e ∈ es ∧ e.hits w = true ∧ ∀ b ∈ es, b.hits w = true → b.specificity ≤ e.specificity := by
  induction es generalizing e with
  | nil => simp [bestMatch] at h
  | cons a es ih =>
    unfold bestMatch at h
    cases ha : a.hits w
    · rw [ha] at h
      obtain ⟨h1, h2, h3⟩ := ih (by simpa using h)
      refine ⟨List.mem_cons_of_mem _ h1, h2, fun b hb hw => ?_⟩
      rcases List.mem_cons.mp hb with rfl | hb
      · rw [ha] at hw; cases hw
      · exact h3 b hb hw
    · rw [ha] at h
      simp only [if_true, Option.some.injEq] at h
      cases hm : bestMatch w es with
      | none =>
        rw [hm] at h
        simp only [moreSpecific] at h
        subst h
        refine ⟨List.mem_cons_self, ha, fun b hb hw => ?_⟩
        rcases List.mem_cons.mp hb with rfl | hb
        · exact Nat.le_refl _
        · rw [bestMatch_eq_none.mp hm b hb] at hw; cases hw
      | some c =>
        obtain ⟨h1, h2, h3⟩ := ih hm
        rw [hm] at h
        simp only [moreSpecific] at h
        split at h
        · next hlt =>
          subst h
          refine ⟨List.mem_cons_of_mem _ h1, h2, fun b hb hw => ?_⟩
          rcases List.mem_cons.mp hb with rfl | hb
          · exact Nat.le_of_lt hlt
          · exact h3 b hb hw
        · next hlt =>
          subst h
          refine ⟨List.mem_cons_self, ha, fun b hb hw => ?_⟩
          rcases List.mem_cons.mp hb with rfl | hb
          · exact Nat.le_refl _
          · exact Nat.le_trans (h3 b hb hw) (by omega)

/-- The entries that no more specific entry overlaps: a match of one of these settles the decoding. -/
def unrivalled (e : Entry) : Bool :=
  dispatchTable.all fun b => !overlap e b || decide (b.specificity < e.specificity) || decide (b = e)

/-- Every entry but `fence` and `csrrs` is unrivalled. -/
theorem unrivalled_all : (dispatchTable.filter fun e => !unrivalled e).map Entry.op = [.fence, .csrrs] := by
  decide +kernel

/-- If an entry matches and every other match is less specific, it decodes the word. -/
theorem dispatch_of_hit {w : Insn} {e : Entry} (he : e ∈ dispatchTable) (hw : e.hits w = true)
    (hr : ∀ b ∈ dispatchTable, b.hits w = true → b.specificity < e.specificity ∨ b = e) : dispatch w = some e.op := by
  unfold dispatch
  cases hm : bestMatch w dispatchTable with
  | none => rw [bestMatch_eq_none.mp hm e he] at hw; cases hw
  | some c =>
    obtain ⟨h1, h2, h3⟩ := bestMatch_eq_some hm
    rcases hr c h1 h2 with h | rfl
    · have := h3 e he hw; omega
    · rfl

theorem dispatch_of_unrivalled {w : Insn} {e : Entry} (he : e ∈ dispatchTable) (hu : unrivalled e = true)
    (hw : e.hits w = true) : dispatch w = some e.op := by
  refine dispatch_of_hit he hw fun b hb hbw => ?_
  have h := List.all_eq_true.mp hu b hb
  rw [overlap_of_hits hw hbw] at h
  simpa using h

theorem decode_of_unrivalled {w : Insn} {e : Entry} (he : e ∈ dispatchTable) (hu : unrivalled e = true)
    (hw : e.hits w = true) : decode w = some (operands w e.op) := by
  rw [decode, dispatch_of_unrivalled he hu hw]; rfl

/-- What the decoder can answer: the operation of a matching entry with no more specific match, its operands read from the word. -/
theorem decode_eq_some {w : Insn} {i : Instr} (h : decode w = some i) :
    ∃ e ∈ dispatchTable, e.hits w = true ∧ i = operands w e.op ∧
      ∀ b ∈ dispatchTable, b.hits w = true → b.specificity ≤ e.specificity := by
  unfold decode dispatch at h
  cases hm : bestMatch w dispatchTable with
  | none => rw [hm] at h; cases h
  | some e =>
    obtain ⟨h1, h2, h3⟩ := bestMatch_eq_some hm
    rw [hm] at h
    exact ⟨e, h1, h2, (Option.some.inj h).symm, h3⟩

theorem decode_eq_none {w : Insn} : decode w = none ↔ ∀ e ∈ dispatchTable, e.hits w = false := by
  rw [← bestMatch_eq_none, decode, dispatch]
  cases bestMatch w dispatchTable <;> simp

end Sys2Proof.Laws
end

