-- ==== Sys2Proof/Laws/Encode.lean ====
section
/-! SUPPORT. Every field of every format is read back from the word the encoder makes (spec/30_encoding.md R82, R90), and what the masks
of R95 leave of such a word. -/

namespace Sys2Proof.Laws

variable (funct7 opcode : BitVec 7) (funct6 shamt : BitVec 6) (funct3 : BitVec 3) (rs2 rs1 rd : RegIdx) (m imm off : BitVec 12)
  (field joff : BitVec 20)

/-! ### The fields of each format -/

@[simp] theorem encodeR_rd : Field.rd (encodeR funct7 rs2 rs1 funct3 rd opcode) = rd := by
  simp (disch := decide) only [Field.rd, encodeR, extract_or, extract_put_same, extract_put_outside, BitVec.zero_or, BitVec.or_zero]

@[simp] theorem encodeR_rs1 : Field.rs1 (encodeR funct7 rs2 rs1 funct3 rd opcode) = rs1 := by
  simp (disch := decide) only [Field.rs1, encodeR, extract_or, extract_put_same, extract_put_outside, BitVec.zero_or, BitVec.or_zero]

@[simp] theorem encodeR_rs2 : Field.rs2 (encodeR funct7 rs2 rs1 funct3 rd opcode) = rs2 := by
  simp (disch := decide) only [Field.rs2, encodeR, extract_or, extract_put_same, extract_put_outside, BitVec.zero_or, BitVec.or_zero]

@[simp] theorem encodeR_shamt5 : Field.shamt5 (encodeR funct7 rs2 rs1 funct3 rd opcode) = rs2 := by
  simp (disch := decide) only [Field.shamt5, encodeR, extract_or, extract_put_same, extract_put_outside, BitVec.zero_or, BitVec.or_zero]

@[simp] theorem encodeI_rd : Field.rd (encodeI imm rs1 funct3 rd opcode) = rd := by
  simp (disch := decide) only [Field.rd, encodeI, extract_or, extract_put_same, extract_put_outside, BitVec.zero_or, BitVec.or_zero]

@[simp] theorem encodeI_rs1 : Field.rs1 (encodeI imm rs1 funct3 rd opcode) = rs1 := by
  simp (disch := decide) only [Field.rs1, encodeI, extract_or, extract_put_same, extract_put_outside, BitVec.zero_or, BitVec.or_zero]

@[simp] theorem encodeI_uimm : Field.uimm (encodeI imm rs1 funct3 rd opcode) = rs1 := by
  simp (disch := decide) only [Field.uimm, encodeI, extract_or, extract_put_same, extract_put_outside, BitVec.zero_or, BitVec.or_zero]

@[simp] theorem encodeI_immI : Field.immI (encodeI imm rs1 funct3 rd opcode) = imm := by
  simp (disch := decide) only [Field.immI, encodeI, extract_or, extract_put_same, extract_put_outside, BitVec.or_zero]

@[simp] theorem encodeI_csr : Field.csr (encodeI imm rs1 funct3 rd opcode) = imm := by
  simp (disch := decide) only [Field.csr, encodeI, extract_or, extract_put_same, extract_put_outside, BitVec.or_zero]

@[simp] theorem encodeShamt6_rd : Field.rd (encodeShamt6 funct6 shamt rs1 funct3 rd opcode) = rd := by
  simp (disch := decide) only [Field.rd, encodeShamt6, extract_or, extract_put_same, extract_put_outside, BitVec.zero_or, BitVec.or_zero]

@[simp] theorem encodeShamt6_rs1 : Field.rs1 (encodeShamt6 funct6 shamt rs1 funct3 rd opcode) = rs1 := by
  simp (disch := decide) only [Field.rs1, encodeShamt6, extract_or, extract_put_same, extract_put_outside, BitVec.zero_or, BitVec.or_zero]

@[simp] theorem encodeShamt6_shamt6 : Field.shamt6 (encodeShamt6 funct6 shamt rs1 funct3 rd opcode) = shamt := by
  simp (disch := decide) only [Field.shamt6, encodeShamt6, extract_or, extract_put_same, extract_put_outside, BitVec.zero_or, BitVec.or_zero]

@[simp] theorem encodeS_rs1 : Field.rs1 (encodeS m rs2 rs1 funct3 opcode) = rs1 := by
  simp (disch := decide) only [Field.rs1, encodeS, extract_or, extract_put_same, extract_put_outside, BitVec.zero_or, BitVec.or_zero]

@[simp] theorem encodeS_rs2 : Field.rs2 (encodeS m rs2 rs1 funct3 opcode) = rs2 := by
  simp (disch := decide) only [Field.rs2, encodeS, extract_or, extract_put_same, extract_put_outside, BitVec.zero_or, BitVec.or_zero]

@[simp] theorem encodeB_rs1 : Field.rs1 (encodeB off rs2 rs1 funct3 opcode) = rs1 := by
  simp (disch := decide) only [Field.rs1, encodeB, extract_or, extract_put_same, extract_put_outside, BitVec.zero_or, BitVec.or_zero]

@[simp] theorem encodeB_rs2 : Field.rs2 (encodeB off rs2 rs1 funct3 opcode) = rs2 := by
  simp (disch := decide) only [Field.rs2, encodeB, extract_or, extract_put_same, extract_put_outside, BitVec.zero_or, BitVec.or_zero]

@[simp] theorem encodeU_rd : Field.rd (encodeU field rd opcode) = rd := by
  simp (disch := decide) only [Field.rd, encodeU, extract_or, extract_put_same, extract_put_outside, BitVec.zero_or, BitVec.or_zero]

@[simp] theorem encodeU_immU : Field.immU (encodeU field rd opcode) = field := by
  simp (disch := decide) only [Field.immU, encodeU, extract_or, extract_put_same, extract_put_outside, BitVec.or_zero]

@[simp] theorem encodeJ_rd : Field.rd (encodeJ joff rd opcode) = rd := by
  simp (disch := decide) only [Field.rd, encodeJ, extract_or, extract_put_same, extract_put_outside, BitVec.zero_or, BitVec.or_zero]

/-! ### The scrambled immediates: cut into groups and put together again -/

theorem join_immS : (put 5 (m.extractLsb' 5 7) ||| put 0 (m.extractLsb' 0 5) : BitVec 12) = m := by
  unfold put
  ext i hi
  interval_cases i <;> simp [BitVec.getLsbD_eq_getElem]

theorem join_offB :
    (put 11 (off.extractLsb' 11 1) ||| put 10 (off.extractLsb' 10 1) ||| put 4 (off.extractLsb' 4 6) |||
      put 0 (off.extractLsb' 0 4) : BitVec 12) = off := by
  unfold put
  ext i hi
  interval_cases i <;> simp [BitVec.getLsbD_eq_getElem]

theorem join_offJ :
    (put 19 (joff.extractLsb' 19 1) ||| put 11 (joff.extractLsb' 11 8) ||| put 10 (joff.extractLsb' 10 1) |||
      put 0 (joff.extractLsb' 0 10) : BitVec 20) = joff := by
  unfold put
  ext i hi
  interval_cases i <;> simp [BitVec.getLsbD_eq_getElem]

@[simp] theorem encodeS_immS : Field.immS (encodeS m rs2 rs1 funct3 opcode) = m := by
  simp (disch := decide) only [Field.immS, encodeS, extract_or, extract_put_same, extract_put_outside, BitVec.zero_or, BitVec.or_zero]
  exact join_immS m

@[simp] theorem encodeB_offB : Field.offB (encodeB off rs2 rs1 funct3 opcode) = off := by
  simp (disch := decide) only [Field.offB, encodeB, extract_or, extract_put_same, extract_put_outside, BitVec.zero_or, BitVec.or_zero]
  exact join_offB off

@[simp] theorem encodeJ_offJ : Field.offJ (encodeJ joff rd opcode) = joff := by
  simp (disch := decide) only [Field.offJ, encodeJ, extract_or, extract_put_same, extract_put_outside, BitVec.zero_or, BitVec.or_zero]
  exact join_offJ joff

/-! ### What a mask leaves of a word -/

theorem and_ones7 (x : BitVec 7) : x &&& 127#7 = x := BitVec.and_allOnes

theorem and_ones12 (x : BitVec 12) : x &&& 4095#12 = x := BitVec.and_allOnes

theorem and_ones5 (x : BitVec 5) : x &&& 31#5 = x := BitVec.and_allOnes

theorem and_ones6 (x : BitVec 6) : x &&& 63#6 = x := BitVec.and_allOnes

theorem and_ones3 (x : BitVec 3) : x &&& 7#3 = x := BitVec.and_allOnes

@[simp] theorem encodeR_masked : encodeR funct7 rs2 rs1 funct3 rd opcode &&& 0xfe00707f#32 = put 25 funct7 ||| put 12 funct3 ||| put 0 opcode := by
  simp [encodeR, or_and, put_and, and_ones7, and_ones3]

@[simp] theorem encodeI_masked : encodeI imm rs1 funct3 rd opcode &&& 0x0000707f#32 = put 12 funct3 ||| put 0 opcode := by
  simp [encodeI, or_and, put_and, and_ones7, and_ones3]

@[simp] theorem encodeI_masked_funct12 :
    encodeI imm rs1 funct3 rd opcode &&& 0xfff0707f#32 = put 20 imm ||| put 12 funct3 ||| put 0 opcode := by
  simp [encodeI, or_and, put_and, and_ones12, and_ones7, and_ones3]

@[simp] theorem encodeI_masked_counter :
    encodeI imm rs1 funct3 rd opcode &&& 0xfffff07f#32 = put 20 imm ||| put 15 rs1 ||| put 12 funct3 ||| put 0 opcode := by
  simp [encodeI, or_and, put_and, and_ones12, and_ones7, and_ones5, and_ones3]

@[simp] theorem encodeShamt6_masked :
    encodeShamt6 funct6 shamt rs1 funct3 rd opcode &&& 0xfc00707f#32 = put 26 funct6 ||| put 12 funct3 ||| put 0 opcode := by
  simp [encodeShamt6, or_and, put_and, and_ones7, and_ones6, and_ones3]

@[simp] theorem encodeS_masked : encodeS m rs2 rs1 funct3 opcode &&& 0x0000707f#32 = put 12 funct3 ||| put 0 opcode := by
  simp [encodeS, or_and, put_and, and_ones7, and_ones3]

@[simp] theorem encodeB_masked : encodeB off rs2 rs1 funct3 opcode &&& 0x0000707f#32 = put 12 funct3 ||| put 0 opcode := by
  simp [encodeB, or_and, put_and, and_ones7, and_ones3]

@[simp] theorem encodeU_masked : encodeU field rd opcode &&& 0x0000007f#32 = put 0 opcode := by
  simp [encodeU, or_and, put_and, and_ones7]

@[simp] theorem encodeJ_masked : encodeJ joff rd opcode &&& 0x0000007f#32 = put 0 opcode := by
  simp [encodeJ, or_and, put_and, and_ones7]

end Sys2Proof.Laws
end

