-- ==== Sys2Proof/Laws/State.lean ====
section
/-! SUPPORT. One lemma per field per update of State, so that no proof unfolds a record update. -/

namespace Sys2Proof.Laws

open Sys2Proof.Machine

@[simp] theorem setPc_pc (s : State) (t : Word) : (s.setPc t).pc = t := rfl
@[simp] theorem setPc_x (s : State) (t : Word) : (s.setPc t).x = s.x := rfl
@[simp] theorem setPc_f (s : State) (t : Word) : (s.setPc t).f = s.f := rfl
@[simp] theorem setPc_csr (s : State) (t : Word) : (s.setPc t).csr = s.csr := rfl
@[simp] theorem setPc_priv (s : State) (t : Word) : (s.setPc t).priv = s.priv := rfl
@[simp] theorem setPc_mem (s : State) (t : Word) : (s.setPc t).mem = s.mem := rfl
@[simp] theorem setPc_status (s : State) (t : Word) : (s.setPc t).status = s.status := rfl
@[simp] theorem setPc_params (s : State) (t : Word) : (s.setPc t).params = s.params := rfl

@[simp] theorem setStatus_pc (s : State) (st : Status) : (s.setStatus st).pc = s.pc := rfl
@[simp] theorem setStatus_x (s : State) (st : Status) : (s.setStatus st).x = s.x := rfl
@[simp] theorem setStatus_f (s : State) (st : Status) : (s.setStatus st).f = s.f := rfl
@[simp] theorem setStatus_csr (s : State) (st : Status) : (s.setStatus st).csr = s.csr := rfl
@[simp] theorem setStatus_priv (s : State) (st : Status) : (s.setStatus st).priv = s.priv := rfl
@[simp] theorem setStatus_mem (s : State) (st : Status) : (s.setStatus st).mem = s.mem := rfl
@[simp] theorem setStatus_status (s : State) (st : Status) : (s.setStatus st).status = st := rfl
@[simp] theorem setStatus_params (s : State) (st : Status) : (s.setStatus st).params = s.params := rfl

@[simp] theorem raise_pc (s : State) (e : Exc) : (s.raise e).pc = s.pc := rfl
@[simp] theorem raise_x (s : State) (e : Exc) : (s.raise e).x = s.x := rfl
@[simp] theorem raise_f (s : State) (e : Exc) : (s.raise e).f = s.f := rfl
@[simp] theorem raise_csr (s : State) (e : Exc) : (s.raise e).csr = s.csr := rfl
@[simp] theorem raise_priv (s : State) (e : Exc) : (s.raise e).priv = s.priv := rfl
@[simp] theorem raise_mem (s : State) (e : Exc) : (s.raise e).mem = s.mem := rfl
@[simp] theorem raise_status (s : State) (e : Exc) : (s.raise e).status = .faulted e := rfl
@[simp] theorem raise_params (s : State) (e : Exc) : (s.raise e).params = s.params := rfl

@[simp] theorem advance_pc (s : State) : (s.advance).pc = s.pc + 4#64 := rfl
@[simp] theorem advance_x (s : State) : (s.advance).x = s.x := rfl
@[simp] theorem advance_f (s : State) : (s.advance).f = s.f := rfl
@[simp] theorem advance_csr (s : State) : (s.advance).csr = s.csr := rfl
@[simp] theorem advance_priv (s : State) : (s.advance).priv = s.priv := rfl
@[simp] theorem advance_mem (s : State) : (s.advance).mem = s.mem := rfl
@[simp] theorem advance_status (s : State) : (s.advance).status = s.status := rfl
@[simp] theorem advance_params (s : State) : (s.advance).params = s.params := rfl

@[simp] theorem writeCsr_pc (s : State) (c : CsrIdx) (v : Word) : (s.writeCsr c v).pc = s.pc := rfl
@[simp] theorem writeCsr_x (s : State) (c : CsrIdx) (v : Word) : (s.writeCsr c v).x = s.x := rfl
@[simp] theorem writeCsr_f (s : State) (c : CsrIdx) (v : Word) : (s.writeCsr c v).f = s.f := rfl
@[simp] theorem writeCsr_csr (s : State) (c : CsrIdx) (v : Word) : (s.writeCsr c v).csr = Sparse.write s.csr c.toNat v := rfl
@[simp] theorem writeCsr_priv (s : State) (c : CsrIdx) (v : Word) : (s.writeCsr c v).priv = s.priv := rfl
@[simp] theorem writeCsr_mem (s : State) (c : CsrIdx) (v : Word) : (s.writeCsr c v).mem = s.mem := rfl
@[simp] theorem writeCsr_status (s : State) (c : CsrIdx) (v : Word) : (s.writeCsr c v).status = s.status := rfl
@[simp] theorem writeCsr_params (s : State) (c : CsrIdx) (v : Word) : (s.writeCsr c v).params = s.params := rfl

@[simp] theorem writeReg_pc (s : State) (i : RegIdx) (v : Word) : (s.writeReg i v).pc = s.pc := by
  unfold State.writeReg; split <;> rfl
@[simp] theorem writeReg_f (s : State) (i : RegIdx) (v : Word) : (s.writeReg i v).f = s.f := by
  unfold State.writeReg; split <;> rfl
@[simp] theorem writeReg_csr (s : State) (i : RegIdx) (v : Word) : (s.writeReg i v).csr = s.csr := by
  unfold State.writeReg; split <;> rfl
@[simp] theorem writeReg_priv (s : State) (i : RegIdx) (v : Word) : (s.writeReg i v).priv = s.priv := by
  unfold State.writeReg; split <;> rfl
@[simp] theorem writeReg_mem (s : State) (i : RegIdx) (v : Word) : (s.writeReg i v).mem = s.mem := by
  unfold State.writeReg; split <;> rfl
@[simp] theorem writeReg_status (s : State) (i : RegIdx) (v : Word) : (s.writeReg i v).status = s.status := by
  unfold State.writeReg; split <;> rfl
@[simp] theorem writeReg_params (s : State) (i : RegIdx) (v : Word) : (s.writeReg i v).params = s.params := by
  unfold State.writeReg; split <;> rfl

/-- `x0` discards what is written (R22). -/
@[simp] theorem writeReg_zero (s : State) (v : Word) : s.writeReg 0#5 v = s := rfl

/-! What the accessors see of an update of another part of the state. -/

@[simp] theorem readReg_setPc (s : State) (t : Word) (r : RegIdx) : (s.setPc t).readReg r = s.readReg r := rfl
@[simp] theorem readCsr_setPc (s : State) (t : Word) (k : CsrIdx) : (s.setPc t).readCsr k = s.readCsr k := rfl
@[simp] theorem readByte_setPc (s : State) (t : Word) (b : Nat) : (s.setPc t).readByte b = s.readByte b := rfl
@[simp] theorem readReg_setStatus (s : State) (st : Status) (r : RegIdx) : (s.setStatus st).readReg r = s.readReg r := rfl
@[simp] theorem readCsr_setStatus (s : State) (st : Status) (k : CsrIdx) : (s.setStatus st).readCsr k = s.readCsr k := rfl
@[simp] theorem readByte_setStatus (s : State) (st : Status) (b : Nat) : (s.setStatus st).readByte b = s.readByte b := rfl
@[simp] theorem readReg_raise (s : State) (e : Exc) (r : RegIdx) : (s.raise e).readReg r = s.readReg r := rfl
@[simp] theorem readCsr_raise (s : State) (e : Exc) (k : CsrIdx) : (s.raise e).readCsr k = s.readCsr k := rfl
@[simp] theorem readByte_raise (s : State) (e : Exc) (b : Nat) : (s.raise e).readByte b = s.readByte b := rfl
@[simp] theorem readReg_advance (s : State) (r : RegIdx) : (s.advance).readReg r = s.readReg r := rfl
@[simp] theorem readCsr_advance (s : State) (k : CsrIdx) : (s.advance).readCsr k = s.readCsr k := rfl
@[simp] theorem readByte_advance (s : State) (b : Nat) : (s.advance).readByte b = s.readByte b := rfl
@[simp] theorem readReg_writeCsr (s : State) (c : CsrIdx) (v : Word) (r : RegIdx) : (s.writeCsr c v).readReg r = s.readReg r := rfl
@[simp] theorem readByte_writeCsr (s : State) (c : CsrIdx) (v : Word) (b : Nat) : (s.writeCsr c v).readByte b = s.readByte b := rfl
@[simp] theorem readCsr_writeReg (s : State) (i : RegIdx) (v : Word) (k : CsrIdx) : (s.writeReg i v).readCsr k = s.readCsr k := by
  simp [State.readCsr]
@[simp] theorem readByte_writeReg (s : State) (i : RegIdx) (v : Word) (b : Nat) : (s.writeReg i v).readByte b = s.readByte b := by
  simp [State.readByte]

/-! The loader writes memory alone. -/

@[simp] theorem loadBytes_pc (s : State) (a : Nat) (bs : List Byte) : (s.loadBytes a bs).pc = s.pc := by
  induction bs generalizing s a with
  | nil => rfl
  | cons b rest ih => rw [State.loadBytes, ih]; split <;> rfl
@[simp] theorem loadBytes_x (s : State) (a : Nat) (bs : List Byte) : (s.loadBytes a bs).x = s.x := by
  induction bs generalizing s a with
  | nil => rfl
  | cons b rest ih => rw [State.loadBytes, ih]; split <;> rfl
@[simp] theorem loadBytes_f (s : State) (a : Nat) (bs : List Byte) : (s.loadBytes a bs).f = s.f := by
  induction bs generalizing s a with
  | nil => rfl
  | cons b rest ih => rw [State.loadBytes, ih]; split <;> rfl
@[simp] theorem loadBytes_csr (s : State) (a : Nat) (bs : List Byte) : (s.loadBytes a bs).csr = s.csr := by
  induction bs generalizing s a with
  | nil => rfl
  | cons b rest ih => rw [State.loadBytes, ih]; split <;> rfl
@[simp] theorem loadBytes_priv (s : State) (a : Nat) (bs : List Byte) : (s.loadBytes a bs).priv = s.priv := by
  induction bs generalizing s a with
  | nil => rfl
  | cons b rest ih => rw [State.loadBytes, ih]; split <;> rfl
@[simp] theorem loadBytes_status (s : State) (a : Nat) (bs : List Byte) : (s.loadBytes a bs).status = s.status := by
  induction bs generalizing s a with
  | nil => rfl
  | cons b rest ih => rw [State.loadBytes, ih]; split <;> rfl
@[simp] theorem loadBytes_params (s : State) (a : Nat) (bs : List Byte) : (s.loadBytes a bs).params = s.params := by
  induction bs generalizing s a with
  | nil => rfl
  | cons b rest ih => rw [State.loadBytes, ih]; split <;> rfl

end Sys2Proof.Laws
end

