-- ==== Sys2Proof/Laws/Sparse.lean ====
section
/-! SUPPORT. Sparse stores: reading after writing, and that every write keeps the one canonical form. -/

namespace Sys2Proof.Laws

open Sys2Proof.Machine

variable {n : Nat}

theorem read_remove_same (m : List (Nat × BitVec n)) (a : Nat) : Sparse.read (Sparse.remove m a) a = unlisted n := by
  induction m with
  | nil => rfl
  | cons c rest ih =>
    unfold Sparse.remove at ih ⊢
    by_cases h : c.1 = a
    · simpa [List.filter_cons, h] using ih
    · simpa [List.filter_cons, Sparse.read, h] using ih

theorem read_remove_other (m : List (Nat × BitVec n)) {a b : Nat} (hab : b ≠ a) :
    Sparse.read (Sparse.remove m a) b = Sparse.read m b := by
  induction m with
  | nil => rfl
  | cons c rest ih =>
    unfold Sparse.remove at ih ⊢
    by_cases h : c.1 = a
    · simp [Sparse.read, h, ih, Ne.symm hab]
    · by_cases hb : c.1 = b
      · simp [Sparse.read, hb, hab]
      · simp [Sparse.read, h, hb, ih]

theorem read_insert_other (m : List (Nat × BitVec n)) {a b : Nat} (v : BitVec n) (hab : b ≠ a) :
    Sparse.read (Sparse.insert m a v) b = Sparse.read m b := by
  induction m with
  | nil => simp [Sparse.insert, Sparse.read, Ne.symm hab]
  | cons c rest ih =>
    unfold Sparse.insert
    split
    · simp [Sparse.read, Ne.symm hab]
    · by_cases hb : c.1 = b <;> simp [Sparse.read, hb, ih]

theorem read_insert_same (m : List (Nat × BitVec n)) {a : Nat} (v : BitVec n) (hm : ∀ c ∈ m, c.1 ≠ a) :
    Sparse.read (Sparse.insert m a v) a = v := by
  induction m with
  | nil => simp [Sparse.insert, Sparse.read]
  | cons c rest ih =>
    have hc : c.1 ≠ a := hm c (by simp)
    have hr := ih fun d hd => hm d (by simp [hd])
    by_cases h : a < c.1 <;> simp [Sparse.insert, Sparse.read, h, hc, hr]

theorem remove_keys (m : List (Nat × BitVec n)) (a : Nat) : ∀ c ∈ Sparse.remove m a, c.1 ≠ a := by
  intro c hc
  simpa using (List.mem_filter.mp hc).2

/-- A read after a write to the same key gives the value written. -/
@[simp] theorem read_write_same (m : List (Nat × BitVec n)) (a : Nat) (v : BitVec n) :
    Sparse.read (Sparse.write m a v) a = v := by
  unfold Sparse.write
  split
  · next h => rw [read_remove_same, h]
  · exact read_insert_same _ v (remove_keys m a)

/-- A write leaves every other key alone. -/
theorem read_write_other (m : List (Nat × BitVec n)) {a b : Nat} (v : BitVec n) (hab : b ≠ a) :
    Sparse.read (Sparse.write m a v) b = Sparse.read m b := by
  unfold Sparse.write
  split
  · exact read_remove_other m hab
  · rw [read_insert_other _ v hab, read_remove_other m hab]

theorem read_write (m : List (Nat × BitVec n)) (a b : Nat) (v : BitVec n) :
    Sparse.read (Sparse.write m a v) b = if b = a then v else Sparse.read m b := by
  split
  · next h => rw [h, read_write_same]
  · next h => exact read_write_other m v h

/-! ### The canonical form -/

theorem canonicalFrom_weaken {m : List (Nat × BitVec n)} {lo hi : Nat} (hle : lo ≤ hi)
    (h : Sparse.canonicalFrom hi m = true) : Sparse.canonicalFrom lo m = true := by
  cases m with
  | nil => rfl
  | cons c rest =>
    simp only [Sparse.canonicalFrom, Bool.and_eq_true, decide_eq_true_eq] at h ⊢
    exact ⟨⟨by omega, h.1.2⟩, h.2⟩

theorem canonicalFrom_remove {m : List (Nat × BitVec n)} {lo : Nat} (a : Nat)
    (h : Sparse.canonicalFrom lo m = true) : Sparse.canonicalFrom lo (Sparse.remove m a) = true := by
  induction m generalizing lo with
  | nil => rfl
  | cons c rest ih =>
    unfold Sparse.remove at ih ⊢
    simp only [Sparse.canonicalFrom, Bool.and_eq_true, decide_eq_true_eq] at h
    by_cases hc : c.1 = a
    · simpa [List.filter_cons, hc] using canonicalFrom_weaken (by omega) (ih h.2)
    · simpa [List.filter_cons, hc, Sparse.canonicalFrom, h.1.1, h.1.2] using ih h.2

theorem canonicalFrom_insert {m : List (Nat × BitVec n)} {lo a : Nat} {v : BitVec n} (hlo : lo ≤ a) (hv : v ≠ unlisted n)
    (hm : ∀ c ∈ m, c.1 ≠ a) (h : Sparse.canonicalFrom lo m = true) : Sparse.canonicalFrom lo (Sparse.insert m a v) = true := by
  induction m generalizing lo with
  | nil => simp [Sparse.insert, Sparse.canonicalFrom, hlo, hv]
  | cons c rest ih =>
    have hc : c.1 ≠ a := hm c (by simp)
    simp only [Sparse.canonicalFrom, Bool.and_eq_true, decide_eq_true_eq] at h
    by_cases hlt : a < c.1
    · simp [Sparse.insert, hlt, Sparse.canonicalFrom, hlo, hv, h.1.2, h.2]
    · have hr := ih (lo := c.1 + 1) (by omega) (fun d hd => hm d (by simp [hd])) h.2
      simpa [Sparse.insert, hlt, Sparse.canonicalFrom, h.1.1, h.1.2] using hr

theorem canonicalFrom_write {m : List (Nat × BitVec n)} {lo a : Nat} (v : BitVec n) (hlo : lo ≤ a)
    (h : Sparse.canonicalFrom lo m = true) : Sparse.canonicalFrom lo (Sparse.write m a v) = true := by
  unfold Sparse.write
  split
  · exact canonicalFrom_remove a h
  · next hv => exact canonicalFrom_insert hlo hv (remove_keys m a) (canonicalFrom_remove a h)

/-- Every write keeps the canonical form. -/
theorem canonical_write {m : List (Nat × BitVec n)} (a : Nat) (v : BitVec n) (h : Sparse.canonical m = true) :
    Sparse.canonical (Sparse.write m a v) = true :=
  canonicalFrom_write v (Nat.zero_le a) h

/-- What writes leave is canonical, whatever the writes. -/
theorem canonical_ofWrites (ws : List (Nat × BitVec n)) : Sparse.canonical (Sparse.ofWrites ws) = true := by
  unfold Sparse.ofWrites
  suffices h : ∀ m : List (Nat × BitVec n), Sparse.canonical m = true →
      Sparse.canonical (ws.foldl (fun m c => Sparse.write m c.1 c.2) m) = true from h [] rfl
  induction ws with
  | nil => exact fun m hm => hm
  | cons c rest ih => exact fun m hm => ih _ (canonical_write c.1 c.2 hm)

/-! ### Which keys are listed -/

theorem mem_insert {m : List (Nat × BitVec n)} {a : Nat} {v : BitVec n} {c : Nat × BitVec n}
    (h : c ∈ Sparse.insert m a v) : c.1 = a ∨ c ∈ m := by
  induction m with
  | nil => simp [Sparse.insert] at h; exact .inl (by simp [h])
  | cons d rest ih =>
    unfold Sparse.insert at h
    split at h
    · rcases List.mem_cons.mp h with h | h
      · exact .inl (by simp [h])
      · exact .inr h
    · rcases List.mem_cons.mp h with h | h
      · exact .inr (by simp [h])
      · rcases ih h with h | h
        · exact .inl h
        · exact .inr (by simp [h])

/-- A write lists no key but its own and those listed before. -/
theorem mem_write {m : List (Nat × BitVec n)} {a : Nat} {v : BitVec n} {c : Nat × BitVec n}
    (h : c ∈ Sparse.write m a v) : c.1 = a ∨ c ∈ m := by
  unfold Sparse.write at h
  split at h
  · exact .inr (List.mem_filter.mp h).1
  · rcases mem_insert h with h | h
    · exact .inl h
    · exact .inr (List.mem_filter.mp h).1

theorem mem_ofWrites {ws : List (Nat × BitVec n)} {c : Nat × BitVec n} (h : c ∈ Sparse.ofWrites ws) :
    ∃ d ∈ ws, c.1 = d.1 := by
  unfold Sparse.ofWrites at h
  suffices hs : ∀ m : List (Nat × BitVec n), c ∈ ws.foldl (fun m c => Sparse.write m c.1 c.2) m →
      c ∈ m ∨ ∃ d ∈ ws, c.1 = d.1 by
    rcases hs [] h with h | h
    · cases h
    · exact h
  clear h
  induction ws with
  | nil => exact fun m hm => .inl hm
  | cons d rest ih =>
    intro m hm
    rcases ih _ hm with h | ⟨e, he, hce⟩
    · rcases mem_write h with h | h
      · exact .inr ⟨d, by simp, h⟩
      · exact .inl h
    · exact .inr ⟨e, by simp [he], hce⟩

end Sys2Proof.Laws
end

