-- ==== Sys2Proof/Laws/Memory.lean ====
section
/-! SUPPORT. Memory accesses: which byte a store writes where, what a load reads, the canonical form, the mapped region
(spec/20_memory.md R50 to R55). -/

namespace Sys2Proof.Laws

open Sys2Proof.Machine

/-- Byte `k` of a word, `v[8k+7:8k]` (R52). -/
def byteOf (v : Word) (k : Nat) : Byte := v.extractLsb' (8 * k) 8

/-- The byte at any address after a store of `n` bytes from `a`: byte `b - a` of the value inside, the old byte outside (R54). -/
theorem read_storeBytesLE (m : List Host.Cell) (a b : Nat) (v : Word) (n : Nat) :
    Sparse.read (storeBytesLE m a v n) b = if a ≤ b ∧ b < a + n then byteOf v (b - a) else Sparse.read m b := by
  induction n generalizing m a v with
  | zero => simp [storeBytesLE]
  | succ n ih =>
    rw [storeBytesLE, ih, read_write]
    by_cases hin : a + 1 ≤ b ∧ b < a + 1 + n
    · have h2 : a ≤ b ∧ b < a + (n + 1) := by omega
      rw [if_pos hin, if_pos h2]
      have hk : b - a = b - (a + 1) + 1 := by omega
      rw [hk]
      ext i hi
      simp only [byteOf, BitVec.getElem_extractLsb', BitVec.getLsbD_ushiftRight]
      congr 1; omega
    · rw [if_neg hin]
      by_cases hb : b = a
      · subst hb
        rw [if_pos rfl, if_pos (by omega)]
        ext i hi
        simp [byteOf]
      · rw [if_neg hb, if_neg (by omega)]

/-- Bit by bit, a load of `n` bytes from `a`: bit `j` of the byte at `a + k` is bit `8k + j`, every bit above is 0 (R53). -/
theorem getLsbD_loadBytesLE (m : List Host.Cell) (a n j : Nat) (hn : n ≤ 8) :
    (loadBytesLE m a n).getLsbD j = (decide (j < 8 * n) && (Sparse.read m (a + j / 8)).getLsbD (j % 8)) := by
  induction n generalizing a j with
  | zero => simp [loadBytesLE]
  | succ n ih =>
    simp only [loadBytesLE, BitVec.getLsbD_or, BitVec.getLsbD_shiftLeft, BitVec.getLsbD_setWidth]
    by_cases h8 : j < 8
    · have hd : j / 8 = 0 := by omega
      have hm : j % 8 = j := by omega
      simp [h8, hd, hm, show j < 64 by omega, show j < 8 * (n + 1) by omega]
    · rw [ih (a + 1) (j - 8) (by omega)]
      have hd : a + 1 + (j - 8) / 8 = a + j / 8 := by omega
      have hm : (j - 8) % 8 = j % 8 := by omega
      have hz : (Sparse.read m a).getLsbD j = false := BitVec.getLsbD_of_ge _ _ (by omega)
      rw [hd, hm, hz]
      by_cases hj : j < 8 * (n + 1)
      · simp [h8, hj, show j < 64 by omega, show j - 8 < 8 * n by omega]
      · simp [hj, show ¬ (j - 8 < 8 * n) by omega]

theorem canonical_storeBytesLE {m : List Host.Cell} (a : Nat) (v : Word) (n : Nat) (h : Sparse.canonical m = true) :
    Sparse.canonical (storeBytesLE m a v n) = true := by
  induction n generalizing m a v with
  | zero => exact h
  | succ n ih => exact ih _ _ (canonical_write a _ h)

/-- A store lists no address but its own bytes and those listed before. -/
theorem mem_storeBytesLE {m : List Host.Cell} {a : Nat} {v : Word} {n : Nat} {c : Host.Cell}
    (h : c ∈ storeBytesLE m a v n) : (a ≤ c.1 ∧ c.1 < a + n) ∨ c ∈ m := by
  induction n generalizing m a v with
  | zero => exact .inr h
  | succ n ih =>
    rcases ih h with h | h
    · exact .inl (by omega)
    · rcases mem_write h with h | h
      · exact .inl (by omega)
      · exact .inr h

/-! ### The two primitives -/

/-- What `MemWrite` can do: answer the state with the bytes stored, in range; or nothing, out of range (R54, R55). -/
theorem memWrite_cases (s : State) (addr : Word) (w : Width) (v : Word) :
    (inRange s.params addr w.bytes = true ∧
      s.memWrite addr w v = some { s with mem := storeBytesLE s.mem addr.toNat v w.bytes }) ∨
    (inRange s.params addr w.bytes = false ∧ s.memWrite addr w v = none) := by
  unfold State.memWrite
  cases h : inRange s.params addr w.bytes <;> simp

/-- What `MemRead` can do (R53, R55). -/
theorem memRead_cases (s : State) (addr : Word) (w : Width) :
    (inRange s.params addr w.bytes = true ∧ s.memRead addr w = some (loadBytesLE s.mem addr.toNat w.bytes)) ∨
    (inRange s.params addr w.bytes = false ∧ s.memRead addr w = none) := by
  unfold State.memRead
  cases h : inRange s.params addr w.bytes <;> simp

theorem inRange_iff (p : Params) (addr : Word) (n : Nat) :
    inRange p addr n = true ↔ p.memBase.toNat ≤ addr.toNat ∧ addr.toNat + n ≤ memTop p := by
  simp [inRange]

theorem mapped_iff (p : Params) (a : Nat) : mapped p a = true ↔ p.memBase.toNat ≤ a ∧ a < memTop p := by
  simp [mapped]

theorem width_bytes_pos (w : Width) : 0 < w.bytes := by cases w <;> decide

theorem width_bytes_le (w : Width) : w.bytes ≤ 8 := by cases w <;> decide

/-- In range means every byte of the access is mapped (R55). -/
theorem inRange_iff_mapped (p : Params) (addr : Word) (w : Width) :
    inRange p addr w.bytes = true ↔ ∀ k < w.bytes, mapped p (addr.toNat + k) = true := by
  rw [inRange_iff]
  constructor
  · intro h k hk
    rw [mapped_iff]; omega
  · intro h
    have hp := width_bytes_pos w
    have h0 := (mapped_iff _ _).mp (h 0 hp)
    have h1 := (mapped_iff _ _).mp (h (w.bytes - 1) (by omega))
    omega

end Sys2Proof.Laws
end

