-- ==== Sys2Proof/Laws/Operands.lean ====
section
/-! SUPPORT. The operand forms in terms of the library's sign and zero extension (spec/00_scope.md R8, spec/30_encoding.md R83 to R89). -/

namespace Sys2Proof.Laws

open Sys2Proof.Machine

/-- R8's shifts are sign extension of the low `n` bits. -/
theorem sext_eq (n : Nat) (v : Word) (hn : 0 < n) (h64 : n ≤ 64) : sext n v = (v.setWidth n).signExtend 64 := by
  ext i hi
  simp only [sext, BitVec.getElem_sshiftRight, BitVec.getElem_signExtend, BitVec.msb_eq_getLsbD_last]
  by_cases h : i < n
  · have h1 : 64 - n + i < 64 := by omega
    have h2 : ¬ (64 - n + i < 64 - n) := by omega
    simp [h, h1, h2, BitVec.getLsbD_eq_getElem hi]
  · have h1 : ¬ (64 - n + i < 64) := by omega
    have h2 : ¬ (63 < 64 - n) := by omega
    have h3 : 63 - (64 - n) = n - 1 := by omega
    simp [h, h1, h2, h3, hn, BitVec.getLsbD_eq_getElem (show n - 1 < 64 by omega)]

theorem sext_setWidth {n : Nat} (x : BitVec n) (hn : 0 < n) (h64 : n ≤ 64) : sext n (x.setWidth 64) = x.signExtend 64 := by
  rw [sext_eq n _ hn h64, BitVec.setWidth_setWidth_of_le x h64, BitVec.setWidth_eq]

theorem immI_eq (imm : BitVec 12) : immI imm = imm.signExtend 64 := sext_setWidth imm (by decide) (by decide)

theorem immS_eq (imm : BitVec 12) : immS imm = imm.signExtend 64 := sext_setWidth imm (by decide) (by decide)

theorem immB_eq (off : BitVec 12) : immB off = (off ++ 0#1).signExtend 64 := sext_setWidth (off ++ 0#1) (by decide) (by decide)

theorem immJ_eq (off : BitVec 20) : immJ off = (off ++ 0#1).signExtend 64 := sext_setWidth (off ++ 0#1) (by decide) (by decide)

theorem immU_eq (field : BitVec 20) : immU field = field.signExtend 64 <<< 12 := by
  unfold immU; rw [sext_setWidth field (by decide) (by decide)]

theorem ofLow32_eq (r : BitVec 32) : ofLow32 r = r.signExtend 64 := sext_setWidth r (by decide) (by decide)

theorem low32_eq (v : Word) : low32 v = v.setWidth 32 := by
  simp [low32, BitVec.setWidth_eq_extractLsb']

/-- Zero extension of the low `n` bits (R8). -/
theorem zext_eq (n : Nat) (v : Word) : zext n v = (v.setWidth n).setWidth 64 := by
  ext i hi
  simp only [zext, BitVec.getElem_and, BitVec.getElem_setWidth, BitVec.getLsbD_setWidth]
  rw [← BitVec.getLsbD_eq_getElem hi, ← BitVec.getLsbD_eq_getElem hi]
  simp only [BitVec.getLsbD_ofNat, hi, decide_true, Bool.true_and, Nat.testBit_two_pow_sub_one]
  rw [Bool.and_comm]

theorem amount6_eq (v : Word) : amount6 v = v.toNat % 64 := by
  simp only [amount6, BitVec.toNat_and]
  exact Nat.and_two_pow_sub_one_eq_mod v.toNat 6

theorem amount5_eq (v : Word) : amount5 v = v.toNat % 32 := by
  simp only [amount5, BitVec.toNat_and]
  exact Nat.and_two_pow_sub_one_eq_mod v.toNat 5

end Sys2Proof.Laws
end

