-- ==== Sys2Proof/Laws/Registers.lean ====
section
/-! SUPPORT. General registers and CSRs: reading after writing (spec/10_state.md R22, R23, R26). -/

namespace Sys2Proof.Laws

open Sys2Proof.Machine

theorem regIdx_pos {i : RegIdx} (h : i ≠ 0#5) : 1 ≤ i.toNat := by
  rcases Nat.eq_zero_or_pos i.toNat with h0 | h0
  · exact absurd (BitVec.eq_of_toNat_eq (by simpa using h0)) h
  · exact h0

/-- `x0` always reads 0 (R22). -/
@[simp] theorem readReg_zero (s : State) : s.readReg 0#5 = 0#64 := rfl

/-- Reading back what was written: the value, or 0 from `x0` (R23). -/
@[simp] theorem readReg_writeReg_same (s : State) (i : RegIdx) (v : Word) :
    (s.writeReg i v).readReg i = if i = 0#5 then 0#64 else v := by
  by_cases h : i = 0#5
  · simp [h]
  · have hi := regIdx_pos h
    have hlt : i.toNat - 1 < 31 := by have := i.isLt; omega
    simp [State.readReg, State.writeReg, h, hlt]

/-- A write leaves every other register alone (R23). -/
theorem readReg_writeReg_other (s : State) {i r : RegIdx} (v : Word) (h : r ≠ i) :
    (s.writeReg i v).readReg r = s.readReg r := by
  by_cases hi : i = 0#5
  · simp [hi]
  · by_cases hr : r = 0#5
    · simp [hr]
    · have h1 := regIdx_pos hi
      have h2 := regIdx_pos hr
      have hne : i.toNat - 1 ≠ r.toNat - 1 := by
        intro he
        exact h (BitVec.eq_of_toNat_eq (by omega))
      simp [State.readReg, State.writeReg, hi, hr, hne]

theorem readReg_writeReg (s : State) (i r : RegIdx) (v : Word) :
    (s.writeReg i v).readReg r = if r = i then (if i = 0#5 then 0#64 else v) else s.readReg r := by
  split
  · next h => rw [h, readReg_writeReg_same]
  · next h => exact readReg_writeReg_other s v h

@[simp] theorem readCsr_writeCsr_same (s : State) (c : CsrIdx) (v : Word) : (s.writeCsr c v).readCsr c = v := by
  simp [State.readCsr]

theorem readCsr_writeCsr_other (s : State) {c k : CsrIdx} (v : Word) (h : k ≠ c) :
    (s.writeCsr c v).readCsr k = s.readCsr k := by
  simp only [State.readCsr, writeCsr_csr]
  exact read_write_other _ v fun he => h (BitVec.eq_of_toNat_eq he)

theorem readCsr_writeCsr (s : State) (c k : CsrIdx) (v : Word) :
    (s.writeCsr c v).readCsr k = if k = c then v else s.readCsr k := by
  split
  · next h => rw [h, readCsr_writeCsr_same]
  · next h => exact readCsr_writeCsr_other s v h

end Sys2Proof.Laws
end

