-- ==== Sys2Proof/Laws/Exec.lean ====
section
/-! SUPPORT. What each shared operation, the execute stage and the step can do, said once. -/

namespace Sys2Proof.Laws

open Sys2Proof.Machine

/-- Everything an execute stage can do to a state (spec/40_execution_loop.md R123, R124, R127). -/
inductive Effect (s : State) : State → Prop where
  /-- A register is written, the next pc is chosen (a write to `x0` writes nothing). -/
  | goes (rd : RegIdx) (v t : Word) : Effect s ((s.writeReg rd v).setPc t)
  /-- A CSR and a register are written, the pc advances. -/
  | csr (c : CsrIdx) (v : Word) (rd : RegIdx) (old : Word) : Effect s (((s.writeCsr c v).writeReg rd old).advance)
  /-- Bytes in range are stored, the pc advances. -/
  | stores (addr : Word) (w : Width) (v : Word) (h : inRange s.params addr w.bytes = true) :
      Effect s (State.advance { s with mem := storeBytesLE s.mem addr.toNat v w.bytes })
  /-- An exception is taken. -/
  | raises (e : Exc) : Effect s (s.raise e)

theorem Effect.advances (s : State) (rd : RegIdx) (v : Word) : Effect s ((s.writeReg rd v).advance) :=
  .goes rd v ((s.writeReg rd v).pc + 4#64)

theorem Effect.moves (s : State) (t : Word) : Effect s (s.setPc t) := by
  simpa using Effect.goes (s := s) 0#5 0#64 t

/-! ### The shared operations -/

theorem retire_effect {rd : RegIdx} {v : Word} {s t : State} (h : retire rd v s = .next t) : Effect s t := by
  unfold retire at h
  cases h
  exact .advances s rd v

/-- A load reads in range and writes its register, or takes the exception (R212, R213). -/
theorem loadFrom_cases (w : Width) (ext : Word → Word) (rd rs1 : RegIdx) (imm : BitVec 12) (s : State) :
    (inRange s.params (s.readReg rs1 + immI imm) w.bytes = true ∧
      loadFrom w ext rd rs1 imm s =
        .next ((s.writeReg rd (ext (loadBytesLE s.mem (s.readReg rs1 + immI imm).toNat w.bytes))).advance)) ∨
    (inRange s.params (s.readReg rs1 + immI imm) w.bytes = false ∧
      loadFrom w ext rd rs1 imm s = .next (s.raise (.memoryAccess .load (s.readReg rs1 + immI imm) w.bytes s.pc))) := by
  unfold loadFrom effective
  rcases memRead_cases s (s.readReg rs1 + immI imm) w with ⟨hr, hm⟩ | ⟨hr, hm⟩ <;> simp [hr, hm, retire]

/-- A store writes its bytes in range, or takes the exception and writes none (R212, R213). -/
theorem storeTo_cases (w : Width) (rs2 rs1 : RegIdx) (imm : BitVec 12) (s : State) :
    (inRange s.params (s.readReg rs1 + immS imm) w.bytes = true ∧
      storeTo w rs2 rs1 imm s =
        .next (State.advance { s with mem := storeBytesLE s.mem (s.readReg rs1 + immS imm).toNat (s.readReg rs2) w.bytes })) ∨
    (inRange s.params (s.readReg rs1 + immS imm) w.bytes = false ∧
      storeTo w rs2 rs1 imm s = .next (s.raise (.memoryAccess .store (s.readReg rs1 + immS imm) w.bytes s.pc))) := by
  unfold storeTo effective
  rcases memWrite_cases s (s.readReg rs1 + immS imm) w (s.readReg rs2) with ⟨hr, hm⟩ | ⟨hr, hm⟩ <;> simp [hr, hm]

theorem loadFrom_effect {w : Width} {ext : Word → Word} {rd rs1 : RegIdx} {imm : BitVec 12} {s t : State}
    (h : loadFrom w ext rd rs1 imm s = .next t) : Effect s t := by
  rcases loadFrom_cases w ext rd rs1 imm s with ⟨_, he⟩ | ⟨_, he⟩ <;> rw [he] at h <;> cases h
  · exact .advances s rd _
  · exact .raises _

theorem storeTo_effect {w : Width} {rs2 rs1 : RegIdx} {imm : BitVec 12} {s t : State}
    (h : storeTo w rs2 rs1 imm s = .next t) : Effect s t := by
  rcases storeTo_cases w rs2 rs1 imm s with ⟨hr, he⟩ | ⟨_, he⟩ <;> rw [he] at h <;> cases h
  · exact .stores _ w _ hr
  · exact .raises _

theorem branchIf_effect {taken : Bool} {off : BitVec 12} {s t : State} (h : branchIf taken off s = .next t) : Effect s t := by
  unfold branchIf at h
  cases h
  exact .moves s _

theorem linkAndJump_effect {rd : RegIdx} {p : Word} {s t : State} (h : linkAndJump rd p s = .next t) : Effect s t := by
  unfold linkAndJump at h
  cases h
  exact .goes rd _ p

theorem csrUpdate_effect {rd : RegIdx} {c : CsrIdx} {new : Word → Option Word} {s t : State}
    (h : csrUpdate rd c new s = .next t) : Effect s t := by
  unfold csrUpdate retire at h
  split at h <;> cases h
  · exact .csr c _ rd _
  · exact .advances s rd _

theorem noEffect_effect {s t : State} (h : noEffect s = .next t) : Effect s t := by
  unfold noEffect at h
  cases h
  exact .moves s _

/-! ### The execute stage and the step -/

/-- If an instruction answers a next state, that state is one of the effects above. -/
theorem exec_effect {i : Instr} {s t : State} (h : exec i s = .next t) : Effect s t := by
  cases i
  case ecall => cases h; exact .raises _
  case beq | bne | blt | bge | bltu | bgeu => exact branchIf_effect h
  case jal | jalr => exact linkAndJump_effect h
  case lb | lh | lw | ld | lbu | lhu | lwu => exact loadFrom_effect h
  case sb | sh | sw | sd => exact storeTo_effect h
  case csrrw | csrrs | csrrc | csrrwi | csrrsi | csrrci =>
    simp only [exec, execCsrrw, execCsrrs, execCsrrc, execCsrrwi, execCsrrsi, execCsrrci] at h
    exact csrUpdate_effect h
  case ebreak | fence | fenceTso | pause | rdcycle | rdtime | rdinstret | rdcycleh | rdtimeh | rdinstreth =>
    exact noEffect_effect h
  all_goals exact retire_effect h

/-- What a step can do when it answers a next state: the machine was running under accepted parameters, and the state is the executed
one, or the same state `Exhausted` or `Faulted` (R129). -/
theorem step_cases {s t : State} (h : step s = .next t) :
    accepted s.params = true ∧ s.status = .running ∧
      (t = s.setStatus .exhausted ∨ (∃ e, t = s.raise e) ∨
        ∃ w i, fetch s = .word w ∧ decode w = some i ∧ exec i s = .next t) := by
  unfold step at h
  split at h
  · cases h
  · next ha =>
    split at h
    · cases h
    · next hs =>
      refine ⟨by simpa using ha, by simpa using hs, ?_⟩
      split at h
      · cases h; exact .inl rfl
      · cases h; exact .inr (.inl ⟨_, rfl⟩)
      · next w hf =>
        split at h
        · cases h; exact .inr (.inl ⟨_, rfl⟩)
        · next i hd => exact .inr (.inr ⟨w, i, hf, hd, h⟩)

/-- A step is an effect, or exhaustion. -/
theorem step_effect {s t : State} (h : step s = .next t) : t = s.setStatus .exhausted ∨ Effect s t := by
  rcases (step_cases h).2.2 with rfl | ⟨e, rfl⟩ | ⟨w, i, _, _, hx⟩
  · exact .inl rfl
  · exact .inr (.raises e)
  · exact .inr (exec_effect hx)

end Sys2Proof.Laws
end

