-- ==== Sys2Proof/Laws/Frames.lean ====
section
/-! SUPPORT. Each shared operation in the terms of Safety.lean, said once: what it writes, where it goes, that it leaves the rest alone;
and each `Encoded…` clause from one entry of the table. -/

namespace Sys2Proof.Laws

open Sys2Proof.Machine

/-! ### The four shapes of a completed instruction -/

theorem goesOnly_setPc (s : State) (next : Word) : GoesOnly s (s.setPc next) next := by
  simp [GoesOnly, SameRegisters, SameCsrs, SameMemory, SameElsewhere, State.readCsr, State.readByte]

theorem writesOnly_setPc (s : State) (rd : RegIdx) (v next : Word) : WritesOnly s ((s.writeReg rd v).setPc next) rd v next := by
  refine ⟨rfl, fun r => ?_, fun c => by simp [State.readCsr], fun a => by simp [State.readByte], by simp [SameElsewhere]⟩
  rw [readReg_setPc, readReg_writeReg]
  by_cases h : r = rd
  · subst h
    by_cases h0 : r = 0#5
    · simp [h0]
    · simp [h0]
  · simp [h]

theorem swapsCsrOnly (s : State) (rd : RegIdx) (c : CsrIdx) (new : Word) :
    SwapsCsrOnly s (((s.writeCsr c new).writeReg rd (s.readCsr c)).advance) rd c new := by
  refine ⟨by simp, fun r => ?_, fun k => ?_, fun a => by simp [State.readByte], by simp [SameElsewhere]⟩
  · have h := (writesOnly_setPc (s.writeCsr c new) rd (s.readCsr c) 0#64).2.1 r
    simpa [State.advance] using h
  · have h := readCsr_writeCsr s c k new
    simpa [State.readCsr] using h

theorem storesOnly (s : State) (ea : Word) (n : Nat) (v : Word) :
    StoresOnly s (State.advance { s with mem := storeBytesLE s.mem ea.toNat v n }) ea n v := by
  refine ⟨rfl, fun k hk => ?_, fun a ha => ?_, fun r => rfl, fun c => rfl, by simp [SameElsewhere]⟩
  · simp only [State.readByte, advance_mem, read_storeBytesLE]
    rw [if_pos (by omega), byteOf, Nat.add_sub_cancel_left]
  · simp only [State.readByte, advance_mem, read_storeBytesLE]
    rw [if_neg (by omega)]

/-! ### The shared operations -/

theorem retire_writesOnly (s : State) (rd : RegIdx) (v : Word) :
    ∃ t, retire rd v s = .next t ∧ WritesOnly s t rd v (s.pc + 4#64) := by
  refine ⟨_, rfl, ?_⟩
  have h := writesOnly_setPc s rd v (s.pc + 4#64)
  simpa [State.advance] using h

theorem linkAndJump_writesOnly (s : State) (rd : RegIdx) (target : Word) :
    ∃ t, linkAndJump rd target s = .next t ∧ WritesOnly s t rd (s.pc + 4#64) target :=
  ⟨_, rfl, writesOnly_setPc s rd _ target⟩

theorem branchIf_goesOnly (s : State) (taken : Bool) (off : BitVec 12) :
    ∃ t, branchIf taken off s = .next t ∧ GoesOnly s t (if taken then s.pc + immB off else s.pc + 4#64) :=
  ⟨_, rfl, goesOnly_setPc s _⟩

theorem noEffect_goesOnly (s : State) : ∃ t, noEffect s = .next t ∧ GoesOnly s t (s.pc + 4#64) :=
  ⟨_, rfl, goesOnly_setPc s _⟩

/-- A read-modify-write leaves in the CSR the new value, or the old one where it is suppressed. -/
theorem csrUpdate_swapsCsrOnly (s : State) (rd : RegIdx) (c : CsrIdx) (new : Word → Option Word) :
    ∃ t, csrUpdate rd c new s = .next t ∧ SwapsCsrOnly s t rd c ((new (s.readCsr c)).getD (s.readCsr c)) := by
  unfold csrUpdate
  cases new (s.readCsr c) with
  | some v => exact ⟨_, rfl, swapsCsrOnly s rd c v⟩
  | none =>
    obtain ⟨t, ht, h1, h2, h3, h4, h5⟩ := retire_writesOnly s rd (s.readCsr c)
    refine ⟨t, ht, h1, h2, fun k => ?_, h4, h5⟩
    rw [h3 k]
    split
    · next h => rw [h]; rfl
    · rfl

/-! ### Memory in unbounded integers -/

theorem inRange_iff_allMapped (s : State) (addr : Word) (n : Nat) : inRange s.params addr n = true ↔ AllMapped s addr n :=
  inRange_iff s.params addr n

theorem inRange_eq_false_iff (s : State) (addr : Word) (n : Nat) : inRange s.params addr n = false ↔ ¬ AllMapped s addr n := by
  rw [← inRange_iff_allMapped, Bool.not_eq_true]

theorem littleEndian_lt (s : State) (a n : Nat) : littleEndian s a n < 256 ^ n := by
  induction n generalizing a with
  | zero => simp [littleEndian]
  | succ n ih =>
    have h1 := ih (a + 1)
    have h2 := (s.readByte a).isLt
    simp only [littleEndian, Nat.pow_succ]
    omega

/-- What a load reads is the little-endian value of its bytes. -/
theorem loadBytesLE_toNat (s : State) (a n : Nat) (hn : n ≤ 8) : (loadBytesLE s.mem a n).toNat = littleEndian s a n := by
  induction n generalizing a with
  | zero => rfl
  | succ n ih =>
    have h1 := ih (a + 1) (by omega)
    have h2 : littleEndian s (a + 1) n < 256 ^ n := littleEndian_lt s (a + 1) n
    have h3 : (256 : Nat) ^ n ≤ 256 ^ 7 := Nat.pow_le_pow_right (by decide) (by omega)
    have h4 := (s.readByte a).isLt
    have h5 : (Sparse.read s.mem a).toNat = (s.readByte a).toNat := rfl
    simp only [loadBytesLE, BitVec.toNat_or, BitVec.toNat_shiftLeft, BitVec.toNat_setWidth, h1, h5, littleEndian]
    rw [Nat.mod_eq_of_lt (a := (s.readByte a).toNat) (by omega), Nat.shiftLeft_eq, Nat.mod_eq_of_lt (by omega), Nat.mul_comm _ (2 ^ 8),
      ← Nat.two_pow_add_eq_or_of_lt (i := 8) h4]
    omega

theorem loadBytesLE_eq (s : State) (a n : Nat) (hn : n ≤ 8) : loadBytesLE s.mem a n = BitVec.ofNat 64 (littleEndian s a n) := by
  rw [← loadBytesLE_toNat s a n hn, BitVec.ofNat_toNat, BitVec.setWidth_eq]

/-- A load obeys its rule, whatever its extension makes of the bytes. -/
theorem loadFrom_rule (w : Width) (ext : Word → Word) (rd rs1 : RegIdx) (imm : BitVec 12) (s : State) :
    (AllMapped s (effective (s.readReg rs1) (immI imm)) w.bytes →
      ∃ t, loadFrom w ext rd rs1 imm s = .next t ∧
        WritesOnly s t rd (ext (BitVec.ofNat 64 (littleEndian s (effective (s.readReg rs1) (immI imm)).toNat w.bytes)))
          (s.pc + 4#64)) ∧
    (¬ AllMapped s (effective (s.readReg rs1) (immI imm)) w.bytes →
      loadFrom w ext rd rs1 imm s =
        .next (s.raise (.memoryAccess .load (effective (s.readReg rs1) (immI imm)) w.bytes s.pc))) := by
  rw [← inRange_eq_false_iff, ← inRange_iff_allMapped]
  unfold effective
  rcases loadFrom_cases w ext rd rs1 imm s with ⟨hr, he⟩ | ⟨hr, he⟩
  · refine ⟨fun _ => ?_, fun h => absurd (hr.symm.trans h) (by decide)⟩
    rw [he, loadBytesLE_eq _ _ _ (width_bytes_le w)]
    exact retire_writesOnly s rd _
  · exact ⟨fun h => absurd (hr.symm.trans h) (by decide), fun _ => he⟩

theorem storeTo_rule (w : Width) (rs2 rs1 : RegIdx) (imm : BitVec 12) (s : State) :
    (AllMapped s (effective (s.readReg rs1) (immS imm)) w.bytes →
      ∃ t, storeTo w rs2 rs1 imm s = .next t ∧
        StoresOnly s t (effective (s.readReg rs1) (immS imm)) w.bytes (s.readReg rs2)) ∧
    (¬ AllMapped s (effective (s.readReg rs1) (immS imm)) w.bytes →
      storeTo w rs2 rs1 imm s =
        .next (s.raise (.memoryAccess .store (effective (s.readReg rs1) (immS imm)) w.bytes s.pc))) := by
  rw [← inRange_eq_false_iff, ← inRange_iff_allMapped]
  unfold effective
  rcases storeTo_cases w rs2 rs1 imm s with ⟨hr, he⟩ | ⟨hr, he⟩
  · exact ⟨fun _ => ⟨_, he, storesOnly s _ _ _⟩, fun h => absurd (hr.symm.trans h) (by decide)⟩
  · exact ⟨fun h => absurd (hr.symm.trans h) (by decide), fun _ => he⟩

/-! ### Which words are an instruction, from its entry -/

section Encoded

variable {p : Insn} {op : Op} {opcode funct7 : BitVec 7} {funct6 : BitVec 6} {funct3 : BitVec 3}

theorem encodedR_of_entry {make : RegIdx → RegIdx → RegIdx → Instr} (he : (⟨0xfe00707f#32, p, op⟩ : Entry) ∈ dispatchTable)
    (hu : unrivalled ⟨0xfe00707f#32, p, op⟩ = true) (hp : put 25 funct7 ||| put 12 funct3 ||| put 0 opcode = p)
    (ho : ∀ w, operands w op = make (Field.rd w) (Field.rs1 w) (Field.rs2 w)) : EncodedR opcode funct3 funct7 make := by
  intro w h1 h2 h3
  rw [← ho]
  exact decode_of_unrivalled he hu (by simp only [Entry.hits, mask_funct7, h1, h2, h3, hp, beq_self_eq_true])

theorem encodedI_of_entry {make : RegIdx → RegIdx → BitVec 12 → Instr} (he : (⟨0x0000707f#32, p, op⟩ : Entry) ∈ dispatchTable)
    (hu : unrivalled ⟨0x0000707f#32, p, op⟩ = true) (hp : put 12 funct3 ||| put 0 opcode = p)
    (ho : ∀ w, operands w op = make (Field.rd w) (Field.rs1 w) (Field.immI w)) : EncodedI opcode funct3 make := by
  intro w h1 h2
  rw [← ho]
  exact decode_of_unrivalled he hu (by simp only [Entry.hits, mask_funct3, h1, h2, hp, beq_self_eq_true])

theorem encodedShamt6_of_entry {make : RegIdx → RegIdx → BitVec 6 → Instr} (he : (⟨0xfc00707f#32, p, op⟩ : Entry) ∈ dispatchTable)
    (hu : unrivalled ⟨0xfc00707f#32, p, op⟩ = true) (hp : put 26 funct6 ||| put 12 funct3 ||| put 0 0b0010011#7 = p)
    (ho : ∀ w, operands w op = make (Field.rd w) (Field.rs1 w) (Field.shamt6 w)) : EncodedShamt6 funct3 funct6 make := by
  intro w h1 h2 h3
  rw [← ho]
  exact decode_of_unrivalled he hu (by simp only [Entry.hits, mask_funct6, h1, h2, h3, hp, beq_self_eq_true])

theorem encodedShamt5_of_entry {make : RegIdx → RegIdx → BitVec 5 → Instr} (he : (⟨0xfe00707f#32, p, op⟩ : Entry) ∈ dispatchTable)
    (hu : unrivalled ⟨0xfe00707f#32, p, op⟩ = true) (hp : put 25 funct7 ||| put 12 funct3 ||| put 0 0b0011011#7 = p)
    (ho : ∀ w, operands w op = make (Field.rd w) (Field.rs1 w) (Field.shamt5 w)) : EncodedShamt5 funct3 funct7 make := by
  intro w h1 h2 h3
  rw [← ho]
  exact decode_of_unrivalled he hu (by simp only [Entry.hits, mask_funct7, h1, h2, h3, hp, beq_self_eq_true])

theorem encodedS_of_entry {make : RegIdx → RegIdx → BitVec 12 → Instr} (he : (⟨0x0000707f#32, p, op⟩ : Entry) ∈ dispatchTable)
    (hu : unrivalled ⟨0x0000707f#32, p, op⟩ = true) (hp : put 12 funct3 ||| put 0 0b0100011#7 = p)
    (ho : ∀ w, operands w op = make (Field.rs2 w) (Field.rs1 w) (Field.immS w)) : EncodedS funct3 make := by
  intro w h1 h2
  rw [← ho]
  exact decode_of_unrivalled he hu (by simp only [Entry.hits, mask_funct3, h1, h2, hp, beq_self_eq_true])

theorem encodedB_of_entry {make : RegIdx → RegIdx → BitVec 12 → Instr} (he : (⟨0x0000707f#32, p, op⟩ : Entry) ∈ dispatchTable)
    (hu : unrivalled ⟨0x0000707f#32, p, op⟩ = true) (hp : put 12 funct3 ||| put 0 0b1100011#7 = p)
    (ho : ∀ w, operands w op = make (Field.rs1 w) (Field.rs2 w) (Field.offB w)) : EncodedB funct3 make := by
  intro w h1 h2
  rw [← ho]
  exact decode_of_unrivalled he hu (by simp only [Entry.hits, mask_funct3, h1, h2, hp, beq_self_eq_true])

theorem encodedU_of_entry {make : RegIdx → BitVec 20 → Instr} (he : (⟨0x0000007f#32, p, op⟩ : Entry) ∈ dispatchTable)
    (hu : unrivalled ⟨0x0000007f#32, p, op⟩ = true) (hp : put 0 opcode = p)
    (ho : ∀ w, operands w op = make (Field.rd w) (Field.immU w)) : EncodedU opcode make := by
  intro w h1
  rw [← ho]
  exact decode_of_unrivalled he hu (by simp only [Entry.hits, mask_opcode, h1, hp, beq_self_eq_true])

theorem encodedCsr_of_entry {make : RegIdx → CsrIdx → BitVec 5 → Instr} (he : (⟨0x0000707f#32, p, op⟩ : Entry) ∈ dispatchTable)
    (hu : unrivalled ⟨0x0000707f#32, p, op⟩ = true) (hp : put 12 funct3 ||| put 0 0b1110011#7 = p)
    (ho : ∀ w, operands w op = make (Field.rd w) (Field.csr w) (Field.rs1 w)) : EncodedCsr funct3 make := by
  intro w h1 h2 _
  rw [← ho]
  exact decode_of_unrivalled he hu (by simp only [Entry.hits, mask_funct3, h1, h2, hp, beq_self_eq_true])

end Encoded

end Sys2Proof.Laws
end

