-- ==== Sys2Proof/Laws/PerInstr.lean ====
section
/-! SUPPORT. The family `OwnRow`, one lemma per instruction: the encoder's word is matched by a row of the dispatch table, and that row's
operation reads back from the word exactly the instruction it was made from (spec/30_encoding.md R90, R91, R95). -/

namespace Sys2Proof.Laws

namespace OwnRow

def Statement (i : Instr) : Prop := ∃ e ∈ dispatchTable, e.hits (encode i) = true ∧ operands (encode i) e.op = i

theorem lui (rd : RegIdx) (field : BitVec 20) : Statement (.lui rd field) :=
  ⟨⟨0x0000007f#32, 0x00000037#32, .lui⟩, by decide, by simp only [Entry.hits, encode, encodeU_masked]; decide, by simp [operands, encode]⟩

theorem auipc (rd : RegIdx) (field : BitVec 20) : Statement (.auipc rd field) :=
  ⟨⟨0x0000007f#32, 0x00000017#32, .auipc⟩, by decide, by simp only [Entry.hits, encode, encodeU_masked]; decide, by simp [operands, encode]⟩

theorem jal (rd : RegIdx) (off : BitVec 20) : Statement (.jal rd off) :=
  ⟨⟨0x0000007f#32, 0x0000006f#32, .jal⟩, by decide, by simp only [Entry.hits, encode, encodeJ_masked]; decide, by simp [operands, encode]⟩

theorem jalr (rd rs1 : RegIdx) (imm : BitVec 12) : Statement (.jalr rd rs1 imm) :=
  ⟨⟨0x0000707f#32, 0x00000067#32, .jalr⟩, by decide, by simp only [Entry.hits, encode, encodeI_masked]; decide, by simp [operands, encode]⟩

theorem beq (rs1 rs2 : RegIdx) (off : BitVec 12) : Statement (.beq rs1 rs2 off) :=
  ⟨⟨0x0000707f#32, 0x00000063#32, .beq⟩, by decide, by simp only [Entry.hits, encode, encodeB_masked]; decide, by simp [operands, encode]⟩

theorem bne (rs1 rs2 : RegIdx) (off : BitVec 12) : Statement (.bne rs1 rs2 off) :=
  ⟨⟨0x0000707f#32, 0x00001063#32, .bne⟩, by decide, by simp only [Entry.hits, encode, encodeB_masked]; decide, by simp [operands, encode]⟩

theorem blt (rs1 rs2 : RegIdx) (off : BitVec 12) : Statement (.blt rs1 rs2 off) :=
  ⟨⟨0x0000707f#32, 0x00004063#32, .blt⟩, by decide, by simp only [Entry.hits, encode, encodeB_masked]; decide, by simp [operands, encode]⟩

theorem bge (rs1 rs2 : RegIdx) (off : BitVec 12) : Statement (.bge rs1 rs2 off) :=
  ⟨⟨0x0000707f#32, 0x00005063#32, .bge⟩, by decide, by simp only [Entry.hits, encode, encodeB_masked]; decide, by simp [operands, encode]⟩

theorem bltu (rs1 rs2 : RegIdx) (off : BitVec 12) : Statement (.bltu rs1 rs2 off) :=
  ⟨⟨0x0000707f#32, 0x00006063#32, .bltu⟩, by decide, by simp only [Entry.hits, encode, encodeB_masked]; decide, by simp [operands, encode]⟩

theorem bgeu (rs1 rs2 : RegIdx) (off : BitVec 12) : Statement (.bgeu rs1 rs2 off) :=
  ⟨⟨0x0000707f#32, 0x00007063#32, .bgeu⟩, by decide, by simp only [Entry.hits, encode, encodeB_masked]; decide, by simp [operands, encode]⟩

theorem lb (rd rs1 : RegIdx) (imm : BitVec 12) : Statement (.lb rd rs1 imm) :=
  ⟨⟨0x0000707f#32, 0x00000003#32, .lb⟩, by decide, by simp only [Entry.hits, encode, encodeI_masked]; decide, by simp [operands, encode]⟩

theorem lh (rd rs1 : RegIdx) (imm : BitVec 12) : Statement (.lh rd rs1 imm) :=
  ⟨⟨0x0000707f#32, 0x00001003#32, .lh⟩, by decide, by simp only [Entry.hits, encode, encodeI_masked]; decide, by simp [operands, encode]⟩

theorem lw (rd rs1 : RegIdx) (imm : BitVec 12) : Statement (.lw rd rs1 imm) :=
  ⟨⟨0x0000707f#32, 0x00002003#32, .lw⟩, by decide, by simp only [Entry.hits, encode, encodeI_masked]; decide, by simp [operands, encode]⟩

theorem ld (rd rs1 : RegIdx) (imm : BitVec 12) : Statement (.ld rd rs1 imm) :=
  ⟨⟨0x0000707f#32, 0x00003003#32, .ld⟩, by decide, by simp only [Entry.hits, encode, encodeI_masked]; decide, by simp [operands, encode]⟩

theorem lbu (rd rs1 : RegIdx) (imm : BitVec 12) : Statement (.lbu rd rs1 imm) :=
  ⟨⟨0x0000707f#32, 0x00004003#32, .lbu⟩, by decide, by simp only [Entry.hits, encode, encodeI_masked]; decide, by simp [operands, encode]⟩

theorem lhu (rd rs1 : RegIdx) (imm : BitVec 12) : Statement (.lhu rd rs1 imm) :=
  ⟨⟨0x0000707f#32, 0x00005003#32, .lhu⟩, by decide, by simp only [Entry.hits, encode, encodeI_masked]; decide, by simp [operands, encode]⟩

theorem lwu (rd rs1 : RegIdx) (imm : BitVec 12) : Statement (.lwu rd rs1 imm) :=
  ⟨⟨0x0000707f#32, 0x00006003#32, .lwu⟩, by decide, by simp only [Entry.hits, encode, encodeI_masked]; decide, by simp [operands, encode]⟩

theorem sb (rs2 rs1 : RegIdx) (imm : BitVec 12) : Statement (.sb rs2 rs1 imm) :=
  ⟨⟨0x0000707f#32, 0x00000023#32, .sb⟩, by decide, by simp only [Entry.hits, encode, encodeS_masked]; decide, by simp [operands, encode]⟩

theorem sh (rs2 rs1 : RegIdx) (imm : BitVec 12) : Statement (.sh rs2 rs1 imm) :=
  ⟨⟨0x0000707f#32, 0x00001023#32, .sh⟩, by decide, by simp only [Entry.hits, encode, encodeS_masked]; decide, by simp [operands, encode]⟩

theorem sw (rs2 rs1 : RegIdx) (imm : BitVec 12) : Statement (.sw rs2 rs1 imm) :=
  ⟨⟨0x0000707f#32, 0x00002023#32, .sw⟩, by decide, by simp only [Entry.hits, encode, encodeS_masked]; decide, by simp [operands, encode]⟩

theorem sd (rs2 rs1 : RegIdx) (imm : BitVec 12) : Statement (.sd rs2 rs1 imm) :=
  ⟨⟨0x0000707f#32, 0x00003023#32, .sd⟩, by decide, by simp only [Entry.hits, encode, encodeS_masked]; decide, by simp [operands, encode]⟩

theorem addi (rd rs1 : RegIdx) (imm : BitVec 12) : Statement (.addi rd rs1 imm) :=
  ⟨⟨0x0000707f#32, 0x00000013#32, .addi⟩, by decide, by simp only [Entry.hits, encode, encodeI_masked]; decide, by simp [operands, encode]⟩

theorem slti (rd rs1 : RegIdx) (imm : BitVec 12) : Statement (.slti rd rs1 imm) :=
  ⟨⟨0x0000707f#32, 0x00002013#32, .slti⟩, by decide, by simp only [Entry.hits, encode, encodeI_masked]; decide, by simp [operands, encode]⟩

theorem sltiu (rd rs1 : RegIdx) (imm : BitVec 12) : Statement (.sltiu rd rs1 imm) :=
  ⟨⟨0x0000707f#32, 0x00003013#32, .sltiu⟩, by decide, by simp only [Entry.hits, encode, encodeI_masked]; decide, by simp [operands, encode]⟩

theorem xori (rd rs1 : RegIdx) (imm : BitVec 12) : Statement (.xori rd rs1 imm) :=
  ⟨⟨0x0000707f#32, 0x00004013#32, .xori⟩, by decide, by simp only [Entry.hits, encode, encodeI_masked]; decide, by simp [operands, encode]⟩

theorem ori (rd rs1 : RegIdx) (imm : BitVec 12) : Statement (.ori rd rs1 imm) :=
  ⟨⟨0x0000707f#32, 0x00006013#32, .ori⟩, by decide, by simp only [Entry.hits, encode, encodeI_masked]; decide, by simp [operands, encode]⟩

theorem andi (rd rs1 : RegIdx) (imm : BitVec 12) : Statement (.andi rd rs1 imm) :=
  ⟨⟨0x0000707f#32, 0x00007013#32, .andi⟩, by decide, by simp only [Entry.hits, encode, encodeI_masked]; decide, by simp [operands, encode]⟩

theorem slli (rd rs1 : RegIdx) (shamt : BitVec 6) : Statement (.slli rd rs1 shamt) :=
  ⟨⟨0xfc00707f#32, 0x00001013#32, .slli⟩, by decide, by simp only [Entry.hits, encode, encodeShamt6_masked]; decide, by simp [operands, encode]⟩

theorem srli (rd rs1 : RegIdx) (shamt : BitVec 6) : Statement (.srli rd rs1 shamt) :=
  ⟨⟨0xfc00707f#32, 0x00005013#32, .srli⟩, by decide, by simp only [Entry.hits, encode, encodeShamt6_masked]; decide, by simp [operands, encode]⟩

theorem srai (rd rs1 : RegIdx) (shamt : BitVec 6) : Statement (.srai rd rs1 shamt) :=
  ⟨⟨0xfc00707f#32, 0x40005013#32, .srai⟩, by decide, by simp only [Entry.hits, encode, encodeShamt6_masked]; decide, by simp [operands, encode]⟩

theorem add (rd rs1 rs2 : RegIdx) : Statement (.add rd rs1 rs2) :=
  ⟨⟨0xfe00707f#32, 0x00000033#32, .add⟩, by decide, by simp only [Entry.hits, encode, encodeR_masked]; decide, by simp [operands, encode]⟩

theorem sub (rd rs1 rs2 : RegIdx) : Statement (.sub rd rs1 rs2) :=
  ⟨⟨0xfe00707f#32, 0x40000033#32, .sub⟩, by decide, by simp only [Entry.hits, encode, encodeR_masked]; decide, by simp [operands, encode]⟩

theorem sll (rd rs1 rs2 : RegIdx) : Statement (.sll rd rs1 rs2) :=
  ⟨⟨0xfe00707f#32, 0x00001033#32, .sll⟩, by decide, by simp only [Entry.hits, encode, encodeR_masked]; decide, by simp [operands, encode]⟩

theorem slt (rd rs1 rs2 : RegIdx) : Statement (.slt rd rs1 rs2) :=
  ⟨⟨0xfe00707f#32, 0x00002033#32, .slt⟩, by decide, by simp only [Entry.hits, encode, encodeR_masked]; decide, by simp [operands, encode]⟩

theorem sltu (rd rs1 rs2 : RegIdx) : Statement (.sltu rd rs1 rs2) :=
  ⟨⟨0xfe00707f#32, 0x00003033#32, .sltu⟩, by decide, by simp only [Entry.hits, encode, encodeR_masked]; decide, by simp [operands, encode]⟩

theorem xor (rd rs1 rs2 : RegIdx) : Statement (.xor rd rs1 rs2) :=
  ⟨⟨0xfe00707f#32, 0x00004033#32, .xor⟩, by decide, by simp only [Entry.hits, encode, encodeR_masked]; decide, by simp [operands, encode]⟩

theorem srl (rd rs1 rs2 : RegIdx) : Statement (.srl rd rs1 rs2) :=
  ⟨⟨0xfe00707f#32, 0x00005033#32, .srl⟩, by decide, by simp only [Entry.hits, encode, encodeR_masked]; decide, by simp [operands, encode]⟩

theorem sra (rd rs1 rs2 : RegIdx) : Statement (.sra rd rs1 rs2) :=
  ⟨⟨0xfe00707f#32, 0x40005033#32, .sra⟩, by decide, by simp only [Entry.hits, encode, encodeR_masked]; decide, by simp [operands, encode]⟩

theorem or (rd rs1 rs2 : RegIdx) : Statement (.or rd rs1 rs2) :=
  ⟨⟨0xfe00707f#32, 0x00006033#32, .or⟩, by decide, by simp only [Entry.hits, encode, encodeR_masked]; decide, by simp [operands, encode]⟩

theorem and (rd rs1 rs2 : RegIdx) : Statement (.and rd rs1 rs2) :=
  ⟨⟨0xfe00707f#32, 0x00007033#32, .and⟩, by decide, by simp only [Entry.hits, encode, encodeR_masked]; decide, by simp [operands, encode]⟩

theorem addiw (rd rs1 : RegIdx) (imm : BitVec 12) : Statement (.addiw rd rs1 imm) :=
  ⟨⟨0x0000707f#32, 0x0000001b#32, .addiw⟩, by decide, by simp only [Entry.hits, encode, encodeI_masked]; decide, by simp [operands, encode]⟩

theorem slliw (rd rs1 : RegIdx) (shamt : BitVec 5) : Statement (.slliw rd rs1 shamt) :=
  ⟨⟨0xfe00707f#32, 0x0000101b#32, .slliw⟩, by decide, by simp only [Entry.hits, encode, encodeR_masked]; decide, by simp [operands, encode]⟩

theorem srliw (rd rs1 : RegIdx) (shamt : BitVec 5) : Statement (.srliw rd rs1 shamt) :=
  ⟨⟨0xfe00707f#32, 0x0000501b#32, .srliw⟩, by decide, by simp only [Entry.hits, encode, encodeR_masked]; decide, by simp [operands, encode]⟩

theorem sraiw (rd rs1 : RegIdx) (shamt : BitVec 5) : Statement (.sraiw rd rs1 shamt) :=
  ⟨⟨0xfe00707f#32, 0x4000501b#32, .sraiw⟩, by decide, by simp only [Entry.hits, encode, encodeR_masked]; decide, by simp [operands, encode]⟩

theorem addw (rd rs1 rs2 : RegIdx) : Statement (.addw rd rs1 rs2) :=
  ⟨⟨0xfe00707f#32, 0x0000003b#32, .addw⟩, by decide, by simp only [Entry.hits, encode, encodeR_masked]; decide, by simp [operands, encode]⟩

theorem subw (rd rs1 rs2 : RegIdx) : Statement (.subw rd rs1 rs2) :=
  ⟨⟨0xfe00707f#32, 0x4000003b#32, .subw⟩, by decide, by simp only [Entry.hits, encode, encodeR_masked]; decide, by simp [operands, encode]⟩

theorem sllw (rd rs1 rs2 : RegIdx) : Statement (.sllw rd rs1 rs2) :=
  ⟨⟨0xfe00707f#32, 0x0000103b#32, .sllw⟩, by decide, by simp only [Entry.hits, encode, encodeR_masked]; decide, by simp [operands, encode]⟩

theorem srlw (rd rs1 rs2 : RegIdx) : Statement (.srlw rd rs1 rs2) :=
  ⟨⟨0xfe00707f#32, 0x0000503b#32, .srlw⟩, by decide, by simp only [Entry.hits, encode, encodeR_masked]; decide, by simp [operands, encode]⟩

theorem sraw (rd rs1 rs2 : RegIdx) : Statement (.sraw rd rs1 rs2) :=
  ⟨⟨0xfe00707f#32, 0x4000503b#32, .sraw⟩, by decide, by simp only [Entry.hits, encode, encodeR_masked]; decide, by simp [operands, encode]⟩

theorem mul (rd rs1 rs2 : RegIdx) : Statement (.mul rd rs1 rs2) :=
  ⟨⟨0xfe00707f#32, 0x02000033#32, .mul⟩, by decide, by simp only [Entry.hits, encode, encodeR_masked]; decide, by simp [operands, encode]⟩

theorem mulh (rd rs1 rs2 : RegIdx) : Statement (.mulh rd rs1 rs2) :=
  ⟨⟨0xfe00707f#32, 0x02001033#32, .mulh⟩, by decide, by simp only [Entry.hits, encode, encodeR_masked]; decide, by simp [operands, encode]⟩

theorem mulhsu (rd rs1 rs2 : RegIdx) : Statement (.mulhsu rd rs1 rs2) :=
  ⟨⟨0xfe00707f#32, 0x02002033#32, .mulhsu⟩, by decide, by simp only [Entry.hits, encode, encodeR_masked]; decide, by simp [operands, encode]⟩

theorem mulhu (rd rs1 rs2 : RegIdx) : Statement (.mulhu rd rs1 rs2) :=
  ⟨⟨0xfe00707f#32, 0x02003033#32, .mulhu⟩, by decide, by simp only [Entry.hits, encode, encodeR_masked]; decide, by simp [operands, encode]⟩

theorem div (rd rs1 rs2 : RegIdx) : Statement (.div rd rs1 rs2) :=
  ⟨⟨0xfe00707f#32, 0x02004033#32, .div⟩, by decide, by simp only [Entry.hits, encode, encodeR_masked]; decide, by simp [operands, encode]⟩

theorem divu (rd rs1 rs2 : RegIdx) : Statement (.divu rd rs1 rs2) :=
  ⟨⟨0xfe00707f#32, 0x02005033#32, .divu⟩, by decide, by simp only [Entry.hits, encode, encodeR_masked]; decide, by simp [operands, encode]⟩

theorem rem (rd rs1 rs2 : RegIdx) : Statement (.rem rd rs1 rs2) :=
  ⟨⟨0xfe00707f#32, 0x02006033#32, .rem⟩, by decide, by simp only [Entry.hits, encode, encodeR_masked]; decide, by simp [operands, encode]⟩

theorem remu (rd rs1 rs2 : RegIdx) : Statement (.remu rd rs1 rs2) :=
  ⟨⟨0xfe00707f#32, 0x02007033#32, .remu⟩, by decide, by simp only [Entry.hits, encode, encodeR_masked]; decide, by simp [operands, encode]⟩

theorem mulw (rd rs1 rs2 : RegIdx) : Statement (.mulw rd rs1 rs2) :=
  ⟨⟨0xfe00707f#32, 0x0200003b#32, .mulw⟩, by decide, by simp only [Entry.hits, encode, encodeR_masked]; decide, by simp [operands, encode]⟩

theorem divw (rd rs1 rs2 : RegIdx) : Statement (.divw rd rs1 rs2) :=
  ⟨⟨0xfe00707f#32, 0x0200403b#32, .divw⟩, by decide, by simp only [Entry.hits, encode, encodeR_masked]; decide, by simp [operands, encode]⟩

theorem divuw (rd rs1 rs2 : RegIdx) : Statement (.divuw rd rs1 rs2) :=
  ⟨⟨0xfe00707f#32, 0x0200503b#32, .divuw⟩, by decide, by simp only [Entry.hits, encode, encodeR_masked]; decide, by simp [operands, encode]⟩

theorem remw (rd rs1 rs2 : RegIdx) : Statement (.remw rd rs1 rs2) :=
  ⟨⟨0xfe00707f#32, 0x0200603b#32, .remw⟩, by decide, by simp only [Entry.hits, encode, encodeR_masked]; decide, by simp [operands, encode]⟩

theorem remuw (rd rs1 rs2 : RegIdx) : Statement (.remuw rd rs1 rs2) :=
  ⟨⟨0xfe00707f#32, 0x0200703b#32, .remuw⟩, by decide, by simp only [Entry.hits, encode, encodeR_masked]; decide, by simp [operands, encode]⟩

theorem fence (fields : BitVec 12) (rs1 rd : RegIdx) : Statement (.fence fields rs1 rd) :=
  ⟨⟨0x0000707f#32, 0x0000000f#32, .fence⟩, by decide, by simp only [Entry.hits, encode, encodeI_masked]; decide, by simp [operands, encode]⟩

theorem fenceTso (rs1 rd : RegIdx) : Statement (.fenceTso rs1 rd) :=
  ⟨⟨0xfff0707f#32, 0x8330000f#32, .fenceTso⟩, by decide, by simp only [Entry.hits, encode, encodeI_masked_funct12]; decide, by simp [operands, encode]⟩

theorem pause : Statement .pause :=
  ⟨⟨0xffffffff#32, 0x0100000f#32, .pause⟩, by decide, by decide, rfl⟩

theorem ecall : Statement .ecall :=
  ⟨⟨0xffffffff#32, 0x00000073#32, .ecall⟩, by decide, by decide, rfl⟩

theorem ebreak : Statement .ebreak :=
  ⟨⟨0xffffffff#32, 0x00100073#32, .ebreak⟩, by decide, by decide, rfl⟩

theorem csrrw (rd : RegIdx) (csr : CsrIdx) (rs1 : RegIdx) : Statement (.csrrw rd csr rs1) :=
  ⟨⟨0x0000707f#32, 0x00001073#32, .csrrw⟩, by decide, by simp only [Entry.hits, encode, encodeI_masked]; decide, by simp [operands, encode]⟩

theorem csrrs (rd : RegIdx) (csr : CsrIdx) (rs1 : RegIdx) : Statement (.csrrs rd csr rs1) :=
  ⟨⟨0x0000707f#32, 0x00002073#32, .csrrs⟩, by decide, by simp only [Entry.hits, encode, encodeI_masked]; decide, by simp [operands, encode]⟩

theorem csrrc (rd : RegIdx) (csr : CsrIdx) (rs1 : RegIdx) : Statement (.csrrc rd csr rs1) :=
  ⟨⟨0x0000707f#32, 0x00003073#32, .csrrc⟩, by decide, by simp only [Entry.hits, encode, encodeI_masked]; decide, by simp [operands, encode]⟩

theorem csrrwi (rd : RegIdx) (csr : CsrIdx) (uimm : BitVec 5) : Statement (.csrrwi rd csr uimm) :=
  ⟨⟨0x0000707f#32, 0x00005073#32, .csrrwi⟩, by decide, by simp only [Entry.hits, encode, encodeI_masked]; decide, by simp [operands, encode]⟩

theorem csrrsi (rd : RegIdx) (csr : CsrIdx) (uimm : BitVec 5) : Statement (.csrrsi rd csr uimm) :=
  ⟨⟨0x0000707f#32, 0x00006073#32, .csrrsi⟩, by decide, by simp only [Entry.hits, encode, encodeI_masked]; decide, by simp [operands, encode]⟩

theorem csrrci (rd : RegIdx) (csr : CsrIdx) (uimm : BitVec 5) : Statement (.csrrci rd csr uimm) :=
  ⟨⟨0x0000707f#32, 0x00007073#32, .csrrci⟩, by decide, by simp only [Entry.hits, encode, encodeI_masked]; decide, by simp [operands, encode]⟩

theorem rdcycle (rd : RegIdx) : Statement (.rdcycle rd) :=
  ⟨⟨0xfffff07f#32, 0xc0002073#32, .rdcycle⟩, by decide, by simp only [Entry.hits, encode, encodeI_masked_counter]; decide, by simp [operands, encode]⟩

theorem rdtime (rd : RegIdx) : Statement (.rdtime rd) :=
  ⟨⟨0xfffff07f#32, 0xc0102073#32, .rdtime⟩, by decide, by simp only [Entry.hits, encode, encodeI_masked_counter]; decide, by simp [operands, encode]⟩

theorem rdinstret (rd : RegIdx) : Statement (.rdinstret rd) :=
  ⟨⟨0xfffff07f#32, 0xc0202073#32, .rdinstret⟩, by decide, by simp only [Entry.hits, encode, encodeI_masked_counter]; decide, by simp [operands, encode]⟩

theorem rdcycleh (rd : RegIdx) : Statement (.rdcycleh rd) :=
  ⟨⟨0xfffff07f#32, 0xc8002073#32, .rdcycleh⟩, by decide, by simp only [Entry.hits, encode, encodeI_masked_counter]; decide, by simp [operands, encode]⟩

theorem rdtimeh (rd : RegIdx) : Statement (.rdtimeh rd) :=
  ⟨⟨0xfffff07f#32, 0xc8102073#32, .rdtimeh⟩, by decide, by simp only [Entry.hits, encode, encodeI_masked_counter]; decide, by simp [operands, encode]⟩

theorem rdinstreth (rd : RegIdx) : Statement (.rdinstreth rd) :=
  ⟨⟨0xfffff07f#32, 0xc8202073#32, .rdinstreth⟩, by decide, by simp only [Entry.hits, encode, encodeI_masked_counter]; decide, by simp [operands, encode]⟩

end OwnRow

end Sys2Proof.Laws
end

