-- ==== Sys2Proof/Machine/Assembly.lean ====
section
/-! DEFINITION. Assembler syntax and pseudo-instructions: spec/30_encoding.md R106, R107. Neither is a rule of the hardware: they let a
reader hold a program's text beside its instructions. The machine reads neither. -/

namespace Sys2Proof.Machine

namespace Assembly

/-! ### Operands as text -/

def digit (d : Nat) : Char :=
  ("0123456789ABCDEF".toList[d]?).getD '?'

/-- The digits of `n` in a base, at most `fuel` of them, the most significant first. -/
def digits (base : Nat) : Nat → Nat → List Char
  | 0, _ => []
  | fuel + 1, n => (if n < base then [] else digits base fuel (n / base)) ++ [digit (n % base)]

def dec (n : Nat) : String := String.ofList (digits 10 20 n)

/-- A CSR number in hexadecimal, as the spec writes it (`0x340`). -/
def hex (c : CsrIdx) : String := "0x" ++ String.ofList (digits 16 3 c.toNat)

/-- R106: "registers as `x0` to `x31`". -/
def reg (r : RegIdx) : String := "x" ++ dec r.toNat

/-- R106: "immediates in decimal with an optional sign". -/
def signed (i : Int) : String := if i < 0 then "-" ++ dec i.natAbs else dec i.natAbs

/-- The offset of a branch or of `jal`, its sign written (`+8`, `-4`). -/
def signedOffset (i : Int) : String := if i < 0 then "-" ++ dec i.natAbs else "+" ++ dec i.natAbs

/-- The operand `imm(rs1)` of loads, stores and `jalr`. -/
def based (imm : BitVec 12) (rs1 : RegIdx) : String := signed imm.toInt ++ "(" ++ reg rs1 ++ ")"

/-- Mnemonic, a space, operands separated by commas. -/
def line (mnemonic : String) : List String → String
  | [] => mnemonic
  | o :: os => mnemonic ++ " " ++ os.foldl (fun acc x => acc ++ "," ++ x) o

/-- R106: one instruction as text. The fields that `fence` and `fence.tso` ignore are not shown. -/
def render : Instr → String
  | .lui rd field => line "lui" [reg rd, dec field.toNat]
  | .auipc rd field => line "auipc" [reg rd, dec field.toNat]
  | .jal rd off => line "jal" [reg rd, signedOffset (off ++ 0#1).toInt]
  | .jalr rd rs1 imm => line "jalr" [reg rd, based imm rs1]
  | .beq rs1 rs2 off => line "beq" [reg rs1, reg rs2, signedOffset (off ++ 0#1).toInt]
  | .bne rs1 rs2 off => line "bne" [reg rs1, reg rs2, signedOffset (off ++ 0#1).toInt]
  | .blt rs1 rs2 off => line "blt" [reg rs1, reg rs2, signedOffset (off ++ 0#1).toInt]
  | .bge rs1 rs2 off => line "bge" [reg rs1, reg rs2, signedOffset (off ++ 0#1).toInt]
  | .bltu rs1 rs2 off => line "bltu" [reg rs1, reg rs2, signedOffset (off ++ 0#1).toInt]
  | .bgeu rs1 rs2 off => line "bgeu" [reg rs1, reg rs2, signedOffset (off ++ 0#1).toInt]
  | .lb rd rs1 imm => line "lb" [reg rd, based imm rs1]
  | .lh rd rs1 imm => line "lh" [reg rd, based imm rs1]
  | .lw rd rs1 imm => line "lw" [reg rd, based imm rs1]
  | .ld rd rs1 imm => line "ld" [reg rd, based imm rs1]
  | .lbu rd rs1 imm => line "lbu" [reg rd, based imm rs1]
  | .lhu rd rs1 imm => line "lhu" [reg rd, based imm rs1]
  | .lwu rd rs1 imm => line "lwu" [reg rd, based imm rs1]
  | .sb rs2 rs1 imm => line "sb" [reg rs2, based imm rs1]
  | .sh rs2 rs1 imm => line "sh" [reg rs2, based imm rs1]
  | .sw rs2 rs1 imm => line "sw" [reg rs2, based imm rs1]
  | .sd rs2 rs1 imm => line "sd" [reg rs2, based imm rs1]
  | .addi rd rs1 imm => line "addi" [reg rd, reg rs1, signed imm.toInt]
  | .slti rd rs1 imm => line "slti" [reg rd, reg rs1, signed imm.toInt]
  | .sltiu rd rs1 imm => line "sltiu" [reg rd, reg rs1, signed imm.toInt]
  | .xori rd rs1 imm => line "xori" [reg rd, reg rs1, signed imm.toInt]
  | .ori rd rs1 imm => line "ori" [reg rd, reg rs1, signed imm.toInt]
  | .andi rd rs1 imm => line "andi" [reg rd, reg rs1, signed imm.toInt]
  | .slli rd rs1 shamt => line "slli" [reg rd, reg rs1, dec shamt.toNat]
  | .srli rd rs1 shamt => line "srli" [reg rd, reg rs1, dec shamt.toNat]
  | .srai rd rs1 shamt => line "srai" [reg rd, reg rs1, dec shamt.toNat]
  | .add rd rs1 rs2 => line "add" [reg rd, reg rs1, reg rs2]
  | .sub rd rs1 rs2 => line "sub" [reg rd, reg rs1, reg rs2]
  | .sll rd rs1 rs2 => line "sll" [reg rd, reg rs1, reg rs2]
  | .slt rd rs1 rs2 => line "slt" [reg rd, reg rs1, reg rs2]
  | .sltu rd rs1 rs2 => line "sltu" [reg rd, reg rs1, reg rs2]
  | .xor rd rs1 rs2 => line "xor" [reg rd, reg rs1, reg rs2]
  | .srl rd rs1 rs2 => line "srl" [reg rd, reg rs1, reg rs2]
  | .sra rd rs1 rs2 => line "sra" [reg rd, reg rs1, reg rs2]
  | .or rd rs1 rs2 => line "or" [reg rd, reg rs1, reg rs2]
  | .and rd rs1 rs2 => line "and" [reg rd, reg rs1, reg rs2]
  | .addiw rd rs1 imm => line "addiw" [reg rd, reg rs1, signed imm.toInt]
  | .slliw rd rs1 shamt => line "slliw" [reg rd, reg rs1, dec shamt.toNat]
  | .srliw rd rs1 shamt => line "srliw" [reg rd, reg rs1, dec shamt.toNat]
  | .sraiw rd rs1 shamt => line "sraiw" [reg rd, reg rs1, dec shamt.toNat]
  | .addw rd rs1 rs2 => line "addw" [reg rd, reg rs1, reg rs2]
  | .subw rd rs1 rs2 => line "subw" [reg rd, reg rs1, reg rs2]
  | .sllw rd rs1 rs2 => line "sllw" [reg rd, reg rs1, reg rs2]
  | .srlw rd rs1 rs2 => line "srlw" [reg rd, reg rs1, reg rs2]
  | .sraw rd rs1 rs2 => line "sraw" [reg rd, reg rs1, reg rs2]
  | .mul rd rs1 rs2 => line "mul" [reg rd, reg rs1, reg rs2]
  | .mulh rd rs1 rs2 => line "mulh" [reg rd, reg rs1, reg rs2]
  | .mulhsu rd rs1 rs2 => line "mulhsu" [reg rd, reg rs1, reg rs2]
  | .mulhu rd rs1 rs2 => line "mulhu" [reg rd, reg rs1, reg rs2]
  | .div rd rs1 rs2 => line "div" [reg rd, reg rs1, reg rs2]
  | .divu rd rs1 rs2 => line "divu" [reg rd, reg rs1, reg rs2]
  | .rem rd rs1 rs2 => line "rem" [reg rd, reg rs1, reg rs2]
  | .remu rd rs1 rs2 => line "remu" [reg rd, reg rs1, reg rs2]
  | .mulw rd rs1 rs2 => line "mulw" [reg rd, reg rs1, reg rs2]
  | .divw rd rs1 rs2 => line "divw" [reg rd, reg rs1, reg rs2]
  | .divuw rd rs1 rs2 => line "divuw" [reg rd, reg rs1, reg rs2]
  | .remw rd rs1 rs2 => line "remw" [reg rd, reg rs1, reg rs2]
  | .remuw rd rs1 rs2 => line "remuw" [reg rd, reg rs1, reg rs2]
  | .fence _ _ _ => line "fence" []
  | .fenceTso _ _ => line "fence.tso" []
  | .pause => line "pause" []
  | .ecall => line "ecall" []
  | .ebreak => line "ebreak" []
  | .csrrw rd csr rs1 => line "csrrw" [reg rd, hex csr, reg rs1]
  | .csrrs rd csr rs1 => line "csrrs" [reg rd, hex csr, reg rs1]
  | .csrrc rd csr rs1 => line "csrrc" [reg rd, hex csr, reg rs1]
  | .csrrwi rd csr uimm => line "csrrwi" [reg rd, hex csr, dec uimm.toNat]
  | .csrrsi rd csr uimm => line "csrrsi" [reg rd, hex csr, dec uimm.toNat]
  | .csrrci rd csr uimm => line "csrrci" [reg rd, hex csr, dec uimm.toNat]
  | .rdcycle rd => line "rdcycle" [reg rd]
  | .rdtime rd => line "rdtime" [reg rd]
  | .rdinstret rd => line "rdinstret" [reg rd]
  | .rdcycleh rd => line "rdcycleh" [reg rd]
  | .rdtimeh rd => line "rdtimeh" [reg rd]
  | .rdinstreth rd => line "rdinstreth" [reg rd]

/-! ### Pseudo-instructions (R107) -/

inductive Pseudo where
  | nop
  | mv (rd rs : RegIdx)
  /-- `li` of a 12-bit constant. For a longer constant R107 names no one sequence ("`lui` + `addi`/`addiw` and shifts"). -/
  | li (rd : RegIdx) (imm : BitVec 12)
  | not (rd rs : RegIdx)
  | neg (rd rs : RegIdx)
  | negw (rd rs : RegIdx)
  | sextw (rd rs : RegIdx)
  | seqz (rd rs : RegIdx)
  | snez (rd rs : RegIdx)
  | sltz (rd rs : RegIdx)
  | sgtz (rd rs : RegIdx)
  | beqz (rs : RegIdx) (off : BitVec 12)
  | bnez (rs : RegIdx) (off : BitVec 12)
  | blez (rs : RegIdx) (off : BitVec 12)
  | bgez (rs : RegIdx) (off : BitVec 12)
  | bltz (rs : RegIdx) (off : BitVec 12)
  | bgtz (rs : RegIdx) (off : BitVec 12)
  | bgt (rs rt : RegIdx) (off : BitVec 12)
  | ble (rs rt : RegIdx) (off : BitVec 12)
  | bgtu (rs rt : RegIdx) (off : BitVec 12)
  | bleu (rs rt : RegIdx) (off : BitVec 12)
  | j (off : BitVec 20)
  | jal (off : BitVec 20)
  | jr (rs : RegIdx)
  | jalr (rs : RegIdx)
  | ret
  | call (hi : BitVec 20) (lo : BitVec 12)
  | tail (hi : BitVec 20) (lo : BitVec 12)
  | la (rd : RegIdx) (hi : BitVec 20) (lo : BitVec 12)
  | csrr (rd : RegIdx) (csr : CsrIdx)
  | csrw (csr : CsrIdx) (rs : RegIdx)
  | csrs (csr : CsrIdx) (rs : RegIdx)
  | csrc (csr : CsrIdx) (rs : RegIdx)
  | csrwi (csr : CsrIdx) (u : BitVec 5)
  | csrsi (csr : CsrIdx) (u : BitVec 5)
  | csrci (csr : CsrIdx) (u : BitVec 5)
  deriving DecidableEq, Repr

/-- R107: the instructions a pseudo-instruction stands for. `csrr rd,cycle` and its five siblings give a `csrrs` term whose word is a
counter read's (R93), so that word does nothing here. -/
def expand : Pseudo → List Instr
  | .nop => [.addi 0#5 0#5 0#12]
  | .mv rd rs => [.addi rd rs 0#12]
  | .li rd imm => [.addi rd 0#5 imm]
  | .not rd rs => [.xori rd rs (-1#12)]
  | .neg rd rs => [.sub rd 0#5 rs]
  | .negw rd rs => [.subw rd 0#5 rs]
  | .sextw rd rs => [.addiw rd rs 0#12]
  | .seqz rd rs => [.sltiu rd rs 1#12]
  | .snez rd rs => [.sltu rd 0#5 rs]
  | .sltz rd rs => [.slt rd rs 0#5]
  | .sgtz rd rs => [.slt rd 0#5 rs]
  | .beqz rs off => [.beq rs 0#5 off]
  | .bnez rs off => [.bne rs 0#5 off]
  | .blez rs off => [.bge 0#5 rs off]
  | .bgez rs off => [.bge rs 0#5 off]
  | .bltz rs off => [.blt rs 0#5 off]
  | .bgtz rs off => [.blt 0#5 rs off]
  | .bgt rs rt off => [.blt rt rs off]
  | .ble rs rt off => [.bge rt rs off]
  | .bgtu rs rt off => [.bltu rt rs off]
  | .bleu rs rt off => [.bgeu rt rs off]
  | .j off => [.jal 0#5 off]
  | .jal off => [.jal 1#5 off]
  | .jr rs => [.jalr 0#5 rs 0#12]
  | .jalr rs => [.jalr 1#5 rs 0#12]
  | .ret => [.jalr 0#5 1#5 0#12]
  | .call hi lo => [.auipc 1#5 hi, .jalr 1#5 1#5 lo]
  | .tail hi lo => [.auipc 6#5 hi, .jalr 0#5 6#5 lo]
  | .la rd hi lo => [.auipc rd hi, .addi rd rd lo]
  | .csrr rd csr => [.csrrs rd csr 0#5]
  | .csrw csr rs => [.csrrw 0#5 csr rs]
  | .csrs csr rs => [.csrrs 0#5 csr rs]
  | .csrc csr rs => [.csrrc 0#5 csr rs]
  | .csrwi csr u => [.csrrwi 0#5 csr u]
  | .csrsi csr u => [.csrrsi 0#5 csr u]
  | .csrci csr u => [.csrrci 0#5 csr u]

end Assembly

end Sys2Proof.Machine
end

