-- ==== Sys2Proof/Tests/Slice0.lean ====
section
/-! SUPPORT. The model's own tests. Words are written out from the patterns of spec/30_encoding.md R95 and the results are the worked
examples of the rules each test names (or, where the docstring says so, a hand calculation from them). The witnesses at the end show, for
every statement with hypotheses, a state and operands that meet them together. -/

namespace Sys2Proof.Tests

open Sys2Proof.Machine

/-- What one step leaves of a state, if it answers a next state. -/
def outcome {α : Type} (s : State) (f : State → α) : Option α :=
  match step s with
  | .next t => some (f t)
  | .fault _ => none
  | .refused _ => none

/-- The memory image of spec/43_load_store.md: the 16 bytes from `0x8000_0100`. -/
def machine : State :=
  { State.reset with
    mem := storeBytesLE (storeBytesLE [] 0x80000100 0x8877665544332211#64 8) 0x80000108 0xFEDCBA9876543210#64 8 }

/-- The reset machine in `Buffer` mode. -/
def buffered (program : List Insn) : State :=
  { State.reset with params := { Params.default with fetchMode := .buffer program } }

/-! ### WellFormed: each check refuses an ill-formed term (R93) -/

theorem test_wellFormed_refuses_fence_with_the_fields_of_fenceTso : (Instr.fence 0x833#12 6#5 5#5).wellFormed = false := by decide

theorem test_wellFormed_refuses_fence_that_is_pause : (Instr.fence 0x010#12 0#5 0#5).wellFormed = false := by decide

theorem test_wellFormed_accepts_fence_beside_pause :
    (Instr.fence 0x010#12 1#5 0#5).wellFormed = true ∧ (Instr.fence 0x010#12 0#5 1#5).wellFormed = true := by decide

theorem test_wellFormed_refuses_csrrs_that_is_rdcycle : (Instr.csrrs 5#5 0xC00#12 0#5).wellFormed = false := by decide

theorem test_wellFormed_refuses_csrrs_that_is_rdtime : (Instr.csrrs 5#5 0xC01#12 0#5).wellFormed = false := by decide

theorem test_wellFormed_refuses_csrrs_that_is_rdinstret : (Instr.csrrs 5#5 0xC02#12 0#5).wellFormed = false := by decide

theorem test_wellFormed_refuses_csrrs_that_is_rdcycleh : (Instr.csrrs 5#5 0xC80#12 0#5).wellFormed = false := by decide

theorem test_wellFormed_refuses_csrrs_that_is_rdtimeh : (Instr.csrrs 5#5 0xC81#12 0#5).wellFormed = false := by decide

theorem test_wellFormed_refuses_csrrs_that_is_rdinstreth : (Instr.csrrs 5#5 0xC82#12 0#5).wellFormed = false := by decide

theorem test_wellFormed_accepts_csrrs_beside_them :
    (Instr.csrrs 5#5 0xC00#12 6#5).wellFormed = true ∧ (Instr.csrrs 5#5 0xC03#12 0#5).wellFormed = true := by decide

/-! ### Decoding: one word of every row of R95, its pattern's groups filled in (bits 31:25, 24:20, 19:15, 14:12, 11:7, 6:0), with the
fields that its `Encoded…` clause asks for -/

theorem test_decode_lui :
    let w : Insn := 0b1100001_11010_01011_001_10101_0110111#32
    Field.opcode w = 0b0110111#7 ∧ decode w = some (.lui 21#5 0xC3A59#20) := by decide

theorem test_decode_auipc :
    let w : Insn := 0b1100001_11010_01011_001_10101_0010111#32
    Field.opcode w = 0b0010111#7 ∧ decode w = some (.auipc 21#5 0xC3A59#20) := by decide

theorem test_decode_jal :
    let w : Insn := 0b1001101_00111_01010_110_10101_1101111#32
    Field.opcode w = 0b1101111#7 ∧ decode w = some (.jal 21#5 0xab4d3#20) := by decide

theorem test_decode_jalr :
    let w : Insn := 0b1010001_10101_00110_000_10101_1100111#32
    Field.opcode w = 0b1100111#7 ∧ Field.funct3 w = 0b000#3 ∧ decode w = some (.jalr 21#5 6#5 0xa35#12) := by decide

theorem test_decode_beq :
    let w : Insn := 0b1110101_11011_00110_000_01100_1100011#32
    Field.opcode w = 0b1100011#7 ∧ Field.funct3 w = 0b000#3 ∧ decode w = some (.beq 6#5 27#5 0xb56#12) := by decide

theorem test_decode_bne :
    let w : Insn := 0b1110101_11011_00110_001_01100_1100011#32
    Field.opcode w = 0b1100011#7 ∧ Field.funct3 w = 0b001#3 ∧ decode w = some (.bne 6#5 27#5 0xb56#12) := by decide

theorem test_decode_blt :
    let w : Insn := 0b1110101_11011_00110_100_01100_1100011#32
    Field.opcode w = 0b1100011#7 ∧ Field.funct3 w = 0b100#3 ∧ decode w = some (.blt 6#5 27#5 0xb56#12) := by decide

theorem test_decode_bge :
    let w : Insn := 0b1110101_11011_00110_101_01100_1100011#32
    Field.opcode w = 0b1100011#7 ∧ Field.funct3 w = 0b101#3 ∧ decode w = some (.bge 6#5 27#5 0xb56#12) := by decide

theorem test_decode_bltu :
    let w : Insn := 0b1110101_11011_00110_110_01100_1100011#32
    Field.opcode w = 0b1100011#7 ∧ Field.funct3 w = 0b110#3 ∧ decode w = some (.bltu 6#5 27#5 0xb56#12) := by decide

theorem test_decode_bgeu :
    let w : Insn := 0b1110101_11011_00110_111_01100_1100011#32
    Field.opcode w = 0b1100011#7 ∧ Field.funct3 w = 0b111#3 ∧ decode w = some (.bgeu 6#5 27#5 0xb56#12) := by decide

theorem test_decode_lb :
    let w : Insn := 0b1010001_10101_00110_000_10101_0000011#32
    Field.opcode w = 0b0000011#7 ∧ Field.funct3 w = 0b000#3 ∧ decode w = some (.lb 21#5 6#5 0xa35#12) := by decide

theorem test_decode_lh :
    let w : Insn := 0b1010001_10101_00110_001_10101_0000011#32
    Field.opcode w = 0b0000011#7 ∧ Field.funct3 w = 0b001#3 ∧ decode w = some (.lh 21#5 6#5 0xa35#12) := by decide

theorem test_decode_lw :
    let w : Insn := 0b1010001_10101_00110_010_10101_0000011#32
    Field.opcode w = 0b0000011#7 ∧ Field.funct3 w = 0b010#3 ∧ decode w = some (.lw 21#5 6#5 0xa35#12) := by decide

theorem test_decode_ld :
    let w : Insn := 0b1010001_10101_00110_011_10101_0000011#32
    Field.opcode w = 0b0000011#7 ∧ Field.funct3 w = 0b011#3 ∧ decode w = some (.ld 21#5 6#5 0xa35#12) := by decide

theorem test_decode_lbu :
    let w : Insn := 0b1010001_10101_00110_100_10101_0000011#32
    Field.opcode w = 0b0000011#7 ∧ Field.funct3 w = 0b100#3 ∧ decode w = some (.lbu 21#5 6#5 0xa35#12) := by decide

theorem test_decode_lhu :
    let w : Insn := 0b1010001_10101_00110_101_10101_0000011#32
    Field.opcode w = 0b0000011#7 ∧ Field.funct3 w = 0b101#3 ∧ decode w = some (.lhu 21#5 6#5 0xa35#12) := by decide

theorem test_decode_lwu :
    let w : Insn := 0b1010001_10101_00110_110_10101_0000011#32
    Field.opcode w = 0b0000011#7 ∧ Field.funct3 w = 0b110#3 ∧ decode w = some (.lwu 21#5 6#5 0xa35#12) := by decide

theorem test_decode_sb :
    let w : Insn := 0b1010001_11011_00110_000_10101_0100011#32
    Field.opcode w = 0b0100011#7 ∧ Field.funct3 w = 0b000#3 ∧ decode w = some (.sb 27#5 6#5 0xa35#12) := by decide

theorem test_decode_sh :
    let w : Insn := 0b1010001_11011_00110_001_10101_0100011#32
    Field.opcode w = 0b0100011#7 ∧ Field.funct3 w = 0b001#3 ∧ decode w = some (.sh 27#5 6#5 0xa35#12) := by decide

theorem test_decode_sw :
    let w : Insn := 0b1010001_11011_00110_010_10101_0100011#32
    Field.opcode w = 0b0100011#7 ∧ Field.funct3 w = 0b010#3 ∧ decode w = some (.sw 27#5 6#5 0xa35#12) := by decide

theorem test_decode_sd :
    let w : Insn := 0b1010001_11011_00110_011_10101_0100011#32
    Field.opcode w = 0b0100011#7 ∧ Field.funct3 w = 0b011#3 ∧ decode w = some (.sd 27#5 6#5 0xa35#12) := by decide

theorem test_decode_addi :
    let w : Insn := 0b1010001_10101_00110_000_10101_0010011#32
    Field.opcode w = 0b0010011#7 ∧ Field.funct3 w = 0b000#3 ∧ decode w = some (.addi 21#5 6#5 0xa35#12) := by decide

theorem test_decode_slti :
    let w : Insn := 0b1010001_10101_00110_010_10101_0010011#32
    Field.opcode w = 0b0010011#7 ∧ Field.funct3 w = 0b010#3 ∧ decode w = some (.slti 21#5 6#5 0xa35#12) := by decide

theorem test_decode_sltiu :
    let w : Insn := 0b1010001_10101_00110_011_10101_0010011#32
    Field.opcode w = 0b0010011#7 ∧ Field.funct3 w = 0b011#3 ∧ decode w = some (.sltiu 21#5 6#5 0xa35#12) := by decide

theorem test_decode_xori :
    let w : Insn := 0b1010001_10101_00110_100_10101_0010011#32
    Field.opcode w = 0b0010011#7 ∧ Field.funct3 w = 0b100#3 ∧ decode w = some (.xori 21#5 6#5 0xa35#12) := by decide

theorem test_decode_ori :
    let w : Insn := 0b1010001_10101_00110_110_10101_0010011#32
    Field.opcode w = 0b0010011#7 ∧ Field.funct3 w = 0b110#3 ∧ decode w = some (.ori 21#5 6#5 0xa35#12) := by decide

theorem test_decode_andi :
    let w : Insn := 0b1010001_10101_00110_111_10101_0010011#32
    Field.opcode w = 0b0010011#7 ∧ Field.funct3 w = 0b111#3 ∧ decode w = some (.andi 21#5 6#5 0xa35#12) := by decide

theorem test_decode_slli :
    let w : Insn := 0b0000001_01101_00110_001_10101_0010011#32
    Field.opcode w = 0b0010011#7 ∧ Field.funct3 w = 0b001#3 ∧ Field.funct6 w = 0b000000#6 ∧ decode w = some (.slli 21#5 6#5 45#6) := by decide

theorem test_decode_srli :
    let w : Insn := 0b0000001_01101_00110_101_10101_0010011#32
    Field.opcode w = 0b0010011#7 ∧ Field.funct3 w = 0b101#3 ∧ Field.funct6 w = 0b000000#6 ∧ decode w = some (.srli 21#5 6#5 45#6) := by decide

theorem test_decode_srai :
    let w : Insn := 0b0100001_01101_00110_101_10101_0010011#32
    Field.opcode w = 0b0010011#7 ∧ Field.funct3 w = 0b101#3 ∧ Field.funct6 w = 0b010000#6 ∧ decode w = some (.srai 21#5 6#5 45#6) := by decide

theorem test_decode_add :
    let w : Insn := 0b0000000_11011_00110_000_10101_0110011#32
    Field.opcode w = 0b0110011#7 ∧ Field.funct3 w = 0b000#3 ∧ Field.funct7 w = 0b0000000#7 ∧ decode w = some (.add 21#5 6#5 27#5) := by decide

theorem test_decode_sub :
    let w : Insn := 0b0100000_11011_00110_000_10101_0110011#32
    Field.opcode w = 0b0110011#7 ∧ Field.funct3 w = 0b000#3 ∧ Field.funct7 w = 0b0100000#7 ∧ decode w = some (.sub 21#5 6#5 27#5) := by decide

theorem test_decode_sll :
    let w : Insn := 0b0000000_11011_00110_001_10101_0110011#32
    Field.opcode w = 0b0110011#7 ∧ Field.funct3 w = 0b001#3 ∧ Field.funct7 w = 0b0000000#7 ∧ decode w = some (.sll 21#5 6#5 27#5) := by decide

theorem test_decode_slt :
    let w : Insn := 0b0000000_11011_00110_010_10101_0110011#32
    Field.opcode w = 0b0110011#7 ∧ Field.funct3 w = 0b010#3 ∧ Field.funct7 w = 0b0000000#7 ∧ decode w = some (.slt 21#5 6#5 27#5) := by decide

theorem test_decode_sltu :
    let w : Insn := 0b0000000_11011_00110_011_10101_0110011#32
    Field.opcode w = 0b0110011#7 ∧ Field.funct3 w = 0b011#3 ∧ Field.funct7 w = 0b0000000#7 ∧ decode w = some (.sltu 21#5 6#5 27#5) := by decide

theorem test_decode_xor :
    let w : Insn := 0b0000000_11011_00110_100_10101_0110011#32
    Field.opcode w = 0b0110011#7 ∧ Field.funct3 w = 0b100#3 ∧ Field.funct7 w = 0b0000000#7 ∧ decode w = some (.xor 21#5 6#5 27#5) := by decide

theorem test_decode_srl :
    let w : Insn := 0b0000000_11011_00110_101_10101_0110011#32
    Field.opcode w = 0b0110011#7 ∧ Field.funct3 w = 0b101#3 ∧ Field.funct7 w = 0b0000000#7 ∧ decode w = some (.srl 21#5 6#5 27#5) := by decide

theorem test_decode_sra :
    let w : Insn := 0b0100000_11011_00110_101_10101_0110011#32
    Field.opcode w = 0b0110011#7 ∧ Field.funct3 w = 0b101#3 ∧ Field.funct7 w = 0b0100000#7 ∧ decode w = some (.sra 21#5 6#5 27#5) := by decide

theorem test_decode_or :
    let w : Insn := 0b0000000_11011_00110_110_10101_0110011#32
    Field.opcode w = 0b0110011#7 ∧ Field.funct3 w = 0b110#3 ∧ Field.funct7 w = 0b0000000#7 ∧ decode w = some (.or 21#5 6#5 27#5) := by decide

theorem test_decode_and :
    let w : Insn := 0b0000000_11011_00110_111_10101_0110011#32
    Field.opcode w = 0b0110011#7 ∧ Field.funct3 w = 0b111#3 ∧ Field.funct7 w = 0b0000000#7 ∧ decode w = some (.and 21#5 6#5 27#5) := by decide

theorem test_decode_addiw :
    let w : Insn := 0b1010001_10101_00110_000_10101_0011011#32
    Field.opcode w = 0b0011011#7 ∧ Field.funct3 w = 0b000#3 ∧ decode w = some (.addiw 21#5 6#5 0xa35#12) := by decide

theorem test_decode_slliw :
    let w : Insn := 0b0000000_10110_00110_001_10101_0011011#32
    Field.opcode w = 0b0011011#7 ∧ Field.funct3 w = 0b001#3 ∧ Field.funct7 w = 0b0000000#7 ∧ decode w = some (.slliw 21#5 6#5 22#5) := by decide

theorem test_decode_srliw :
    let w : Insn := 0b0000000_10110_00110_101_10101_0011011#32
    Field.opcode w = 0b0011011#7 ∧ Field.funct3 w = 0b101#3 ∧ Field.funct7 w = 0b0000000#7 ∧ decode w = some (.srliw 21#5 6#5 22#5) := by decide

theorem test_decode_sraiw :
    let w : Insn := 0b0100000_10110_00110_101_10101_0011011#32
    Field.opcode w = 0b0011011#7 ∧ Field.funct3 w = 0b101#3 ∧ Field.funct7 w = 0b0100000#7 ∧ decode w = some (.sraiw 21#5 6#5 22#5) := by decide

theorem test_decode_addw :
    let w : Insn := 0b0000000_11011_00110_000_10101_0111011#32
    Field.opcode w = 0b0111011#7 ∧ Field.funct3 w = 0b000#3 ∧ Field.funct7 w = 0b0000000#7 ∧ decode w = some (.addw 21#5 6#5 27#5) := by decide

theorem test_decode_subw :
    let w : Insn := 0b0100000_11011_00110_000_10101_0111011#32
    Field.opcode w = 0b0111011#7 ∧ Field.funct3 w = 0b000#3 ∧ Field.funct7 w = 0b0100000#7 ∧ decode w = some (.subw 21#5 6#5 27#5) := by decide

theorem test_decode_sllw :
    let w : Insn := 0b0000000_11011_00110_001_10101_0111011#32
    Field.opcode w = 0b0111011#7 ∧ Field.funct3 w = 0b001#3 ∧ Field.funct7 w = 0b0000000#7 ∧ decode w = some (.sllw 21#5 6#5 27#5) := by decide

theorem test_decode_srlw :
    let w : Insn := 0b0000000_11011_00110_101_10101_0111011#32
    Field.opcode w = 0b0111011#7 ∧ Field.funct3 w = 0b101#3 ∧ Field.funct7 w = 0b0000000#7 ∧ decode w = some (.srlw 21#5 6#5 27#5) := by decide

theorem test_decode_sraw :
    let w : Insn := 0b0100000_11011_00110_101_10101_0111011#32
    Field.opcode w = 0b0111011#7 ∧ Field.funct3 w = 0b101#3 ∧ Field.funct7 w = 0b0100000#7 ∧ decode w = some (.sraw 21#5 6#5 27#5) := by decide

theorem test_decode_mul :
    let w : Insn := 0b0000001_11011_00110_000_10101_0110011#32
    Field.opcode w = 0b0110011#7 ∧ Field.funct3 w = 0b000#3 ∧ Field.funct7 w = 0b0000001#7 ∧ decode w = some (.mul 21#5 6#5 27#5) := by decide

theorem test_decode_mulh :
    let w : Insn := 0b0000001_11011_00110_001_10101_0110011#32
    Field.opcode w = 0b0110011#7 ∧ Field.funct3 w = 0b001#3 ∧ Field.funct7 w = 0b0000001#7 ∧ decode w = some (.mulh 21#5 6#5 27#5) := by decide

theorem test_decode_mulhsu :
    let w : Insn := 0b0000001_11011_00110_010_10101_0110011#32
    Field.opcode w = 0b0110011#7 ∧ Field.funct3 w = 0b010#3 ∧ Field.funct7 w = 0b0000001#7 ∧ decode w = some (.mulhsu 21#5 6#5 27#5) := by decide

theorem test_decode_mulhu :
    let w : Insn := 0b0000001_11011_00110_011_10101_0110011#32
    Field.opcode w = 0b0110011#7 ∧ Field.funct3 w = 0b011#3 ∧ Field.funct7 w = 0b0000001#7 ∧ decode w = some (.mulhu 21#5 6#5 27#5) := by decide

theorem test_decode_div :
    let w : Insn := 0b0000001_11011_00110_100_10101_0110011#32
    Field.opcode w = 0b0110011#7 ∧ Field.funct3 w = 0b100#3 ∧ Field.funct7 w = 0b0000001#7 ∧ decode w = some (.div 21#5 6#5 27#5) := by decide

theorem test_decode_divu :
    let w : Insn := 0b0000001_11011_00110_101_10101_0110011#32
    Field.opcode w = 0b0110011#7 ∧ Field.funct3 w = 0b101#3 ∧ Field.funct7 w = 0b0000001#7 ∧ decode w = some (.divu 21#5 6#5 27#5) := by decide

theorem test_decode_rem :
    let w : Insn := 0b0000001_11011_00110_110_10101_0110011#32
    Field.opcode w = 0b0110011#7 ∧ Field.funct3 w = 0b110#3 ∧ Field.funct7 w = 0b0000001#7 ∧ decode w = some (.rem 21#5 6#5 27#5) := by decide

theorem test_decode_remu :
    let w : Insn := 0b0000001_11011_00110_111_10101_0110011#32
    Field.opcode w = 0b0110011#7 ∧ Field.funct3 w = 0b111#3 ∧ Field.funct7 w = 0b0000001#7 ∧ decode w = some (.remu 21#5 6#5 27#5) := by decide

theorem test_decode_mulw :
    let w : Insn := 0b0000001_11011_00110_000_10101_0111011#32
    Field.opcode w = 0b0111011#7 ∧ Field.funct3 w = 0b000#3 ∧ Field.funct7 w = 0b0000001#7 ∧ decode w = some (.mulw 21#5 6#5 27#5) := by decide

theorem test_decode_divw :
    let w : Insn := 0b0000001_11011_00110_100_10101_0111011#32
    Field.opcode w = 0b0111011#7 ∧ Field.funct3 w = 0b100#3 ∧ Field.funct7 w = 0b0000001#7 ∧ decode w = some (.divw 21#5 6#5 27#5) := by decide

theorem test_decode_divuw :
    let w : Insn := 0b0000001_11011_00110_101_10101_0111011#32
    Field.opcode w = 0b0111011#7 ∧ Field.funct3 w = 0b101#3 ∧ Field.funct7 w = 0b0000001#7 ∧ decode w = some (.divuw 21#5 6#5 27#5) := by decide

theorem test_decode_remw :
    let w : Insn := 0b0000001_11011_00110_110_10101_0111011#32
    Field.opcode w = 0b0111011#7 ∧ Field.funct3 w = 0b110#3 ∧ Field.funct7 w = 0b0000001#7 ∧ decode w = some (.remw 21#5 6#5 27#5) := by decide

theorem test_decode_remuw :
    let w : Insn := 0b0000001_11011_00110_111_10101_0111011#32
    Field.opcode w = 0b0111011#7 ∧ Field.funct3 w = 0b111#3 ∧ Field.funct7 w = 0b0000001#7 ∧ decode w = some (.remuw 21#5 6#5 27#5) := by decide

theorem test_decode_fence :
    let w : Insn := 0b1000111_10101_00110_000_10101_0001111#32
    Field.opcode w = 0b0001111#7 ∧ Field.funct3 w = 0b000#3 ∧ decode w = some (.fence 0x8F5#12 6#5 21#5) := by decide

theorem test_decode_fenceTso :
    let w : Insn := 0b1000001_10011_00110_000_10101_0001111#32
    Field.opcode w = 0b0001111#7 ∧ Field.funct3 w = 0b000#3 ∧ decode w = some (.fenceTso 6#5 21#5) := by decide

theorem test_decode_pause :
    let w : Insn := 0b0000000_10000_00000_000_00000_0001111#32
    Field.opcode w = 0b0001111#7 ∧ Field.funct3 w = 0b000#3 ∧ decode w = some .pause := by decide

theorem test_decode_ecall :
    let w : Insn := 0b0000000_00000_00000_000_00000_1110011#32
    Field.opcode w = 0b1110011#7 ∧ Field.funct3 w = 0b000#3 ∧ decode w = some .ecall := by decide

theorem test_decode_ebreak :
    let w : Insn := 0b0000000_00001_00000_000_00000_1110011#32
    Field.opcode w = 0b1110011#7 ∧ Field.funct3 w = 0b000#3 ∧ decode w = some .ebreak := by decide

theorem test_decode_csrrw :
    let w : Insn := 0b0111110_00101_00110_001_10101_1110011#32
    Field.opcode w = 0b1110011#7 ∧ Field.funct3 w = 0b001#3 ∧ decode w = some (.csrrw 21#5 0x7c5#12 6#5) := by decide

theorem test_decode_csrrs :
    let w : Insn := 0b0111110_00101_00110_010_10101_1110011#32
    Field.opcode w = 0b1110011#7 ∧ Field.funct3 w = 0b010#3 ∧ decode w = some (.csrrs 21#5 0x7c5#12 6#5) := by decide

theorem test_decode_csrrc :
    let w : Insn := 0b0111110_00101_00110_011_10101_1110011#32
    Field.opcode w = 0b1110011#7 ∧ Field.funct3 w = 0b011#3 ∧ decode w = some (.csrrc 21#5 0x7c5#12 6#5) := by decide

theorem test_decode_csrrwi :
    let w : Insn := 0b0111110_00101_10011_101_10101_1110011#32
    Field.opcode w = 0b1110011#7 ∧ Field.funct3 w = 0b101#3 ∧ decode w = some (.csrrwi 21#5 0x7c5#12 19#5) := by decide

theorem test_decode_csrrsi :
    let w : Insn := 0b0111110_00101_10011_110_10101_1110011#32
    Field.opcode w = 0b1110011#7 ∧ Field.funct3 w = 0b110#3 ∧ decode w = some (.csrrsi 21#5 0x7c5#12 19#5) := by decide

theorem test_decode_csrrci :
    let w : Insn := 0b0111110_00101_10011_111_10101_1110011#32
    Field.opcode w = 0b1110011#7 ∧ Field.funct3 w = 0b111#3 ∧ decode w = some (.csrrci 21#5 0x7c5#12 19#5) := by decide

theorem test_decode_rdcycle :
    let w : Insn := 0b1100000_00000_00000_010_10101_1110011#32
    Field.opcode w = 0b1110011#7 ∧ Field.funct3 w = 0b010#3 ∧ decode w = some (.rdcycle 21#5) := by decide

theorem test_decode_rdtime :
    let w : Insn := 0b1100000_00001_00000_010_10101_1110011#32
    Field.opcode w = 0b1110011#7 ∧ Field.funct3 w = 0b010#3 ∧ decode w = some (.rdtime 21#5) := by decide

theorem test_decode_rdinstret :
    let w : Insn := 0b1100000_00010_00000_010_10101_1110011#32
    Field.opcode w = 0b1110011#7 ∧ Field.funct3 w = 0b010#3 ∧ decode w = some (.rdinstret 21#5) := by decide

theorem test_decode_rdcycleh :
    let w : Insn := 0b1100100_00000_00000_010_10101_1110011#32
    Field.opcode w = 0b1110011#7 ∧ Field.funct3 w = 0b010#3 ∧ decode w = some (.rdcycleh 21#5) := by decide

theorem test_decode_rdtimeh :
    let w : Insn := 0b1100100_00001_00000_010_10101_1110011#32
    Field.opcode w = 0b1110011#7 ∧ Field.funct3 w = 0b010#3 ∧ decode w = some (.rdtimeh 21#5) := by decide

theorem test_decode_rdinstreth :
    let w : Insn := 0b1100100_00010_00000_010_10101_1110011#32
    Field.opcode w = 0b1110011#7 ∧ Field.funct3 w = 0b010#3 ∧ decode w = some (.rdinstreth 21#5) := by decide

/-- Illegal words of R94, R97, R98, R101, R102 and R105: none is given to a neighbour. -/
theorem test_decode_refuses :
    [0xffffffff#32, 0x00000000#32, 0x00000001#32, 0x0000100f#32, 0x30200073#32, 0x10500073#32, 0x000000f3#32, 0x00004073#32,
      0x02001013#32, 0x04001013#32, 0x80005013#32, 0x0200101b#32, 0x40001033#32, 0x0200103b#32, 0x00007003#32, 0x00004023#32,
      0x00002063#32, 0x00001067#32].map (fun w => (decode w).isNone) =
      [true, true, true, true, true, true, true, true, false, true, true, true, true, true, true, true, true, true] := by decide

/-- The decoder on bytes gives back what follows, and names why it refuses. -/
theorem test_decodeBytes :
    decodeBytes [0x33#8, 0x05#8, 0x62#8, 0x00#8, 0xAA#8] = .ok (.add 10#5 4#5 6#5, [0xAA#8]) ∧
      decodeBytes [0x33#8, 0x05#8, 0x62#8] = .error .truncated ∧
      decodeBytes [0xff#8, 0xff#8, 0xff#8, 0xff#8] = .error (.illegal 0xffffffff#32) := by
  decide

theorem test_decodeTableWord : decodeTableWord 32 0x00620533 = some (.add 10#5 4#5 6#5) ∧ decodeTableWord 32 0 = none := by decide

/-- R107: `csrr rd,cycle` is written with `csrrs` and assembles to the word of `rdcycle`. -/
theorem test_csrr_cycle_is_rdcycle :
    Assembly.expand (.csrr 5#5 0xC00#12) = [.csrrs 5#5 0xC00#12 0#5] ∧
      decode (encode (.csrrs 5#5 0xC00#12 0#5)) = some (.rdcycle 5#5) := by
  decide

/-- R106: the document's own lines. -/
theorem test_render :
    [Instr.lui 4#5 1024#20, .add 10#5 4#5 6#5, .addi 1#5 0#5 (-10#12), .bne 1#5 0#5 4#12, .beq 3#5 0#5 (-2#12)].map Assembly.render =
      ["lui x4,1024", "add x10,x4,x6", "addi x1,x0,-10", "bne x1,x0,+8", "beq x3,x0,-4"] := by
  decide

/-! ### One step each -/

/-- R141. -/
theorem test_step_addi_wraps :
    outcome ((State.reset.writeReg 6#5 0x7fffffffffffffff#64).withFetchWord 32 0x7ff30293) (fun t => t.readReg 5#5) = some 0x80000000000007fe#64 := by decide

/-- R142. -/
theorem test_step_slti_extends :
    outcome ((State.reset.writeReg 6#5 0xfffffffffffffffe#64).withFetchWord 32 0xfff32293) (fun t => t.readReg 5#5) = some 0x1#64 := by decide

/-- R143. -/
theorem test_step_sltiu_extends_then_unsigned :
    outcome ((State.reset.writeReg 6#5 0x5#64).withFetchWord 32 0xfff33293) (fun t => t.readReg 5#5) = some 0x1#64 := by decide

/-- R144. -/
theorem test_step_xori :
    outcome ((State.reset.writeReg 6#5 0xff00ff00ff00ff#64).withFetchWord 32 0xfff34293) (fun t => t.readReg 5#5) = some 0xff00ff00ff00ff00#64 := by decide

/-- R145. -/
theorem test_step_ori :
    outcome ((State.reset.writeReg 6#5 0x7ff#64).withFetchWord 32 0x80036293) (fun t => t.readReg 5#5) = some 0xffffffffffffffff#64 := by decide

/-- R146. -/
theorem test_step_andi :
    outcome ((State.reset.writeReg 6#5 0x123456789abcdeff#64).withFetchWord 32 0xff037293) (fun t => t.readReg 5#5) = some 0x123456789abcdef0#64 := by decide

/-- R147. -/
theorem test_step_slli :
    outcome ((State.reset.writeReg 6#5 0x3#64).withFetchWord 32 0x03f31293) (fun t => t.readReg 5#5) = some 0x8000000000000000#64 := by decide

/-- R148. -/
theorem test_step_srli :
    outcome ((State.reset.writeReg 6#5 0xf000000000000000#64).withFetchWord 32 0x00435293) (fun t => t.readReg 5#5) = some 0xf00000000000000#64 := by decide

/-- R149. -/
theorem test_step_srai :
    outcome ((State.reset.writeReg 6#5 0xf000000000000000#64).withFetchWord 32 0x40435293) (fun t => t.readReg 5#5) = some 0xff00000000000000#64 := by decide

/-- R150. -/
theorem test_step_add :
    outcome (((State.reset.writeReg 4#5 0x400000#64).writeReg 6#5 0x1e000#64).withFetchWord 32 0x00620533) (fun t => t.readReg 10#5) = some 0x41e000#64 := by decide

/-- R151. -/
theorem test_step_sub :
    outcome (((State.reset.writeReg 6#5 0x1e000#64).writeReg 5#5 0x33000#64).withFetchWord 32 0x40530533) (fun t => t.readReg 10#5) = some 0xfffffffffffeb000#64 := by decide

/-- R152. -/
theorem test_step_sll_masks_six_bits :
    outcome (((State.reset.writeReg 6#5 0x1#64).writeReg 7#5 0x7f#64).withFetchWord 32 0x007312b3) (fun t => t.readReg 5#5) = some 0x8000000000000000#64 := by decide

/-- R153. -/
theorem test_step_slt_compares_values :
    outcome (((State.reset.writeReg 6#5 0xffffffffffffffff#64).writeReg 7#5 0x1#64).withFetchWord 32 0x007322b3) (fun t => t.readReg 5#5) = some 0x1#64 := by decide

/-- R154. -/
theorem test_step_sltu :
    outcome (((State.reset.writeReg 6#5 0x1#64).writeReg 7#5 0xffffffffffffffff#64).withFetchWord 32 0x007332b3) (fun t => t.readReg 5#5) = some 0x1#64 := by decide

/-- R155. -/
theorem test_step_xor :
    outcome (((State.reset.writeReg 6#5 0xff00#64).writeReg 7#5 0xff0#64).withFetchWord 32 0x007342b3) (fun t => t.readReg 5#5) = some 0xf0f0#64 := by decide

/-- R156. -/
theorem test_step_srl :
    outcome (((State.reset.writeReg 6#5 0x8000000000000000#64).writeReg 7#5 0x41#64).withFetchWord 32 0x007352b3) (fun t => t.readReg 5#5) = some 0x4000000000000000#64 := by decide

/-- R157. -/
theorem test_step_sra :
    outcome (((State.reset.writeReg 6#5 0x8000000000000000#64).writeReg 7#5 0x41#64).withFetchWord 32 0x407352b3) (fun t => t.readReg 5#5) = some 0xc000000000000000#64 := by decide

/-- R158. -/
theorem test_step_or :
    outcome (((State.reset.writeReg 6#5 0xf0#64).writeReg 7#5 0xf#64).withFetchWord 32 0x007362b3) (fun t => t.readReg 5#5) = some 0xff#64 := by decide

/-- R159. -/
theorem test_step_and :
    outcome (((State.reset.writeReg 6#5 0xff#64).writeReg 7#5 0x3c#64).withFetchWord 32 0x007372b3) (fun t => t.readReg 5#5) = some 0x3c#64 := by decide

/-- R160. -/
theorem test_step_addiw :
    outcome ((State.reset.writeReg 6#5 0x7fffffff#64).withFetchWord 32 0x0013029b) (fun t => t.readReg 5#5) = some 0xffffffff80000000#64 := by decide

/-- R161. -/
theorem test_step_slliw :
    outcome ((State.reset.writeReg 6#5 0x1#64).withFetchWord 32 0x01f3129b) (fun t => t.readReg 5#5) = some 0xffffffff80000000#64 := by decide

/-- R162. -/
theorem test_step_srliw_ignores_upper_half :
    outcome ((State.reset.writeReg 6#5 0xabcdef0180000000#64).withFetchWord 32 0x01f3529b) (fun t => t.readReg 5#5) = some 0x1#64 := by decide

/-- R163. -/
theorem test_step_sraiw :
    outcome ((State.reset.writeReg 6#5 0x80000000#64).withFetchWord 32 0x41f3529b) (fun t => t.readReg 5#5) = some 0xffffffffffffffff#64 := by decide

/-- R164. -/
theorem test_step_addw :
    outcome (((State.reset.writeReg 6#5 0x7fffffff#64).writeReg 7#5 0x1#64).withFetchWord 32 0x007302bb) (fun t => t.readReg 5#5) = some 0xffffffff80000000#64 := by decide

/-- R165. -/
theorem test_step_subw :
    outcome (((State.reset.writeReg 6#5 0x80000000#64).writeReg 7#5 0x1#64).withFetchWord 32 0x407302bb) (fun t => t.readReg 5#5) = some 0x7fffffff#64 := by decide

/-- R166. -/
theorem test_step_sllw_masks_five_bits :
    outcome (((State.reset.writeReg 6#5 0x1#64).writeReg 7#5 0x20#64).withFetchWord 32 0x007312bb) (fun t => t.readReg 5#5) = some 0x1#64 := by decide

/-- R167. -/
theorem test_step_srlw :
    outcome (((State.reset.writeReg 6#5 0xffffffff80000000#64).writeReg 7#5 0x21#64).withFetchWord 32 0x007352bb) (fun t => t.readReg 5#5) = some 0x40000000#64 := by decide

/-- R168. -/
theorem test_step_sraw :
    outcome (((State.reset.writeReg 6#5 0x80000000#64).writeReg 7#5 0x21#64).withFetchWord 32 0x407352bb) (fun t => t.readReg 5#5) = some 0xffffffffc0000000#64 := by decide

/-- R181. -/
theorem test_step_mul :
    outcome (((State.reset.writeReg 6#5 0x123456789abcdef0#64).writeReg 7#5 0xfedcba9876543210#64).withFetchWord 32 0x027302b3) (fun t => t.readReg 5#5) = some 0x236d88fe5618cf00#64 := by decide

/-- R182. -/
theorem test_step_mulh :
    outcome (((State.reset.writeReg 3#5 0xffffffffffffff80#64).writeReg 4#5 0x7fffffffffffffff#64).withFetchWord 32 0x02419333) (fun t => t.readReg 6#5) = some 0xffffffffffffffc0#64 := by decide

/-- R183. -/
theorem test_step_mulhsu :
    outcome (((State.reset.writeReg 6#5 0x123456789abcdef0#64).writeReg 7#5 0xfedcba9876543210#64).withFetchWord 32 0x027322b3) (fun t => t.readReg 5#5) = some 0x121fa00ad77d7422#64 := by decide

/-- R184. -/
theorem test_step_mulhu :
    outcome (((State.reset.writeReg 6#5 0xffffffffffffff80#64).writeReg 7#5 0x7fffffffffffffff#64).withFetchWord 32 0x027332b3) (fun t => t.readReg 5#5) = some 0x7fffffffffffffbf#64 := by decide

/-- R185. -/
theorem test_step_div_truncates :
    outcome (((State.reset.writeReg 6#5 0xfffffffffffffff9#64).writeReg 7#5 0x2#64).withFetchWord 32 0x027342b3) (fun t => t.readReg 5#5) = some 0xfffffffffffffffd#64 := by decide

/-- R185, R194. -/
theorem test_step_div_overflow :
    outcome (((State.reset.writeReg 6#5 0x8000000000000000#64).writeReg 7#5 0xffffffffffffffff#64).withFetchWord 32 0x027342b3) (fun t => t.readReg 5#5) = some 0x8000000000000000#64 := by decide

/-- R186. -/
theorem test_step_divu :
    outcome (((State.reset.writeReg 6#5 0xfffffffffffffff9#64).writeReg 7#5 0x2#64).withFetchWord 32 0x027352b3) (fun t => t.readReg 5#5) = some 0x7ffffffffffffffc#64 := by decide

/-- R186, R194. -/
theorem test_step_divu_by_zero :
    outcome ((State.reset.writeReg 6#5 0x7#64).withFetchWord 32 0x027352b3) (fun t => t.readReg 5#5) = some 0xffffffffffffffff#64 := by decide

/-- R187. -/
theorem test_step_rem_sign_of_dividend :
    outcome (((State.reset.writeReg 6#5 0xfffffffffffffff9#64).writeReg 7#5 0x2#64).withFetchWord 32 0x027362b3) (fun t => t.readReg 5#5) = some 0xffffffffffffffff#64 := by decide

/-- R187, R194. -/
theorem test_step_rem_by_zero :
    outcome ((State.reset.writeReg 6#5 0x7#64).withFetchWord 32 0x027362b3) (fun t => t.readReg 5#5) = some 0x7#64 := by decide

/-- R188. -/
theorem test_step_remu :
    outcome (((State.reset.writeReg 6#5 0x7#64).writeReg 7#5 0xfffffffffffffffe#64).withFetchWord 32 0x027372b3) (fun t => t.readReg 5#5) = some 0x7#64 := by decide

/-- R189. -/
theorem test_step_mulw :
    outcome (((State.reset.writeReg 6#5 0xfffffffffffffff9#64).writeReg 7#5 0x2#64).withFetchWord 32 0x027302bb) (fun t => t.readReg 5#5) = some 0xfffffffffffffff2#64 := by decide

/-- R190. -/
theorem test_step_divw :
    outcome (((State.reset.writeReg 6#5 0x7#64).writeReg 7#5 0xfffffffffffffffe#64).withFetchWord 32 0x027342bb) (fun t => t.readReg 5#5) = some 0xfffffffffffffffd#64 := by decide

/-- R190. -/
theorem test_step_divw_low_halves_only :
    outcome (((State.reset.writeReg 6#5 0x100000007#64).writeReg 7#5 0x100000000#64).withFetchWord 32 0x027342bb) (fun t => t.readReg 5#5) = some 0xffffffffffffffff#64 := by decide

/-- R191. -/
theorem test_step_divuw :
    outcome (((State.reset.writeReg 6#5 0xfffffffffffffff9#64).writeReg 7#5 0x2#64).withFetchWord 32 0x027352bb) (fun t => t.readReg 5#5) = some 0x7ffffffc#64 := by decide

/-- R192. -/
theorem test_step_remw :
    outcome (((State.reset.writeReg 6#5 0xfffffffffffffff9#64).writeReg 7#5 0x2#64).withFetchWord 32 0x027362bb) (fun t => t.readReg 5#5) = some 0xffffffffffffffff#64 := by decide

/-- R192. -/
theorem test_step_remw_by_zero :
    outcome (((State.reset.writeReg 6#5 0x100000007#64).writeReg 7#5 0x100000000#64).withFetchWord 32 0x027362bb) (fun t => t.readReg 5#5) = some 0x7#64 := by decide

/-- R193. -/
theorem test_step_remuw_extends_sign :
    outcome (((State.reset.writeReg 6#5 0x80000000#64).writeReg 7#5 0xffffffff#64).withFetchWord 32 0x027372bb) (fun t => t.readReg 5#5) = some 0xffffffff80000000#64 := by decide

/-- R201. -/
theorem test_step_lb :
    outcome ((machine.writeReg 6#5 0x80000100#64).withFetchWord 32 0x00730283) (fun t => t.readReg 5#5) = some 0xffffffffffffff88#64 := by decide

/-- R202. -/
theorem test_step_lh_odd_address :
    outcome ((machine.writeReg 6#5 0x80000108#64).withFetchWord 32 0xfff31283) (fun t => t.readReg 5#5) = some 0x1088#64 := by decide

/-- R203. -/
theorem test_step_lw_over_its_base :
    outcome ((machine.writeReg 5#5 0x80000104#64).withFetchWord 32 0x0002a283) (fun t => t.readReg 5#5) = some 0xffffffff88776655#64 := by decide

/-- R204. -/
theorem test_step_ld_misaligned :
    outcome ((machine.writeReg 6#5 0x80000108#64).withFetchWord 32 0xfff33283) (fun t => t.readReg 5#5) = some 0xdcba987654321088#64 := by decide

/-- R205. -/
theorem test_step_lbu :
    outcome ((machine.writeReg 6#5 0x80000108#64).withFetchWord 32 0xfff34283) (fun t => t.readReg 5#5) = some 0x88#64 := by decide

/-- R206. -/
theorem test_step_lhu :
    outcome ((machine.writeReg 6#5 0x80000100#64).withFetchWord 32 0x00635283) (fun t => t.readReg 5#5) = some 0x8877#64 := by decide

/-- R207. -/
theorem test_step_lwu :
    outcome ((machine.writeReg 6#5 0x80000100#64).withFetchWord 32 0x00436283) (fun t => t.readReg 5#5) = some 0x88776655#64 := by decide

/-- R208. -/
theorem test_step_sb :
    outcome (((machine.writeReg 6#5 0x80000108#64).writeReg 7#5 0xa1b2c3d4e5f60718#64).withFetchWord 32 0xfe730c23) (fun t => loadBytesLE t.mem 0x80000100 8) = some 0x8877665544332218#64 := by decide

/-- R209. -/
theorem test_step_sh :
    outcome (((machine.writeReg 6#5 0x80000108#64).writeReg 7#5 0xa1b2c3d4e5f60718#64).withFetchWord 32 0xfe731c23) (fun t => loadBytesLE t.mem 0x80000100 8) = some 0x8877665544330718#64 := by decide

/-- R210. -/
theorem test_step_sw :
    outcome (((machine.writeReg 6#5 0x80000108#64).writeReg 7#5 0xa1b2c3d4e5f60718#64).withFetchWord 32 0xfe732c23) (fun t => loadBytesLE t.mem 0x80000100 8) = some 0x88776655e5f60718#64 := by decide

/-- R211. -/
theorem test_step_sd_misaligned :
    outcome (((machine.writeReg 6#5 0x80000100#64).writeReg 7#5 0xa1b2c3d4e5f60718#64).withFetchWord 32 0x007331a3) (fun t => (loadBytesLE t.mem 0x80000100 8, loadBytesLE t.mem 0x80000108 8)) = some (0xd4e5f60718332211#64, 0xfedcba9876a1b2c3#64) := by decide

/-- R221. -/
theorem test_step_beq_taken :
    outcome ((((State.reset.setPc 0x80000100#64).writeReg 6#5 0x5#64).writeReg 7#5 0x5#64).withFetchWord 32 0x00730863) (fun t => t.pc) = some 0x80000110#64 := by decide

/-- R221. -/
theorem test_step_beq_not_taken :
    outcome ((((State.reset.setPc 0x80000100#64).writeReg 6#5 0x5#64).writeReg 7#5 0x6#64).withFetchWord 32 0x00730863) (fun t => t.pc) = some 0x80000104#64 := by decide

/-- R222. -/
theorem test_step_bne :
    outcome ((((State.reset.setPc 0x80000100#64).writeReg 6#5 0x5#64).writeReg 7#5 0x6#64).withFetchWord 32 0xfe7318e3) (fun t => t.pc) = some 0x800000f0#64 := by decide

/-- R223. -/
theorem test_step_blt :
    outcome ((((State.reset.setPc 0x80000100#64).writeReg 6#5 0xffffffffffffffff#64).writeReg 7#5 0x1#64).withFetchWord 32 0x7e734fe3) (fun t => t.pc) = some 0x800010fe#64 := by decide

/-- R224. -/
theorem test_step_bge_back :
    outcome ((((State.reset.setPc 0x80002000#64).writeReg 6#5 0x1#64).writeReg 7#5 0xffffffffffffffff#64).withFetchWord 32 0x80735063) (fun t => t.pc) = some 0x80001000#64 := by decide

/-- R225. -/
theorem test_step_bltu :
    outcome ((((State.reset.setPc 0x80000100#64).writeReg 6#5 0x1#64).writeReg 7#5 0xffffffffffffffff#64).withFetchWord 32 0x00736463) (fun t => t.pc) = some 0x80000108#64 := by decide

/-- R226. -/
theorem test_step_bgeu :
    outcome ((((State.reset.setPc 0x80000100#64).writeReg 6#5 0xffffffffffffffff#64).writeReg 7#5 0x1#64).withFetchWord 32 0x00737463) (fun t => t.pc) = some 0x80000108#64 := by decide

/-- R227. -/
theorem test_step_jal_back :
    outcome ((State.reset.setPc 0x80000100#64).withFetchWord 32 0xffdff0ef) (fun t => (t.readReg 1#5, t.pc)) = some (0x80000104#64, 0x800000fc#64) := by decide

/-- R228. -/
theorem test_step_jalr_clears_bit_0 :
    outcome (((State.reset.setPc 0x80000100#64).writeReg 6#5 0x80000200#64).withFetchWord 32 0x005300e7) (fun t => (t.readReg 1#5, t.pc)) = some (0x80000104#64, 0x80000204#64) := by decide

/-- R228. -/
theorem test_step_jalr_over_its_base :
    outcome (((State.reset.setPc 0x80000100#64).writeReg 1#5 0x80000300#64).withFetchWord 32 0x000080e7) (fun t => (t.readReg 1#5, t.pc)) = some (0x80000104#64, 0x80000300#64) := by decide

/-- R229. -/
theorem test_step_lui_negative :
    outcome (State.reset.withFetchWord 32 0x800002b7) (fun t => t.readReg 5#5) = some 0xffffffff80000000#64 := by decide

/-- R230. -/
theorem test_step_auipc_wraps :
    outcome ((State.reset.setPc 0x80000100#64).withFetchWord 32 0x80000297) (fun t => t.readReg 5#5) = some 0x100#64 := by decide

/-- R241. -/
theorem test_step_csrrw_swaps :
    outcome (((State.reset.writeCsr 0x340#12 0xabcd#64).writeReg 5#5 0x1111#64).withFetchWord 32 0x340292f3) (fun t => (t.readReg 5#5, t.readCsr 0x340#12)) = some (0xabcd#64, 0x1111#64) := by decide

/-- R242. -/
theorem test_step_csrrs :
    outcome (((State.reset.writeCsr 0x340#12 0xff00#64).writeReg 6#5 0xf0f#64).withFetchWord 32 0x340322f3) (fun t => (t.readReg 5#5, t.readCsr 0x340#12)) = some (0xff00#64, 0xff0f#64) := by decide

/-- R243. -/
theorem test_step_csrrc :
    outcome (((State.reset.writeCsr 0x340#12 0xffff#64).writeReg 6#5 0xff0#64).withFetchWord 32 0x340332f3) (fun t => (t.readReg 5#5, t.readCsr 0x340#12)) = some (0xffff#64, 0xf00f#64) := by decide

/-- R244. -/
theorem test_step_csrrwi_writes_zero :
    outcome ((State.reset.writeCsr 0x340#12 0xabcd#64).withFetchWord 32 0x340052f3) (fun t => (t.readReg 5#5, t.readCsr 0x340#12)) = some (0xabcd#64, 0x0#64) := by decide

/-- R245. -/
theorem test_step_csrrsi :
    outcome ((State.reset.writeCsr 0x340#12 0xa0#64).withFetchWord 32 0x3402e2f3) (fun t => (t.readReg 5#5, t.readCsr 0x340#12)) = some (0xa0#64, 0xa5#64) := by decide

/-- R246. -/
theorem test_step_csrrci :
    outcome ((State.reset.writeCsr 0x340#12 0xff#64).withFetchWord 32 0x3401f2f3) (fun t => (t.readReg 5#5, t.readCsr 0x340#12)) = some (0xff#64, 0xfc#64) := by decide

/-- R252. -/
theorem test_step_ebreak :
    outcome ((State.reset.writeReg 5#5 0x55#64).withFetchWord 32 0x00100073) (fun t => (t.readReg 5#5, t.pc, t.status)) = some (0x55#64, 0x80000004#64, .running) := by decide

/-- R253. -/
theorem test_step_fence :
    outcome ((State.reset.writeReg 5#5 0x55#64).withFetchWord 32 0x0ff0000f) (fun t => (t.readReg 5#5, t.pc)) = some (0x55#64, 0x80000004#64) := by decide

/-- R254. -/
theorem test_step_fenceTso :
    outcome ((State.reset.writeReg 5#5 0x55#64).withFetchWord 32 0x8330000f) (fun t => (t.readReg 5#5, t.pc)) = some (0x55#64, 0x80000004#64) := by decide

/-- R255. -/
theorem test_step_pause :
    outcome ((State.reset.writeReg 5#5 0x55#64).withFetchWord 32 0x0100000f) (fun t => (t.readReg 5#5, t.pc)) = some (0x55#64, 0x80000004#64) := by decide

/-- R256. -/
theorem test_step_rdcycle_keeps_rd :
    outcome (((State.reset.writeReg 5#5 0x55#64).writeCsr 0xc00#12 0x77#64).withFetchWord 32 0xc00022f3) (fun t => (t.readReg 5#5, t.pc)) = some (0x55#64, 0x80000004#64) := by decide

/-- R257. -/
theorem test_step_rdtime_keeps_rd :
    outcome (((State.reset.writeReg 5#5 0x55#64).writeCsr 0xc01#12 0x77#64).withFetchWord 32 0xc01022f3) (fun t => (t.readReg 5#5, t.pc)) = some (0x55#64, 0x80000004#64) := by decide

/-- R258. -/
theorem test_step_rdinstret_keeps_rd :
    outcome (((State.reset.writeReg 5#5 0x55#64).writeCsr 0xc02#12 0x77#64).withFetchWord 32 0xc02022f3) (fun t => (t.readReg 5#5, t.pc)) = some (0x55#64, 0x80000004#64) := by decide

/-- R259. -/
theorem test_step_rdcycleh_keeps_rd :
    outcome (((State.reset.writeReg 5#5 0x55#64).writeCsr 0xc80#12 0x77#64).withFetchWord 32 0xc80022f3) (fun t => (t.readReg 5#5, t.pc)) = some (0x55#64, 0x80000004#64) := by decide

/-- R260. -/
theorem test_step_rdtimeh_keeps_rd :
    outcome (((State.reset.writeReg 5#5 0x55#64).writeCsr 0xc81#12 0x77#64).withFetchWord 32 0xc81022f3) (fun t => (t.readReg 5#5, t.pc)) = some (0x55#64, 0x80000004#64) := by decide

/-- R261. -/
theorem test_step_rdinstreth_keeps_rd :
    outcome (((State.reset.writeReg 5#5 0x55#64).writeCsr 0xc82#12 0x77#64).withFetchWord 32 0xc82022f3) (fun t => (t.readReg 5#5, t.pc)) = some (0x55#64, 0x80000004#64) := by decide

/-- R251. -/
theorem test_step_ecall :
    outcome ((((State.reset.writeReg 10#5 0x1#64).writeReg 11#5 0x2#64).writeReg 17#5 0x5d#64).withFetchWord 32 0x00000073) (fun t => (t.status, t.pc)) = some (.faulted (.environmentCall .machine #v[1#64, 2#64, 0#64, 0#64, 0#64, 0#64, 0#64, 0x5D#64] 0x80000000#64), 0x80000000#64) := by decide

/-- R203. -/
theorem test_step_lw_out_of_range :
    outcome (State.reset.withFetchWord 32 0xffc32283) (fun t => (t.status, t.pc)) = some (.faulted (.memoryAccess .load 0xFFFFFFFFFFFFFFFC#64 4 0x80000000#64), 0x80000000#64) := by decide

/-- R210. -/
theorem test_step_sw_out_of_range_writes_nothing :
    outcome (((State.reset.writeReg 6#5 0x809ffffd#64).writeReg 7#5 0xa1b2c3d4e5f60718#64).withFetchWord 32 0x00732023) (fun t => (t.status, loadBytesLE t.mem 0x809ffffd 3)) = some (.faulted (.memoryAccess .store 0x809FFFFD#64 4 0x80000000#64), 0x0#64) := by decide

/-- R94. -/
theorem test_step_all_ones_is_illegal :
    outcome (State.reset.withFetchWord 32 0xffffffff) (fun t => (t.status, t.pc)) = some (.faulted (.illegalInstruction 0xffffffff#32 0x80000000#64), 0x80000000#64) := by decide

/-! ### Fetch, stop, refusal, reset -/

/-- R121, `Buffer` mode: `pc[1:0]` is dropped, past the end is `Exhausted`, below the base is a fault. -/
theorem test_buffer_fetch :
    fetch ((buffered [0x00000013#32, 0x00100073#32]).setPc 0x80000006#64) = .word 0x00100073#32 ∧
      fetch ((buffered [0x00000013#32, 0x00100073#32]).setPc 0x80000008#64) = .exhausted ∧
      fetch ((buffered [0x00000013#32]).setPc 0x7FFFFFFF#64) =
        .raised (.memoryAccess .fetch 0x7FFFFFFF#64 4 0x7FFFFFFF#64) := by
  decide

/-- R55, R121, `Memory` mode: the last four mapped bytes can be fetched, one further cannot. -/
theorem test_memory_fetch :
    fetch (State.reset.setPc 0x809FFFFC#64) = .word 0#32 ∧
      fetch (State.reset.setPc 0x809FFFFD#64) = .raised (.memoryAccess .fetch 0x809FFFFD#64 4 0x809FFFFD#64) := by
  decide

/-- Log 8: from reset with nothing placed the first step meets the all-zero word, which is illegal (R94). -/
theorem test_first_step_from_reset :
    outcome State.reset (fun t => t.status) = some (.faulted (.illegalInstruction 0#32 0x80000000#64)) := by decide

/-- R302: the seed of `x[2]`; R5: of two pairs for one key the later holds, and keys that name nothing are dropped. -/
theorem test_resetOf :
    let s := resetOf { Params.default with
      spSeed := some 0x80A00000#64, csrInit := [(0x340, 1#64), (4096, 9#64), (0x340, 2#64)],
      memInit := [(0x80000000, 0x13#8), (0x7FFFFFFF, 0xFF#8)] }
    s.readReg 2#5 = 0x80A00000#64 ∧ s.readReg 3#5 = 0#64 ∧ s.readCsr 0x340#12 = 2#64 ∧ s.csr.length = 1 ∧
      s.readByte 0x80000000 = 0x13#8 ∧ s.readByte 0x7FFFFFFF = 0#8 := by
  decide

/-- R130: the empty program is exhausted in one step; a second step is not taken. -/
theorem test_run_of_an_empty_program :
    (runFor 1 (buffered [])).status = .exhausted ∧ (runFor 5 (buffered [])) = runFor 1 (buffered []) ∧
      (runFor 1 (buffered [])).finished = true := by
  decide

/-- R34: the introspection port reads a register, a CSR or the pc. -/
theorem test_observe :
    let s := (State.reset.writeReg 5#5 7#64).writeCsr 0x340#12 8#64
    observe s (.x 5#5) = 7#64 ∧ observe s (.x 0#5) = 0#64 ∧ observe s (.csr 0x340#12) = 8#64 ∧ observe s .pc = 0x80000000#64 := by
  decide

/-- The machine behind the host's interface steps as `step` does. -/
theorem test_core_step : core.step State.reset = .next (State.reset.raise (.illegalInstruction 0#32 0x80000000#64)) := rfl

/-! ### Witnesses: the hypotheses of the statements can be met. Those of every `Encoded…` clause are met by the words above. -/

theorem test_witness_WordFormsIgnoreUpperHalves :
    wFormDest (.addw 5#5 6#5 7#5) = some 5#5 ∧
      (∀ r : RegIdx, ((State.reset.writeReg 6#5 0x180000000#64).readReg r).setWidth 32 =
        ((State.reset.writeReg 6#5 0xFFFFFFFF80000000#64).readReg r).setWidth 32) := by
  decide

theorem test_witness_HighMultiplyCorrection : (5#5 : RegIdx) ≠ 0#5 ∧ (31#5 : RegIdx) ≠ 0#5 := by decide

/-- The clauses of `IsSignedDivision` and `IsUnsignedDivision`: zero divisor, overflow, neither; at 64 and at 32 bits. -/
theorem test_witness_division_clauses :
    (0#64 = 0#64) ∧ (0x8000000000000000#64 = BitVec.intMin 64 ∧ 0xFFFFFFFFFFFFFFFF#64 = BitVec.allOnes 64) ∧
      (0xFFFFFFFFFFFFFFFF#64 ≠ 0#64 ∧ ¬ (0x8000000000000001#64 = BitVec.intMin 64 ∧ 0xFFFFFFFFFFFFFFFF#64 = BitVec.allOnes 64)) ∧
      (0x80000000#32 = BitVec.intMin 32 ∧ 0xFFFFFFFF#32 = BitVec.allOnes 32) ∧
      (1#32 ≠ 0#32 ∧ ¬ (0x80000000#32 = BitVec.intMin 32 ∧ 1#32 = BitVec.allOnes 32)) := by
  decide

/-- The last access that is all mapped and the first that is not, at each width; below the base; and past 2^64 (R55). -/
theorem test_witness_AllMapped :
    (AllMapped State.reset 0x80000000#64 1 ∧ AllMapped State.reset 0x809FFFFF#64 1 ∧ ¬ AllMapped State.reset 0x80A00000#64 1) ∧
      (AllMapped State.reset 0x809FFFFE#64 2 ∧ ¬ AllMapped State.reset 0x809FFFFF#64 2) ∧
      (AllMapped State.reset 0x809FFFFC#64 4 ∧ ¬ AllMapped State.reset 0x809FFFFD#64 4) ∧
      (AllMapped State.reset 0x809FFFF8#64 8 ∧ ¬ AllMapped State.reset 0x809FFFF9#64 8) ∧
      ¬ AllMapped State.reset 0x7FFFFFFF#64 1 ∧ ¬ AllMapped State.reset 0xFFFFFFFFFFFFFFFF#64 2 := by
  unfold AllMapped
  decide

theorem test_witness_MemoryPrimitives_widths :
    Width.byte.bytes = 1 ∧ Width.half.bytes = 2 ∧ Width.word.bytes = 4 ∧ Width.double.bytes = 8 := by decide

theorem test_witness_MixedWidthAccesses :
    accepted State.reset.params = true ∧ (State.reset.memWrite 0x809FFFF8#64 .double 0x8877665544332211#64).isSome = true := by decide

/-- The address equations of the loads and stores, at both ends of the offset. -/
theorem test_witness_Loads_and_Stores :
    (0x800000F8#64 = effective (machine.readReg 0#5 + 0x800008F8#64) (immI (-2048#12))) ∧
      (0x809FFFFF#64 = effective ((State.reset.writeReg 6#5 0x809FF800#64).readReg 6#5) (immI 2047#12)) ∧
      (0x80000100#64 = effective ((State.reset.writeReg 6#5 0x80000108#64).readReg 6#5) (immS (-8#12))) := by
  decide

theorem test_witness_FailedAccessChangesOnlyStatus :
    accessOf State.reset (.ld 0#5 0#5 0#12) = some (.load, 0#64, 8) ∧ ¬ AllMapped State.reset 0#64 8 ∧
      accessOf (State.reset.writeReg 6#5 0x809FFFFD#64) (.sw 7#5 6#5 0#12) = some (.store, 0x809FFFFD#64, 4) ∧
      ¬ AllMapped State.reset 0x809FFFFD#64 4 := by
  unfold AllMapped
  decide

theorem test_witness_ConditionalBranches :
    (0x80000110#64 = (State.reset.setPc 0x80000100#64).pc + BitVec.ofInt 64 (2 * (8#12).toInt)) ∧
      (0x7FFFF000#64 = State.reset.pc + BitVec.ofInt 64 (2 * (0x800#12).toInt)) := by
  decide

theorem test_witness_CsrSuppressionUnobservable :
    Sparse.canonical (State.reset.writeCsr 0x340#12 5#64).csr = true ∧ State.reset.readReg 6#5 = 0#64 := by decide

theorem test_witness_CsrsAffectOnlyCsrInstructions :
    csrOf (.add 5#5 6#5 7#5) = none ∧ ∃ t, exec (.add 5#5 6#5 7#5) State.reset = .next t := ⟨rfl, _, rfl⟩

theorem test_witness_NoOperations : Instr.rdinstreth 5#5 ∈ [Instr.ebreak, .pause, .rdinstreth 5#5] := by decide

theorem test_witness_StepRunsDecodedInstruction :
    let s := State.reset.withFetchWord 32 0x00620533
    accepted s.params = true ∧ s.status = .running ∧ s.params.fetchMode = .memory ∧ inRange s.params s.pc 4 = true ∧
      decodeBytes [s.readByte 0x80000000, s.readByte 0x80000001, s.readByte 0x80000002, s.readByte 0x80000003] =
        .ok (.add 10#5 4#5 6#5, []) := by
  decide

theorem test_witness_StepRunsDecodedInstruction_buffer :
    let s := (buffered [0x00000013#32, 0x00620533#32]).setPc 0x80000004#64
    accepted s.params = true ∧ s.status = .running ∧ s.params.fetchMode = .buffer [0x00000013#32, 0x00620533#32] ∧
      s.params.memBase.toNat ≤ s.pc.toNat ∧
      [0x00000013#32, 0x00620533#32][(s.pc.toNat - s.params.memBase.toNat) / 4]? = some 0x00620533#32 ∧
      decode 0x00620533#32 = some (.add 10#5 4#5 6#5) := by
  decide

theorem test_witness_StepOutcomes : accepted machine.params = true ∧ machine.status = .running := by decide

theorem test_witness_FaultingStepChangesOnlyStatus :
    ∃ t, step State.reset = .next t ∧ t.status = .faulted (.illegalInstruction 0#32 0x80000000#64) := ⟨_, rfl, rfl⟩

/-- The parameters that row U16 refuses, each at its boundary, and the largest region it accepts. -/
theorem test_witness_StoppedOrRefusedMachinesTakeNoStep :
    (accepted (runFor 1 State.reset).params = true ∧ (runFor 1 State.reset).status ≠ .running) ∧
      accepted { Params.default with memSize := 0 } = false ∧
      accepted { Params.default with memSize := 2 ^ 64 - 0x80000000 + 1 } = false ∧
      accepted { Params.default with memSize := 2 ^ 64 - 0x80000000 } = true := by
  decide

theorem test_witness_NextProgramCounter :
    State.reset.status = .running ∧ ∃ t, exec (.jalr 1#5 6#5 5#12) State.reset = .next t ∧ t.status = .running := ⟨rfl, _, rfl, rfl⟩

theorem test_witness_OnlyNamedDestinationsChange :
    ∃ t, exec (.csrrwi 5#5 0x340#12 3#5) (State.reset.writeCsr 0x340#12 7#64) = .next t ∧ t.readReg 5#5 = 7#64 ∧
      t.readCsr 0x340#12 = 3#64 := ⟨_, rfl, by decide, by decide⟩

theorem test_witness_OnlyNamedDestinationsChange_memory :
    ∃ t, exec (.sb 7#5 6#5 0#12) ((State.reset.writeReg 6#5 0x80000100#64).writeReg 7#5 9#64) = .next t ∧
      t.readByte 0x80000100 = 9#8 := ⟨_, rfl, by decide⟩

theorem test_witness_RunsComposeAndFinishedRunsStay : (runFor 1 State.reset).finished = true := by decide

theorem test_witness_RunsEndAsTheModeSays :
    State.reset.status = .running ∧ State.reset.params.fetchMode = .memory ∧ (buffered [0x00000013#32]).status = .running ∧
      (buffered [0x00000013#32]).params.fetchMode = .buffer [0x00000013#32] ∧
      (runFor 2 (buffered [0x00000013#32])).status = .exhausted := by
  decide

theorem test_witness_PrivilegeRestrictsNothing :
    (buffered [0x00000073#32]).status = .running ∧
      ∃ t, step (buffered [0x00000073#32]) = .next t ∧ t.status.relabel .user ≠ t.status := ⟨rfl, _, rfl, by decide⟩

theorem test_witness_FloatingRegistersNeverMatter :
    (∃ t, step State.reset = .next t) ∧ (∃ r, step (State.reset.setStatus .exhausted) = .fault r) ∧
      (∃ r, step { State.reset with params := { Params.default with memSize := 0 } } = .refused r) :=
  ⟨⟨_, rfl⟩, ⟨_, rfl⟩, ⟨_, rfl⟩⟩

theorem test_witness_StoresReachTheInstructionStream :
    State.reset.params.fetchMode = .memory ∧
      0x80000004#64 = effective ((State.reset.writeReg 6#5 0x80000000#64).readReg 6#5) (immS 4#12) ∧
      AllMapped State.reset 0x80000004#64 4 ∧ (buffered [0x00000013#32]).params.fetchMode = .buffer [0x00000013#32] ∧
      ∃ t, exec (.sw 0#5 6#5 0#12) ((buffered [0x00000013#32]).writeReg 6#5 0x80000000#64) = .next t :=
  ⟨rfl, by decide, by unfold AllMapped; decide, rfl, _, rfl⟩

theorem test_witness_ResetValues : mapped Params.default 0x80000000 = true ∧ mapped Params.default 0x809FFFFF = true := by decide

theorem test_witness_InvariantAtReset : accepted { Params.default with memSize := 1, spSeed := some 1#64 } = true := by decide

theorem test_witness_EveryStepKeepsTheInvariant : machine.wf ∧ ∃ t, step machine = .next t :=
  ⟨by unfold State.wf; decide, _, rfl⟩

theorem test_witness_CanonicalStoresWithEqualReadsAreEqual :
    Sparse.canonical (Sparse.write (Sparse.write [] 5 1#8) 3 2#8) = true ∧
      Sparse.write (Sparse.write [] 5 1#8) 3 2#8 = Sparse.write (Sparse.write [] 3 2#8) 5 1#8 := by
  decide

theorem test_witness_LoadedBytesAreReadAndFetched :
    mapped State.reset.params 0x809FFFFF = true ∧ mapped State.reset.params 0x80A00000 = false ∧
      ((State.reset.loadBytes 0x809FFFFF [0x13#8, 0x37#8]).readByte 0x809FFFFF,
        (State.reset.loadBytes 0x809FFFFF [0x13#8, 0x37#8]).readByte 0x80A00000) = (0x13#8, 0#8) ∧
      accepted State.reset.params = true ∧ State.reset.status = .running ∧ AllMapped State.reset State.reset.pc 4 ∧
      State.reset.params.memBase.toNat ≤ State.reset.pc.toNat :=
  ⟨by decide, by decide, by decide, by decide, rfl, by unfold AllMapped; decide, by decide⟩

/-- In `Buffer` mode the second half's premise on `Memory` mode asks nothing, here with `pc` past the end of `PROGRAM`. -/
theorem test_witness_LoadedBytesAreReadAndFetched_buffer :
    ((buffered [0x00000013#32]).setPc 0x80000008#64).params.fetchMode = .buffer [0x00000013#32] ∧
      accepted ((buffered [0x00000013#32]).setPc 0x80000008#64).params = true ∧
      ((buffered [0x00000013#32]).setPc 0x80000008#64).status = .running ∧
      ((buffered [0x00000013#32]).setPc 0x80000008#64).params.memBase.toNat ≤
        ((buffered [0x00000013#32]).setPc 0x80000008#64).pc.toNat :=
  ⟨rfl, by decide, rfl, by decide⟩

theorem test_witness_DecodeOfEncode :
    (Instr.fence 0x8F5#12 6#5 21#5).wellFormed = true ∧ (Instr.csrrs 5#5 0xC00#12 6#5).wellFormed = true ∧
      (Instr.jal 1#5 0x80000#20).wellFormed = true := by decide

theorem test_witness_EncodeOfDecode : decode 0x8330000f#32 = some (.fenceTso 0#5 0#5) := by decide

/-- A word of each clause of the opcode statements, legal and illegal. -/
theorem test_witness_opcode_clauses :
    [0x00007003#32, 0x00004023#32, 0x00002063#32, 0x00001067#32, 0x0000006f#32, 0x00000037#32, 0x00000017#32].map Field.opcode =
        [0x03#7, 0x23#7, 0x63#7, 0x67#7, 0x6f#7, 0x37#7, 0x17#7] ∧
      [0x04001013#32, 0x0200101b#32, 0x40001033#32, 0x0200103b#32].map Field.opcode = [0x13#7, 0x1b#7, 0x33#7, 0x3b#7] ∧
      (Field.opcode 0x0100000f#32 = 0x0f#7 ∧ Field.funct3 0x0100000f#32 = 0#3) ∧
      (Field.opcode 0x30200073#32 = 0x73#7 ∧ Field.funct3 0x30200073#32 = 0#3) ∧
      (Field.opcode 0x00004073#32 = 0x73#7 ∧ Field.funct3 0x00004073#32 = 4#3) ∧
      (Field.opcode 0xc00022f3#32 = 0x73#7 ∧ Field.funct3 0xc00022f3#32 = 2#3 ∧ Field.rs1 0xc00022f3#32 = 0#5) ∧
      (0x00000001#32).extractLsb' 0 2 ≠ 0b11#2 ∧
      Field.opcode 0x0000002f#32 ∉
        [0x03#7, 0x0f#7, 0x13#7, 0x17#7, 0x1b#7, 0x23#7, 0x33#7, 0x37#7, 0x3b#7, 0x63#7, 0x67#7, 0x6f#7, 0x73#7] := by
  decide

theorem test_witness_ImmediatesBitByBit : 0 < 64 ∧ 63 < 64 := by decide

/-- R8 at its smallest and largest width, and R8's own property at 12 bits. -/
theorem test_witness_ExtensionPrimitives :
    (0 < 1 ∧ 1 ≤ 64) ∧ (0 < 64 ∧ 64 ≤ 64) ∧ sext 1 1#64 = 0xFFFFFFFFFFFFFFFF#64 ∧ sext 64 5#64 = 5#64 ∧
      sext 12 0x800#64 = 0xFFFFFFFFFFFFF800#64 ∧ zext 12 0xFFFFF800#64 = 0x800#64 := by
  decide

end Sys2Proof.Tests
end

section
/-! The two memory primitives in the terms of Safety.lean, and the statement about them (spec/20_memory.md R53, R54). -/

namespace Sys2Proof.Proofs

open Sys2Proof.Machine Sys2Proof.Laws

theorem memRead_rule (s : State) (addr : Word) (w : Width) :
    (¬ AllMapped s addr w.bytes → s.memRead addr w = none) ∧
    (AllMapped s addr w.bytes → s.memRead addr w = some (BitVec.ofNat 64 (littleEndian s addr.toNat w.bytes))) := by
  rw [← inRange_iff_allMapped]
  rcases memRead_cases s addr w with ⟨hr, hm⟩ | ⟨hr, hm⟩
  · rw [loadBytesLE_eq s _ _ (width_bytes_le w)] at hm
    exact ⟨fun hn => absurd hr hn, fun _ => hm⟩
  · exact ⟨fun _ => hm, fun h => absurd (hr.symm.trans h) (by decide)⟩

theorem memWrite_rule (s : State) (addr v : Word) (w : Width) :
    (¬ AllMapped s addr w.bytes → s.memWrite addr w v = none) ∧
    (AllMapped s addr w.bytes →
      s.memWrite addr w v = some { s with mem := storeBytesLE s.mem addr.toNat v w.bytes }) := by
  rw [← inRange_iff_allMapped]
  rcases memWrite_cases s addr w v with ⟨hr, hm⟩ | ⟨hr, hm⟩
  · exact ⟨fun hn => absurd hr hn, fun _ => hm⟩
  · exact ⟨fun _ => hm, fun h => absurd (hr.symm.trans h) (by decide)⟩

/-- Settles O16: `MemRead` and `MemWrite` by their rules. The bytes and the frame of the write are those of a store instruction
(`storesOnly`), which besides only advances the pc. -/
theorem memoryPrimitives : Obligations.MemoryPrimitives := by
  intro s addr v w
  obtain ⟨readUnmapped, readMapped⟩ := memRead_rule s addr w
  obtain ⟨writeUnmapped, writeMapped⟩ := memWrite_rule s addr v w
  obtain ⟨-, bytesInside, bytesOutside, registers, csrs, elsewhere⟩ := storesOnly s addr w.bytes v
  exact ⟨fun hn => ⟨readUnmapped hn, writeUnmapped hn⟩,
    fun h => ⟨readMapped h, _, writeMapped h, bytesInside, bytesOutside, rfl, registers, csrs, elsewhere⟩⟩

end Sys2Proof.Proofs
end

section
/-! The dispatch table as a whole: the entries that match one word are nested by their masks (spec/30_encoding.md R92, R93), and which bits
of a word decide its operation (R99, R100). -/

namespace Sys2Proof.Proofs

open Sys2Proof.Laws

/-! ### The entries that match one word -/

theorem hits_iff {e : Entry} {w : Insn} : e.hits w = true ↔ w &&& e.mask = e.pattern := by
  simp only [Entry.hits, beq_iff_eq]

theorem dispatch_eq_none {w : Insn} : dispatch w = none ↔ ∀ e ∈ dispatchTable, w &&& e.mask ≠ e.pattern := by
  simp only [dispatch, Option.map_eq_none_iff, bestMatch_eq_none, ne_eq, ← hits_iff, Bool.not_eq_true]

/-- The mask of `e` has every bit of the mask of `b`, and more of them. -/
abbrev MoreSpecificThan (e b : Entry) : Prop := b.specificity < e.specificity ∧ b.mask &&& e.mask = b.mask

/-- What R92 needs of two entries: if a word can match both and they differ, one is the more specific. -/
def Comparable (a b : Entry) : Prop := overlap a b = true → a = b ∨ MoreSpecificThan b a ∨ MoreSpecificThan a b

theorem overlap_comm (a b : Entry) : overlap a b = overlap b a := by
  simp only [overlap, BitVec.xor_comm a.pattern, BitVec.and_assoc, BitVec.and_comm a.mask]

theorem comparable_symm {a b : Entry} (h : Comparable a b) : Comparable b a := fun hab =>
  (h (overlap_comm a b ▸ hab)).imp Eq.symm Or.symm

/-- R93: of two rows that overlap, the later one is the more specific. -/
theorem later_overlapping_moreSpecific :
    dispatchTable.Pairwise fun b e => overlap b e = true → MoreSpecificThan e b := by
  decide +kernel

theorem comparable_of_mem {a b : Entry} (ha : a ∈ dispatchTable) (hb : b ∈ dispatchTable) : Comparable a b := by
  have hsymm : Std.Symm Comparable := ⟨fun _ _ => comparable_symm⟩
  have hlater : dispatchTable.Pairwise Comparable :=
    later_overlapping_moreSpecific.imp fun h hab => .inr (.inl (h hab))
  exact hlater.forall_of_forall (fun _ _ _ => .inl rfl) ha hb

/-- R92: the entry that decides a word matches it and is more specific than every other match. -/
theorem dispatch_eq_some {w : Insn} {op : Op} :
    dispatch w = some op ↔ ∃ e ∈ dispatchTable, e.op = op ∧ e.hits w = true ∧
      ∀ b ∈ dispatchTable, b.hits w = true → b = e ∨ MoreSpecificThan e b := by
  constructor
  · intro h
    obtain ⟨e, hbest, rfl⟩ := Option.map_eq_some_iff.mp h
    obtain ⟨he, hw, hmax⟩ := bestMatch_eq_some hbest
    refine ⟨e, he, rfl, hw, fun b hb hbw => ?_⟩
    rcases comparable_of_mem hb he (overlap_of_hits hbw hw) with heq | hmore | ⟨hless, -⟩
    · exact .inl heq
    · exact .inr hmore
    · exact absurd hless (Nat.not_lt.mpr (hmax b hb hbw))
  · rintro ⟨e, he, rfl, hw, hrivals⟩
    exact dispatch_of_hit he hw fun b hb hbw => (hrivals b hb hbw).symm.imp_left And.left

/-- Settles O50: dispatch answers a most specific match, and matches of one word overlap, so they are comparable by their masks. -/
theorem mostSpecificMaskWins : Obligations.MostSpecificMaskWins := by
  refine ⟨rfl, fun w => ⟨dispatch_eq_none, fun op => ?_⟩⟩
  simpa only [hits_iff] using dispatch_eq_some (w := w) (op := op)

/-! ### The bits of a word that decide its operation -/

theorem opcode_and {w m : Insn} (hm : Field.opcode m = BitVec.allOnes 7) : Field.opcode (w &&& m) = Field.opcode w := by
  unfold Field.opcode at hm ⊢
  rw [BitVec.extractLsb'_and, hm, BitVec.and_allOnes]

/-- Every mask covers the opcode, so an entry matches words of its own opcode only. -/
theorem opcode_of_hits {e : Entry} {w : Insn} (he : e ∈ dispatchTable) (hw : e.hits w = true) :
    Field.opcode e.pattern = Field.opcode w := by
  have hcovers : ∀ e ∈ dispatchTable, Field.opcode e.mask = BitVec.allOnes 7 := by decide
  rw [← hits_iff.mp hw, opcode_and (hcovers e he)]

/-- The entries of an opcode look at no bit of a word outside `m`. -/
abbrev ReadsOnly (opcode : BitVec 7) (m : Insn) : Prop :=
  ∀ e ∈ dispatchTable, Field.opcode e.pattern = opcode → m &&& e.mask = e.mask

theorem bestMatch_congr {v w : Insn} {es : List Entry} (h : ∀ e ∈ es, e.hits v = e.hits w) : bestMatch v es = bestMatch w es := by
  induction es with
  | nil => rfl
  | cons e es ih =>
    obtain ⟨he, hes⟩ := List.forall_mem_cons.mp h
    simp only [bestMatch, he, ih hes]

/-- A word may be cut down to the bits that the entries of its opcode look at. -/
theorem dispatch_and {w m : Insn} (hm : ReadsOnly (Field.opcode w) m) (hcovers : Field.opcode m = BitVec.allOnes 7) :
    dispatch (w &&& m) = dispatch w := by
  unfold dispatch
  rw [bestMatch_congr fun e he => ?_]
  by_cases hop : Field.opcode e.pattern = Field.opcode w
  · simp only [Entry.hits, BitVec.and_assoc, hm e he hop]
  · have hcut : e.hits (w &&& m) = false :=
      Bool.eq_false_iff.mpr fun h => hop ((opcode_of_hits he h).trans (opcode_and hcovers))
    have hwhole : e.hits w = false := Bool.eq_false_iff.mpr fun h => hop (opcode_of_hits he h)
    rw [hcut, hwhole]

/-- A word of an opcode whose entries look at nothing else decodes as the bare opcode does, with its own operands. -/
theorem decode_of_opcode {w : Insn} {opcode : BitVec 7} (hm : ReadsOnly opcode 0x0000007f#32) (ho : Field.opcode w = opcode) :
    decode w = (dispatch (put 0 opcode)).map (operands w) := by
  subst ho
  rw [decode, ← dispatch_and hm (by decide), mask_opcode]

/-- The same where the entries look at the opcode and funct3. -/
theorem decode_of_funct3 {w : Insn} {opcode : BitVec 7} (hm : ReadsOnly opcode 0x0000707f#32) (ho : Field.opcode w = opcode) :
    decode w = (dispatch (put 12 (Field.funct3 w) ||| put 0 opcode)).map (operands w) := by
  subst ho
  rw [decode, ← dispatch_and hm (by decide), mask_funct3]

theorem funct3_cases (f : BitVec 3) :
    f = 0#3 ∨ f = 1#3 ∨ f = 2#3 ∨ f = 3#3 ∨ f = 4#3 ∨ f = 5#3 ∨ f = 6#3 ∨ f = 7#3 := by
  revert f; decide

/-- Settles O51: the opcode and, for the first four opcodes, funct3 decide the operation, so what remains is to run the dispatch on one
word for each of their values. -/
theorem loadStoreAndTransferOpcodes : Obligations.LoadStoreAndTransferOpcodes := by
  intro w
  refine ⟨fun ho => ?load, fun ho => ?store, fun ho => ?branch, fun ho => ?jalr, fun ho => ?jal, fun ho => ?lui, fun ho => ?auipc⟩
  case load | store | branch | jalr =>
    rw [decode_of_funct3 (by decide) ho]
    rcases funct3_cases (Field.funct3 w) with hf | hf | hf | hf | hf | hf | hf | hf <;> rw [hf] <;> rfl
  case jal | lui | auipc =>
    rw [decode_of_opcode (by decide) ho]
    rfl

end Sys2Proof.Proofs
end

section
/-! The sequencer: what a fetch finds, how the execute stage ends for every instruction, and the outcome of a step stage by stage
(spec/40_execution_loop.md R121 to R129). -/

namespace Sys2Proof.Proofs

open Sys2Proof.Machine Sys2Proof.Laws

/-! ### Fetch (R121) -/

/-- The index in unbounded integers: at or above `MEM_BASE` the difference does not wrap around. -/
theorem bufferIndex_eq {p : Params} {pc : Word} (h : p.memBase.toNat ≤ pc.toNat) :
    bufferIndex p pc = (pc.toNat - p.memBase.toNat) / 4 := by
  rw [bufferIndex, BitVec.toNat_ushiftRight, BitVec.toNat_sub_of_le h, Nat.shiftRight_eq_div_pow]

theorem fetch_memory_mapped {s : State} (hm : s.params.fetchMode = .memory) (ha : AllMapped s s.pc 4) :
    fetch s = .word (BitVec.ofNat 32 (littleEndian s s.pc.toNat 4)) := by
  simp [fetch, hm, (memRead_rule s s.pc .word).2 ha, Width.bytes]

theorem fetch_memory_unmapped {s : State} (hm : s.params.fetchMode = .memory) (ha : ¬ AllMapped s s.pc 4) :
    fetch s = .raised (fetchFault s.pc) := by
  simp [fetch, hm, (memRead_rule s s.pc .word).1 ha]

theorem fetch_buffer_below {s : State} {program : List Insn} (hm : s.params.fetchMode = .buffer program)
    (hp : s.pc.toNat < s.params.memBase.toNat) : fetch s = .raised (fetchFault s.pc) := by
  simp [fetch, hm, hp]

theorem fetch_buffer {s : State} {program : List Insn} (hm : s.params.fetchMode = .buffer program)
    (hp : s.params.memBase.toNat ≤ s.pc.toNat) :
    fetch s = (program[(s.pc.toNat - s.params.memBase.toNat) / 4]?).elim .exhausted .word := by
  rw [← bufferIndex_eq hp]
  cases hw : program[bufferIndex s.params s.pc]? <;> simp only [fetch, hm, Nat.not_lt.mpr hp, hw, if_false, Option.elim]

theorem fetch_finds (s : State) : FetchFinds s (fetch s) := by
  cases hm : s.params.fetchMode with
  | memory =>
    by_cases ha : AllMapped s s.pc 4
    · rw [fetch_memory_mapped hm ha]
      exact .memWord _ hm ha (Nat.mod_eq_of_lt (littleEndian_lt s _ 4))
    · rw [fetch_memory_unmapped hm ha]
      exact .memFault hm ha
  | buffer program =>
    rcases Nat.lt_or_ge s.pc.toNat s.params.memBase.toNat with hp | hp
    · rw [fetch_buffer_below hm hp]
      exact .bufFault program hm hp
    · rw [fetch_buffer hm hp]
      cases hw : program[(s.pc.toNat - s.params.memBase.toNat) / 4]? with
      | some w => exact .bufWord program w hm hp hw
      | none => exact .bufEnd program hm hp (List.getElem?_eq_none_iff.mp hw)

/-! ### Execute (R123, R127) -/

/-- The outcome is a next state, and no exception is taken on the way to it. -/
def Completes (s : State) (o : Host.Outcome State Fault Refusal) : Prop := ∃ t, o = .next t ∧ t.status = s.status

theorem retire_completes (rd : RegIdx) (v : Word) (s : State) : Completes s (retire rd v s) := ⟨_, rfl, by simp⟩

theorem linkAndJump_completes (rd : RegIdx) (target : Word) (s : State) : Completes s (linkAndJump rd target s) := ⟨_, rfl, by simp⟩

theorem branchIf_completes (taken : Bool) (off : BitVec 12) (s : State) : Completes s (branchIf taken off s) := ⟨_, rfl, rfl⟩

theorem noEffect_completes (s : State) : Completes s (noEffect s) := ⟨_, rfl, rfl⟩

theorem csrUpdate_completes (rd : RegIdx) (c : CsrIdx) (new : Word → Option Word) (s : State) :
    Completes s (csrUpdate rd c new s) := by
  obtain ⟨t, ht, -, -, -, -, -, -, hstatus, -⟩ := csrUpdate_swapsCsrOnly s rd c new
  exact ⟨t, ht, hstatus⟩

/-- An instruction that makes no memory access and is not `ecall` raises nothing. -/
theorem exec_completes {i : Instr} {s : State} (ha : accessOf s i = none) (hi : i ≠ .ecall) : Completes s (exec i s) := by
  cases i
  case ecall => exact absurd rfl hi
  case lb | lh | lw | ld | lbu | lhu | lwu | sb | sh | sw | sd => cases ha
  case beq | bne | blt | bge | bltu | bgeu => exact branchIf_completes _ _ s
  case jal | jalr => exact linkAndJump_completes _ _ s
  case csrrw | csrrs | csrrc | csrrwi | csrrsi | csrrci =>
    simp only [exec, execCsrrw, execCsrrs, execCsrrc, execCsrrwi, execCsrrsi, execCsrrci]
    exact csrUpdate_completes _ _ _ s
  case ebreak | fence | fenceTso | pause | rdcycle | rdtime | rdinstret | rdcycleh | rdtimeh | rdinstreth =>
    exact noEffect_completes s
  all_goals exact retire_completes _ _ s

/-- How an access ends: by the bounds test it completes or raises its `MemoryAccess` (R212). -/
def AccessEnds (s : State) (o : Host.Outcome State Fault Refusal) (kind : AccessKind) (ea : Word) (n : Nat) : Prop :=
  (AllMapped s ea n → Completes s o) ∧ (¬ AllMapped s ea n → o = .next (s.raise (.memoryAccess kind ea n s.pc)))

theorem loadFrom_ends (w : Width) (ext : Word → Word) (rd rs1 : RegIdx) (imm : BitVec 12) (s : State) :
    AccessEnds s (loadFrom w ext rd rs1 imm s) .load (effective (s.readReg rs1) (immI imm)) w.bytes := by
  obtain ⟨hmapped, hfault⟩ := loadFrom_rule w ext rd rs1 imm s
  refine ⟨fun ha => ?_, hfault⟩
  obtain ⟨t, ht, -, -, -, -, -, -, hstatus, -⟩ := hmapped ha
  exact ⟨t, ht, hstatus⟩

theorem storeTo_ends (w : Width) (rs2 rs1 : RegIdx) (imm : BitVec 12) (s : State) :
    AccessEnds s (storeTo w rs2 rs1 imm s) .store (effective (s.readReg rs1) (immS imm)) w.bytes := by
  obtain ⟨hmapped, hfault⟩ := storeTo_rule w rs2 rs1 imm s
  refine ⟨fun ha => ?_, hfault⟩
  obtain ⟨t, ht, -, -, -, -, -, -, -, hstatus, -⟩ := hmapped ha
  exact ⟨t, ht, hstatus⟩

/-- Every load and store ends as the access that `accessOf` names. -/
theorem exec_access_ends {i : Instr} {s : State} {kind : AccessKind} {ea : Word} {n : Nat} (h : accessOf s i = some (kind, ea, n)) :
    AccessEnds s (exec i s) kind ea n := by
  cases i
  case lb | lh | lw | ld | lbu | lhu | lwu =>
    simp only [accessOf, Option.some.injEq, Prod.mk.injEq] at h
    obtain ⟨rfl, rfl, rfl⟩ := h
    exact loadFrom_ends _ _ _ _ _ s
  case sb | sh | sw | sd =>
    simp only [accessOf, Option.some.injEq, Prod.mk.injEq] at h
    obtain ⟨rfl, rfl, rfl⟩ := h
    exact storeTo_ends _ _ _ _ s
  all_goals cases h

theorem argumentsAre_callArguments (s : State) : ArgumentsAre s (callArguments s) := by
  intro k
  fin_cases k <;> rfl

/-- The execute and commit rows of R129. -/
theorem exec_gives (i : Instr) {s : State} (hs : s.status = .running) : ∃ t, exec i s = .next t ∧ ExecuteGives i s t := by
  by_cases hi : i = .ecall
  · subst hi
    exact ⟨_, rfl, .envCall _ rfl (argumentsAre_callArguments s) _ rfl⟩
  · cases ha : accessOf s i with
    | none =>
      obtain ⟨t, ht, hstatus⟩ := exec_completes ha hi
      exact ⟨t, ht, .commits t hi (fun _ _ _ h => by cases ha.symm.trans h) (hstatus.trans hs)⟩
    | some access =>
      obtain ⟨kind, ea, n⟩ := access
      obtain ⟨hmapped, hfault⟩ := exec_access_ends ha
      by_cases hm : AllMapped s ea n
      · obtain ⟨t, ht, hstatus⟩ := hmapped hm
        exact ⟨t, ht, .commits t hi (fun _ _ _ h => by cases ha.symm.trans h; exact hm) (hstatus.trans hs)⟩
      · exact ⟨_, hfault hm, .accessFault kind ea n ha hm _ rfl⟩

/-! ### The step of a running machine, by what its fetch and its decode give (R120) -/

section Running

variable {s : State} (ha : accepted s.params = true) (hs : s.status = .running)
include ha hs

theorem step_of_exhausted (hf : fetch s = .exhausted) : step s = .next (s.setStatus .exhausted) := by
  simp [step, ha, hs, hf]

theorem step_of_raised {e : Exc} (hf : fetch s = .raised e) : step s = .next (s.raise e) := by
  simp [step, ha, hs, hf]

theorem step_of_illegal {w : Insn} (hf : fetch s = .word w) (hd : decode w = none) :
    step s = .next (s.raise (.illegalInstruction w s.pc)) := by
  simp [step, ha, hs, hf, hd]

theorem step_of_decoded {w : Insn} {i : Instr} (hf : fetch s = .word w) (hd : decode w = some i) : step s = exec i s := by
  simp [step, ha, hs, hf, hd]

end Running

/-- Settles O33: the stages in their order, each with the outcome that it gives. -/
theorem stepOutcomes : Obligations.StepOutcomes := by
  intro s ha hs
  have hfinds := fetch_finds s
  cases hf : fetch s with
  | exhausted => exact ⟨_, step_of_exhausted ha hs hf, .exhausted (hf ▸ hfinds) _ rfl⟩
  | raised e => exact ⟨_, step_of_raised ha hs hf, .fetchFault e (hf ▸ hfinds) _ rfl⟩
  | word w =>
    cases hd : decode w with
    | none => exact ⟨_, step_of_illegal ha hs hf hd, .illegal w (hf ▸ hfinds) hd _ rfl⟩
    | some i =>
      obtain ⟨t, ht, hgives⟩ := exec_gives i hs
      exact ⟨t, (step_of_decoded ha hs hf hd).trans ht, .executes w i (hf ▸ hfinds) hd t hgives⟩

end Sys2Proof.Proofs
end

section
/-! The words of the instructions whose row of the dispatch table no other row can overrule (spec/30_encoding.md R93, R95). -/

namespace Sys2Proof.Proofs

open Sys2Proof.Machine Sys2Proof.Laws

theorem unrivalled_of_mem {e : Entry} (he : e ∈ dispatchTable) (hop : e.op ∉ [Op.fence, Op.csrrs]) : unrivalled e = true := by
  by_contra hu
  have hrivalled : e.op ∈ (dispatchTable.filter fun e => !unrivalled e).map Entry.op :=
    List.mem_map_of_mem (List.mem_filter.mpr ⟨he, by simp [hu]⟩)
  exact hop (unrivalled_all ▸ hrivalled)

section Row

variable {opcode funct7 : BitVec 7} {funct6 : BitVec 6} {funct3 : BitVec 3} (op : Op) (hop : op ∉ [Op.fence, Op.csrrs])
include hop

theorem encodedR_of_row {make : RegIdx → RegIdx → RegIdx → Instr}
    (he : ⟨0xfe00707f#32, put 25 funct7 ||| put 12 funct3 ||| put 0 opcode, op⟩ ∈ dispatchTable)
    (ho : ∀ w, operands w op = make (Field.rd w) (Field.rs1 w) (Field.rs2 w)) : EncodedR opcode funct3 funct7 make :=
  encodedR_of_entry he (unrivalled_of_mem he hop) rfl ho

theorem encodedI_of_row {make : RegIdx → RegIdx → BitVec 12 → Instr}
    (he : ⟨0x0000707f#32, put 12 funct3 ||| put 0 opcode, op⟩ ∈ dispatchTable)
    (ho : ∀ w, operands w op = make (Field.rd w) (Field.rs1 w) (Field.immI w)) : EncodedI opcode funct3 make :=
  encodedI_of_entry he (unrivalled_of_mem he hop) rfl ho

theorem encodedShamt6_of_row {make : RegIdx → RegIdx → BitVec 6 → Instr}
    (he : ⟨0xfc00707f#32, put 26 funct6 ||| put 12 funct3 ||| put 0 0b0010011#7, op⟩ ∈ dispatchTable)
    (ho : ∀ w, operands w op = make (Field.rd w) (Field.rs1 w) (Field.shamt6 w)) : EncodedShamt6 funct3 funct6 make :=
  encodedShamt6_of_entry he (unrivalled_of_mem he hop) rfl ho

end Row

end Sys2Proof.Proofs
end

section
/-! The values that the integer instructions write, in integers (spec/41_integer_alu.md R141 to R169), and the statements about them. -/

namespace Sys2Proof.Proofs

open Sys2Proof.Machine Sys2Proof.Laws

/-- An instruction that retires a value obeys its rule, if the value is the one the rule names. -/
theorem writesOnly_of_retire {i : Instr} {s : State} {rd : RegIdx} {v v' : Word} (hx : exec i s = retire rd v s) (hv : v = v') :
    ∃ t, exec i s = .next t ∧ WritesOnly s t rd v' (s.pc + 4#64) := by
  rw [hx, ← hv]
  exact retire_writesOnly s rd v

/-! ### Sums, differences and floor quotients of signed readings, at every width -/

section Signed

variable {w : Nat}

theorem add_eq_ofInt (a b : BitVec w) : a + b = BitVec.ofInt w (a.toInt + b.toInt) := by
  rw [BitVec.ofInt_add, BitVec.ofInt_toInt, BitVec.ofInt_toInt]

theorem sub_eq_ofInt (a b : BitVec w) : a - b = BitVec.ofInt w (a.toInt - b.toInt) := by
  apply BitVec.eq_of_toInt_eq
  rw [BitVec.toInt_sub, BitVec.toInt_ofInt]

theorem sshiftRight_eq_ofInt (a : BitVec w) (n : Nat) : a.sshiftRight n = BitVec.ofInt w (a.toInt.fdiv (2 ^ n)) := by
  rw [BitVec.sshiftRight, Int.shiftRight_eq_div_pow, Int.fdiv_eq_ediv_of_nonneg _ (by positivity)]
  norm_cast

end Signed

/-! ### The extended immediate, the comparisons and the arithmetic shift on 64 bits (R83, R142, R143, R149, R169) -/

theorem immI_eq_ofInt (imm : BitVec 12) : immI imm = BitVec.ofInt 64 imm.toInt := immI_eq imm

theorem toInt_immI (imm : BitVec 12) : (immI imm).toInt = imm.toInt := by
  rw [immI_eq, BitVec.toInt_signExtend_of_le (by decide)]

theorem setLess_eq (a b : Word) : setLess a b = if a.toInt < b.toInt then 1#64 else 0#64 := by
  simp only [setLess, boolWord, signedLess, decide_eq_true_eq]

theorem setLessU_eq (a b : Word) : setLessU a b = if a.toNat < b.toNat then 1#64 else 0#64 := by
  simp only [setLessU, boolWord, unsignedLess, decide_eq_true_eq]

theorem shiftRightArith64_eq (a : Word) (n : Nat) : shiftRightArith64 a n = BitVec.ofInt 64 (a.toInt.fdiv (2 ^ n)) :=
  sshiftRight_eq_ofInt a n

/-! ### The low half of a register and the 32-bit results (R169) -/

theorem ofLow32_ofInt (i : Int) : ofLow32 (BitVec.ofInt 32 i) = sext32 i := by
  rw [ofLow32_eq, BitVec.signExtend, BitVec.toInt_ofInt]
  rfl

theorem low32_eq_ofInt (v : Word) : low32 v = BitVec.ofInt 32 v.toInt := by
  rw [low32_eq, ← BitVec.signExtend_eq_setWidth_of_le v (by decide)]
  rfl

theorem toInt_low32 (v : Word) : (low32 v).toInt = low32S v := by
  rw [low32_eq_ofInt, BitVec.toInt_ofInt]
  rfl

theorem toNat_low32 (v : Word) : (low32 v).toNat = low32U v := by
  rw [low32_eq, BitVec.toNat_setWidth]
  rfl

theorem low32_ofInt (i : Int) : low32 (BitVec.ofInt 64 i) = BitVec.ofInt 32 i := by
  apply BitVec.eq_of_toInt_eq
  rw [toInt_low32, low32S, BitVec.toInt_ofInt, BitVec.toInt_ofInt, Int.bmod_bmod_of_dvd (by decide)]

theorem addW_eq (a b : Word) : addW a b = sext32 (a.toInt + b.toInt) := by
  rw [addW, add_eq_ofInt, low32_ofInt, ofLow32_ofInt]

theorem subW_eq (a b : Word) : subW a b = sext32 (a.toInt - b.toInt) := by
  rw [subW, sub_eq_ofInt, low32_ofInt, ofLow32_ofInt]

theorem shiftLeftW_eq (a : Word) (n : Nat) : shiftLeftW a n = sext32 (low32U a * 2 ^ n) := by
  have hshift : low32 a <<< n = BitVec.ofInt 32 (low32U a * 2 ^ n : Nat) := by
    rw [BitVec.ofInt_natCast, ← toNat_low32, ← Nat.shiftLeft_eq]
    rfl
  rw [shiftLeftW, hshift, ofLow32_ofInt]
  norm_cast

theorem shiftRightW_eq (a : Word) (n : Nat) : shiftRightW a n = sext32 (low32U a / 2 ^ n : Nat) := by
  have hshift : low32 a >>> n = BitVec.ofInt 32 (low32U a / 2 ^ n : Nat) := by
    rw [BitVec.ofInt_natCast, ← toNat_low32, ← Nat.shiftRight_eq_div_pow, ← BitVec.toNat_ushiftRight, BitVec.ofNat_toNat,
      BitVec.setWidth_eq]
  rw [shiftRightW, hshift, ofLow32_ofInt]

theorem shiftRightArithW_eq (a : Word) (n : Nat) : shiftRightArithW a n = sext32 ((low32S a).fdiv (2 ^ n)) := by
  rw [shiftRightArithW, sshiftRight_eq_ofInt, toInt_low32, ofLow32_ofInt]

/-! ### The statements -/

/-- Settles O1: sums and differences are those of the signed readings, at width 64. -/
theorem addAndSubtract : Obligations.AddAndSubtract := by
  refine ⟨encodedI_of_row .addi (by decide) (by decide) fun _ => rfl, encodedR_of_row .add (by decide) (by decide) fun _ => rfl,
    encodedR_of_row .sub (by decide) (by decide) fun _ => rfl, fun s rd rs1 rs2 imm => ⟨?addi, ?add, ?sub⟩⟩
  case addi => exact writesOnly_of_retire rfl (by simp only [add_eq_ofInt, toInt_immI])
  case add => exact writesOnly_of_retire rfl (add_eq_ofInt _ _)
  case sub => exact writesOnly_of_retire rfl (sub_eq_ofInt _ _)

/-- Settles O2: the comparisons are of the readings that `signedLess` and `unsignedLess` take, the immediate extended first. -/
theorem setLessThan : Obligations.SetLessThan := by
  refine ⟨encodedI_of_row .slti (by decide) (by decide) fun _ => rfl, encodedI_of_row .sltiu (by decide) (by decide) fun _ => rfl,
    encodedR_of_row .slt (by decide) (by decide) fun _ => rfl, encodedR_of_row .sltu (by decide) (by decide) fun _ => rfl,
    fun s rd rs1 rs2 imm => ⟨?slti, ?sltiu, ?slt, ?sltu⟩⟩
  case slti => exact writesOnly_of_retire rfl (by rw [setLess_eq, toInt_immI])
  case sltiu => exact writesOnly_of_retire rfl (by rw [setLessU_eq, immI_eq_ofInt])
  case slt => exact writesOnly_of_retire rfl (setLess_eq _ _)
  case sltu => exact writesOnly_of_retire rfl (setLessU_eq _ _)

/-- Settles O5: an arithmetic shift is a floor quotient of the signed reading. -/
theorem arithmeticShifts : Obligations.ArithmeticShifts := by
  refine ⟨encodedShamt6_of_row .srai (by decide) (by decide) fun _ => rfl,
    encodedR_of_row .sra (by decide) (by decide) fun _ => rfl, fun s rd rs1 rs2 shamt => ⟨?srai, ?sra⟩⟩
  case srai => exact writesOnly_of_retire rfl (shiftRightArith64_eq _ _)
  case sra => exact writesOnly_of_retire rfl (by simp only [shiftRightArith64_eq, amount6_eq])

/-- Settles O6: the low half of the 64-bit sum or difference depends on the exact integer only. -/
theorem wordAddAndSubtract : Obligations.WordAddAndSubtract := by
  refine ⟨encodedR_of_row .addw (by decide) (by decide) fun _ => rfl, encodedR_of_row .subw (by decide) (by decide) fun _ => rfl,
    fun s rd rs1 rs2 => ⟨?addw, ?subw⟩⟩
  case addw => exact writesOnly_of_retire rfl (addW_eq _ _)
  case subw => exact writesOnly_of_retire rfl (subW_eq _ _)

/-- Settles O7: the 32-bit shifts as a product and floor quotients of the low half, the amount being the low five bits of `x[rs2]`. -/
theorem wordRegisterShifts : Obligations.WordRegisterShifts := by
  refine ⟨encodedR_of_row .sllw (by decide) (by decide) fun _ => rfl, encodedR_of_row .srlw (by decide) (by decide) fun _ => rfl,
    encodedR_of_row .sraw (by decide) (by decide) fun _ => rfl, fun s rd rs1 rs2 => ⟨?sllw, ?srlw, ?sraw⟩⟩
  case sllw => exact writesOnly_of_retire rfl (by simp only [shiftLeftW_eq, amount5_eq])
  case srlw => exact writesOnly_of_retire rfl (by simp only [shiftRightW_eq, amount5_eq])
  case sraw => exact writesOnly_of_retire rfl (by simp only [shiftRightArithW_eq, amount5_eq])

end Sys2Proof.Proofs
end

section
/-! Products: the low half depends on the exact product only, and each high half is its floor quotient, so the two halves put together are
the exact product (spec/42_muldiv.md R181 to R184); the 32-bit product (R189). -/

namespace Sys2Proof.Proofs

open Sys2Proof.Machine Sys2Proof.Laws

/-! ### The low half is the exact product modulo `2 ^ w`, for every reading of the operands -/

section Low

variable {w : Nat}

theorem mul_eq_ofInt_signed (a b : BitVec w) : a * b = BitVec.ofInt w (a.toInt * b.toInt) := by
  rw [BitVec.ofInt_mul, BitVec.ofInt_toInt, BitVec.ofInt_toInt]

theorem mul_eq_ofInt_mixed (a b : BitVec w) : a * b = BitVec.ofInt w (a.toInt * b.toNat) := by
  rw [BitVec.ofInt_mul, BitVec.ofInt_toInt, BitVec.ofInt_natCast, BitVec.ofNat_toNat, BitVec.setWidth_eq]

theorem mul_eq_ofNat (a b : BitVec w) : a * b = BitVec.ofNat w (a.toNat * b.toNat) := by
  rw [BitVec.ofNat_mul, BitVec.ofNat_toNat, BitVec.ofNat_toNat, BitVec.setWidth_eq, BitVec.setWidth_eq]

end Low

/-! ### A 128-bit number is its high half times `2 ^ 64` plus its low half -/

theorem signed_halves {p : Int} (hlo : -2 ^ 127 ≤ p) (hhi : p < 2 ^ 127) :
    (BitVec.ofInt 64 (p / 2 ^ 64)).toInt * 2 ^ 64 + (BitVec.ofInt 64 p).toNat = p := by
  have hhigh : (BitVec.ofInt 64 (p / 2 ^ 64)).toInt = p / 2 ^ 64 := BitVec.toInt_ofInt_eq_self (by decide) (by omega) (by omega)
  have hlow : ((BitVec.ofInt 64 p).toNat : Int) = p % 2 ^ 64 := by
    rw [BitVec.toNat_ofInt]
    omega
  rw [hhigh, hlow, Int.ediv_mul_add_emod]

theorem unsigned_halves {p : Nat} (hp : p < 2 ^ 128) :
    (BitVec.ofNat 64 (p / 2 ^ 64)).toNat * 2 ^ 64 + (BitVec.ofNat 64 p).toNat = p := by
  rw [BitVec.toNat_ofNat, BitVec.toNat_ofNat, Nat.mod_eq_of_lt (by omega), Nat.div_add_mod']

/-! ### The three high halves together with the low half (R181 to R184) -/

/-- The product of a signed and an unsigned 64-bit number is a signed 128-bit number. -/
theorem mixed_product_bounds (a b : Word) : -2 ^ 127 ≤ a.toInt * b.toNat ∧ a.toInt * b.toNat < 2 ^ 127 := by
  have halo : -2 ^ 63 ≤ a.toInt := a.le_toInt
  have hahi : a.toInt < 2 ^ 63 := a.toInt_lt
  have hb : (b.toNat : Int) < 2 ^ 64 := by exact_mod_cast b.isLt
  constructor <;> nlinarith

theorem mulHigh_halves (a b : Word) : (mulHigh a b).toInt * 2 ^ 64 + (a * b).toNat = a.toInt * b.toInt := by
  have hlo : -2 ^ 126 ≤ a.toInt * b.toInt := BitVec.le_toInt_mul_toInt
  have hhi : a.toInt * b.toInt ≤ 2 ^ 126 := BitVec.toInt_mul_toInt_le
  rw [mul_eq_ofInt_signed]
  exact signed_halves (by omega) (by omega)

theorem mulHighSU_halves (a b : Word) : (mulHighSU a b).toInt * 2 ^ 64 + (a * b).toNat = a.toInt * b.toNat := by
  obtain ⟨hlo, hhi⟩ := mixed_product_bounds a b
  rw [mul_eq_ofInt_mixed]
  exact signed_halves hlo hhi

theorem mulHighU_halves (a b : Word) : (mulHighU a b).toNat * 2 ^ 64 + (a * b).toNat = a.toNat * b.toNat := by
  have hp : a.toNat * b.toNat < 2 ^ 64 * 2 ^ 64 := Nat.mul_lt_mul'' a.isLt b.isLt
  rw [mul_eq_ofNat]
  exact unsigned_halves (by omega)

/-! ### The 32-bit product (R189) -/

theorem onLow32_mul_eq (a b : Word) : onLow32 (fun x y => x * y) a b = sext32 (low32U a * low32U b) := by
  rw [onLow32, mul_eq_ofNat, toNat_low32, toNat_low32, ← BitVec.ofInt_natCast, ofLow32_ofInt, Int.natCast_mul]

/-! ### The statements -/

/-- Settles O10: each product fits in 128 bits, so its halves put together are the product itself. -/
theorem multiplyHalves : Obligations.MultiplyHalves := by
  refine ⟨encodedR_of_row .mul (by decide) (by decide) fun _ => rfl, encodedR_of_row .mulh (by decide) (by decide) fun _ => rfl,
    encodedR_of_row .mulhsu (by decide) (by decide) fun _ => rfl, encodedR_of_row .mulhu (by decide) (by decide) fun _ => rfl,
    fun s rd rs1 rs2 => ⟨_, _, _, _, ?mul, ?mulh, ?mulhsu, ?mulhu, mulHigh_halves _ _, mulHighSU_halves _ _, mulHighU_halves _ _⟩⟩
  case mul | mulh | mulhsu | mulhu => exact writesOnly_of_retire rfl rfl

/-- Settles O12: the low half of the product of the low halves, read as an unsigned product. -/
theorem multiplyWord : Obligations.MultiplyWord :=
  ⟨encodedR_of_row .mulw (by decide) (by decide) fun _ => rfl, fun _ _ _ _ => writesOnly_of_retire rfl (onLow32_mul_eq _ _)⟩

end Sys2Proof.Proofs
end

section
/-! Loads and stores: the loaded value in integers, the two shared rules as `LoadRule` and `StoreRule`, and the statements about them
(spec/43_load_store.md R201 to R211). -/

namespace Sys2Proof.Proofs

open Sys2Proof.Machine Sys2Proof.Laws

/-! ### The extended value (R8) -/

/-- Sign extension of the low `n` bits is their signed reading. -/
theorem sext_ofNat {n : Nat} (m : Nat) (hn : 0 < n) (h64 : n ≤ 64) :
    sext n (BitVec.ofNat 64 m) = BitVec.ofInt 64 ((m : Int).bmod (2 ^ n)) := by
  rw [sext_eq n _ hn h64, BitVec.setWidth_ofNat_of_le h64, BitVec.signExtend, BitVec.toInt_ofNat']

/-- `n` bytes have no bit above their `8 * n`, so zero extension leaves them as they are. -/
theorem zext_littleEndian (s : State) (a n : Nat) (hn : n ≤ 8) :
    zext (8 * n) (BitVec.ofNat 64 (littleEndian s a n)) = BitVec.ofNat 64 (littleEndian s a n) := by
  have hlt : littleEndian s a n < 2 ^ (8 * n) := by
    rw [Nat.pow_mul]
    exact littleEndian_lt s a n
  rw [zext_eq, BitVec.setWidth_ofNat_of_le (by omega), BitVec.setWidth_ofNat_of_le_of_lt (by omega) hlt]

/-! ### The shared rules -/

/-- An instruction that is a load obeys the rule of loads, if its extension makes of the bytes the value that the rule names. -/
theorem loadRule_of_loadFrom {i : Instr} {s : State} {rd rs1 : RegIdx} {imm : BitVec 12} {v : Word} (w : Width) (ext : Word → Word)
    (hx : exec i s = loadFrom w ext rd rs1 imm s)
    (hv : ext (BitVec.ofNat 64 (littleEndian s (effective (s.readReg rs1) (immI imm)).toNat w.bytes)) = v) :
    LoadRule i s rd (effective (s.readReg rs1) (immI imm)) w.bytes v := by
  obtain ⟨hmapped, hfault⟩ := loadFrom_rule w ext rd rs1 imm s
  rw [LoadRule, hx, ← hv]
  exact ⟨hmapped, fun hn => ⟨_, hfault hn, rfl⟩⟩

/-- An instruction that is a store obeys the rule of stores: the fault changes the status alone. -/
theorem storeRule_of_storeTo {i : Instr} {s : State} {rs2 rs1 : RegIdx} {imm : BitVec 12} (w : Width)
    (hx : exec i s = storeTo w rs2 rs1 imm s) :
    StoreRule i s (effective (s.readReg rs1) (immS imm)) w.bytes (s.readReg rs2) := by
  obtain ⟨hmapped, hfault⟩ := storeTo_rule w rs2 rs1 imm s
  rw [StoreRule, hx]
  exact ⟨hmapped, fun hn => ⟨_, hfault hn, rfl, fun _ => rfl⟩⟩

theorem encodedS_of_row {funct3 : BitVec 3} {make : RegIdx → RegIdx → BitVec 12 → Instr} (op : Op) (hop : op ∉ [Op.fence, Op.csrrs])
    (he : ⟨0x0000707f#32, put 12 funct3 ||| put 0 0b0100011#7, op⟩ ∈ dispatchTable)
    (ho : ∀ w, operands w op = make (Field.rs2 w) (Field.rs1 w) (Field.immS w)) : EncodedS funct3 make :=
  encodedS_of_entry he (unrivalled_of_mem he hop) rfl ho

/-! ### The statements -/

/-- Settles O18: the seven loads share one rule and differ in the width and in what the extension makes of the bytes read. -/
theorem loads : Obligations.Loads := by
  refine ⟨encodedI_of_row .lb (by decide) (by decide) fun _ => rfl, encodedI_of_row .lh (by decide) (by decide) fun _ => rfl,
    encodedI_of_row .lw (by decide) (by decide) fun _ => rfl, encodedI_of_row .ld (by decide) (by decide) fun _ => rfl,
    encodedI_of_row .lbu (by decide) (by decide) fun _ => rfl, encodedI_of_row .lhu (by decide) (by decide) fun _ => rfl,
    encodedI_of_row .lwu (by decide) (by decide) fun _ => rfl, ?_⟩
  rintro s rd rs1 imm _ rfl
  refine ⟨?lb, ?lh, ?lw, ?ld, ?lbu, ?lhu, ?lwu⟩
  case lb => exact loadRule_of_loadFrom .byte (sext 8) rfl (sext_ofNat _ (by decide) (by decide))
  case lh => exact loadRule_of_loadFrom .half (sext 16) rfl (sext_ofNat _ (by decide) (by decide))
  case lw => exact loadRule_of_loadFrom .word (sext 32) rfl (sext_ofNat _ (by decide) (by decide))
  case ld => exact loadRule_of_loadFrom .double (fun v => v) rfl rfl
  case lbu => exact loadRule_of_loadFrom .byte (zext 8) rfl (zext_littleEndian s _ 1 (by decide))
  case lhu => exact loadRule_of_loadFrom .half (zext 16) rfl (zext_littleEndian s _ 2 (by decide))
  case lwu => exact loadRule_of_loadFrom .word (zext 32) rfl (zext_littleEndian s _ 4 (by decide))

/-- Settles O19: the four stores share one rule and differ in the width alone. -/
theorem stores : Obligations.Stores := by
  refine ⟨encodedS_of_row .sb (by decide) (by decide) fun _ => rfl, encodedS_of_row .sh (by decide) (by decide) fun _ => rfl,
    encodedS_of_row .sw (by decide) (by decide) fun _ => rfl, encodedS_of_row .sd (by decide) (by decide) fun _ => rfl, ?_⟩
  rintro s rs2 rs1 imm _ rfl
  exact ⟨storeRule_of_storeTo .byte rfl, storeRule_of_storeTo .half rfl, storeRule_of_storeTo .word rfl,
    storeRule_of_storeTo .double rfl⟩

end Sys2Proof.Proofs
end

section
/-! Control transfer: the offsets and the upper immediate in integers (spec/30_encoding.md R85 to R87), the branch conditions as relations on
register values, and the statements about them (spec/44_control_transfer.md R221 to R227, R229, R230). -/

namespace Sys2Proof.Proofs

open Sys2Proof.Machine Sys2Proof.Laws

/-! ### The offsets and the upper immediate -/

/-- The bit 0 that the word does not hold doubles the signed reading of the bits that it does (R85). -/
theorem immB_eq_ofInt (off : BitVec 12) : immB off = BitVec.ofInt 64 (2 * off.toInt) := by
  rw [immB_eq, BitVec.signExtend, BitVec.toInt_append_zero, pow_one]

theorem immJ_eq_ofInt (off : BitVec 20) : immJ off = BitVec.ofInt 64 (2 * off.toInt) := by
  rw [immJ_eq, BitVec.signExtend, BitVec.toInt_append_zero, pow_one]

theorem immU_eq_ofInt (field : BitVec 20) : immU field = BitVec.ofInt 64 (field.toInt * 4096) := by
  rw [immU_eq, BitVec.shiftLeft_eq_mul_twoPow, BitVec.ofInt_mul]
  rfl

theorem add_immU_eq_ofInt (pc : Word) (field : BitVec 20) : pc + immU field = BitVec.ofInt 64 (pc.toNat + field.toInt * 4096) := by
  rw [immU_eq_ofInt, BitVec.ofInt_add, BitVec.ofInt_natCast, BitVec.ofNat_toNat, BitVec.setWidth_eq]

/-! ### The conditions of the branches -/

theorem signedLess_iff {a b : Word} : signedLess a b = true ↔ a.toInt < b.toInt := decide_eq_true_iff

theorem not_signedLess_iff {a b : Word} : (!signedLess a b) = true ↔ b.toInt ≤ a.toInt := by
  rw [Bool.not_eq_true', ← Bool.not_eq_true, signedLess_iff, not_lt]

theorem unsignedLess_iff {a b : Word} : unsignedLess a b = true ↔ a.toNat < b.toNat := decide_eq_true_iff

theorem not_unsignedLess_iff {a b : Word} : (!unsignedLess a b) = true ↔ b.toNat ≤ a.toNat := by
  rw [Bool.not_eq_true', ← Bool.not_eq_true, unsignedLess_iff, not_lt]

/-! ### The shared rules -/

/-- An instruction that is a branch obeys its rule, if it is taken exactly under the condition that the rule names. -/
theorem goesOnly_of_branchIf {i : Instr} {s : State} {taken : Bool} {off : BitVec 12} {p : Prop} [Decidable p]
    (hx : exec i s = branchIf taken off s) (hp : taken = true ↔ p) :
    ∃ t, exec i s = .next t ∧ GoesOnly s t (if p then s.pc + BitVec.ofInt 64 (2 * off.toInt) else s.pc + 4#64) := by
  rw [hx, ← immB_eq_ofInt, ← if_congr hp rfl rfl]
  exact branchIf_goesOnly s taken off

theorem encodedB_of_row {funct3 : BitVec 3} {make : RegIdx → RegIdx → BitVec 12 → Instr} (op : Op) (hop : op ∉ [Op.fence, Op.csrrs])
    (he : ⟨0x0000707f#32, put 12 funct3 ||| put 0 0b1100011#7, op⟩ ∈ dispatchTable)
    (ho : ∀ w, operands w op = make (Field.rs1 w) (Field.rs2 w) (Field.offB w)) : EncodedB funct3 make :=
  encodedB_of_entry he (unrivalled_of_mem he hop) rfl ho

/-! ### The statements -/

/-- Settles O21: the six branches share one rule and differ in the condition alone. -/
theorem conditionalBranches : Obligations.ConditionalBranches := by
  refine ⟨encodedB_of_row .beq (by decide) (by decide) fun _ => rfl, encodedB_of_row .bne (by decide) (by decide) fun _ => rfl,
    encodedB_of_row .blt (by decide) (by decide) fun _ => rfl, encodedB_of_row .bge (by decide) (by decide) fun _ => rfl,
    encodedB_of_row .bltu (by decide) (by decide) fun _ => rfl, encodedB_of_row .bgeu (by decide) (by decide) fun _ => rfl, ?_⟩
  rintro s rs1 rs2 off _ rfl
  refine ⟨?beq, ?bne, ?blt, ?bge, ?bltu, ?bgeu⟩
  case beq => exact goesOnly_of_branchIf rfl beq_iff_eq
  case bne => exact goesOnly_of_branchIf rfl bne_iff_ne
  case blt => exact goesOnly_of_branchIf rfl signedLess_iff
  case bge => exact goesOnly_of_branchIf rfl not_signedLess_iff
  case bltu => exact goesOnly_of_branchIf rfl unsignedLess_iff
  case bgeu => exact goesOnly_of_branchIf rfl not_unsignedLess_iff

/-- Settles O22: the opcode alone decides that a word is a `jal`, and the jump is the shared one to `pc + immJ`. -/
theorem jumpAndLink : Obligations.JumpAndLink := by
  refine ⟨fun w ho => ?word, fun s rd off => ?jump⟩
  case word =>
    obtain ⟨-, -, -, -, hjal, -, -⟩ := loadStoreAndTransferOpcodes w
    exact hjal ho
  case jump =>
    rw [← immJ_eq_ofInt]
    exact linkAndJump_writesOnly s rd (s.pc + immJ off)

/-- Settles O24: the opcode alone decides that a word is a `lui` or an `auipc`, and both retire a value made of `immU`. -/
theorem upperImmediates : Obligations.UpperImmediates := by
  refine ⟨fun w ho => ?luiWord, fun w ho => ?auipcWord, fun s rd field => ⟨?lui, ?auipc⟩⟩
  case luiWord =>
    obtain ⟨-, -, -, -, -, hlui, -⟩ := loadStoreAndTransferOpcodes w
    exact hlui ho
  case auipcWord =>
    obtain ⟨-, -, -, -, -, -, hauipc⟩ := loadStoreAndTransferOpcodes w
    exact hauipc ho
  case lui => exact writesOnly_of_retire rfl (immU_eq_ofInt field)
  case auipc => exact writesOnly_of_retire rfl (add_immU_eq_ofInt s.pc field)

end Sys2Proof.Proofs
end

section
/-! The CSR instructions: a word of `csrrs` is any that no counter-read entry takes, and the six instructions share one read-modify-write
(spec/45_csr.md R240 to R246). -/

namespace Sys2Proof.Proofs

open Sys2Proof.Machine Sys2Proof.Laws

/-! ### The words -/

theorem encodedCsr_of_row {funct3 : BitVec 3} {make : RegIdx → CsrIdx → BitVec 5 → Instr} (op : Op) (hop : op ∉ [Op.fence, Op.csrrs])
    (he : ⟨0x0000707f#32, put 12 funct3 ||| put 0 0b1110011#7, op⟩ ∈ dispatchTable)
    (ho : ∀ w, operands w op = make (Field.rd w) (Field.csr w) (Field.rs1 w)) : EncodedCsr funct3 make :=
  encodedCsr_of_entry he (unrivalled_of_mem he hop) rfl ho

/-- A field that the mask of an entry covers whole is, in a word that the entry matches, that of its pattern. -/
theorem extract_of_hits {e : Entry} {w : Insn} {k l : Nat} (hw : e.hits w = true) (hm : e.mask.extractLsb' k l = BitVec.allOnes l) :
    w.extractLsb' k l = e.pattern.extractLsb' k l := by
  rw [← hits_iff.mp hw, BitVec.extractLsb'_and, hm, BitVec.and_allOnes]

/-- A word that a counter-read entry matches names a counter CSR and has `rs1 = 0` (R93). -/
theorem fields_of_counterRead_hits {e : Entry} {w : Insn} (he : e ∈ table.counterReads) (hw : e.hits w = true) :
    Field.rs1 w = 0#5 ∧ Field.csr w ∈ counterCsrs := by
  have hcovers : ∀ e ∈ table.counterReads,
      e.mask.extractLsb' 15 5 = BitVec.allOnes 5 ∧ e.mask.extractLsb' 20 12 = BitVec.allOnes 12 := by decide
  have hpattern : ∀ e ∈ table.counterReads, Field.rs1 e.pattern = 0#5 ∧ Field.csr e.pattern ∈ counterCsrs := by decide
  obtain ⟨hrs1, hcsr⟩ := hcovers e he
  rw [Field.rs1, Field.csr, extract_of_hits hw hrs1, extract_of_hits hw hcsr]
  exact hpattern e he

/-- The row of `csrrs` in R95. -/
def csrrsEntry : Entry := ⟨0x0000707f#32, 0x00002073#32, .csrrs⟩

theorem csrrsEntry_mem : csrrsEntry ∈ dispatchTable := by decide

/-- The only rivals of `csrrs` are the counter reads (R93). -/
theorem counterRead_of_overlap_csrrs : ∀ e ∈ dispatchTable, overlap csrrsEntry e = true → e = csrrsEntry ∨ e ∈ table.counterReads := by
  decide

theorem csrrsEntry_hits {w : Insn} (ho : Field.opcode w = 0b1110011#7) (hf : Field.funct3 w = 0b010#3) : csrrsEntry.hits w = true := by
  rw [hits_iff, csrrsEntry, mask_funct3, ho, hf]
  rfl

/-- `csrrs` is rivalled, but a word of it that is no counter read has no other match. -/
theorem encodedCsr_csrrs : EncodedCsr 0b010#3 .csrrs := by
  intro w ho hf hclear
  have hw : csrrsEntry.hits w = true := csrrsEntry_hits ho hf
  have honly : ∀ e ∈ dispatchTable, e.hits w = true → e = csrrsEntry := fun e he hew =>
    (counterRead_of_overlap_csrrs e he (overlap_of_hits hw hew)).resolve_right
      fun hcounter => hclear ⟨rfl, fields_of_counterRead_hits hcounter hew⟩
  rw [decode, dispatch_of_hit csrrsEntry_mem hw fun e he hew => .inr (honly e he hew)]
  rfl

/-! ### The shared rule -/

theorem immC_eq_ofNat (uimm : BitVec 5) : immC uimm = BitVec.ofNat 64 uimm.toNat := (BitVec.ofNat_toNat 64 uimm).symm

/-- A read-modify-write that is not suppressed (R241, R244). -/
theorem csrUpdate_always (s : State) (rd : RegIdx) (c : CsrIdx) (v : Word) :
    ∃ t, csrUpdate rd c (fun _ => some v) s = .next t ∧ SwapsCsrOnly s t rd c v :=
  csrUpdate_swapsCsrOnly s rd c fun _ => some v

/-- A read-modify-write that is suppressed when the field is 0 (R242, R243, R245, R246). -/
theorem csrUpdate_unlessZero (s : State) (rd : RegIdx) (c : CsrIdx) (field : BitVec 5) (f : Word → Word) :
    ∃ t, csrUpdate rd c (fun old => if field = 0#5 then none else some (f old)) s = .next t ∧
      SwapsCsrOnly s t rd c (if field ≠ 0#5 then f (s.readCsr c) else s.readCsr c) := by
  have hleft : (if field = 0#5 then none else some (f (s.readCsr c))).getD (s.readCsr c) =
      if field ≠ 0#5 then f (s.readCsr c) else s.readCsr c := by
    rw [ite_not]
    split <;> rfl
  rw [← hleft]
  exact csrUpdate_swapsCsrOnly s rd c fun old => if field = 0#5 then none else some (f old)

/-! ### The statements -/

/-- Settles O25: the two always write, `csrrwi` the zero-extended field. -/
theorem csrReadWrite : Obligations.CsrReadWrite := by
  refine ⟨encodedCsr_of_row .csrrw (by decide) (by decide) fun _ => rfl, encodedCsr_of_row .csrrwi (by decide) (by decide) fun _ => rfl,
    fun s rd rs1 c uimm => ⟨?csrrw, ?csrrwi⟩⟩
  case csrrw => exact csrUpdate_always s rd c (s.readReg rs1)
  case csrrwi =>
    rw [← immC_eq_ofNat]
    exact csrUpdate_always s rd c (immC uimm)

/-- Settles O26: the four differ in the source and in the bits that it sets or clears, and share the suppression. -/
theorem csrSetAndClear : Obligations.CsrSetAndClear := by
  refine ⟨encodedCsr_csrrs, encodedCsr_of_row .csrrc (by decide) (by decide) fun _ => rfl,
    encodedCsr_of_row .csrrsi (by decide) (by decide) fun _ => rfl, encodedCsr_of_row .csrrci (by decide) (by decide) fun _ => rfl,
    fun s rd rs1 c uimm => ?_⟩
  rw [← immC_eq_ofNat]
  refine ⟨?csrrs, ?csrrc, ?csrrsi, ?csrrci⟩
  case csrrs => exact csrUpdate_unlessZero s rd c rs1 (· ||| s.readReg rs1)
  case csrrc => exact csrUpdate_unlessZero s rd c rs1 (· &&& ~~~(s.readReg rs1))
  case csrrsi => exact csrUpdate_unlessZero s rd c uimm (· ||| immC uimm)
  case csrrci => exact csrUpdate_unlessZero s rd c uimm (· &&& ~~~(immC uimm))

end Sys2Proof.Proofs
end

section
/-! The instructions that do nothing: the ten entries all run the one shared `noEffect` (spec/46_system.md R250). -/

namespace Sys2Proof.Proofs

open Sys2Proof.Machine Sys2Proof.Laws

/-- Settles O30: each of the ten entries is `noEffect`, which does nothing but go on to `pc + 4`. -/
theorem noOperations : Obligations.NoOperations := by
  intro s fields rd rs1 i hi
  have hexec : exec i s = noEffect s := by
    simp only [List.mem_cons, List.not_mem_nil, or_false] at hi
    rcases hi with rfl | rfl | rfl | rfl | rfl | rfl | rfl | rfl | rfl | rfl <;> rfl
  rw [hexec]
  exact noEffect_goesOnly s

end Sys2Proof.Proofs
end

section
/-! The privilege level restricts nothing: a step at another level is the same step, but for the level that an environment call carries
(spec/60_exceptions.md R282). -/

namespace Sys2Proof.Proofs

open Sys2Proof.Machine Sys2Proof.Laws

/-! ### The same machine at another privilege level -/

/-- The state with privilege level `p`, an environment call in its status being one of that level. -/
def atPriv (p : Priv) (s : State) : State := { s with priv := p, status := s.status.relabel p }

theorem atPriv_of_running {s : State} (p : Priv) (hs : s.status = .running) : atPriv p s = { s with priv := p } := by
  simp only [atPriv, hs, Status.relabel]

theorem atPriv_running {s : State} (p : Priv) (hs : s.status = .running) : (atPriv p s).status = .running := by
  rw [atPriv_of_running p hs, hs]

/-! What the accessors and the shared updates see of the level: nothing. -/

theorem readReg_atPriv (p : Priv) (s : State) (r : RegIdx) : (atPriv p s).readReg r = s.readReg r := rfl

theorem readCsr_atPriv (p : Priv) (s : State) (c : CsrIdx) : (atPriv p s).readCsr c = s.readCsr c := rfl

theorem memRead_atPriv (p : Priv) (s : State) (addr : Word) (w : Width) : (atPriv p s).memRead addr w = s.memRead addr w := rfl

theorem fetch_atPriv (p : Priv) (s : State) : fetch (atPriv p s) = fetch s := rfl

theorem writeReg_atPriv (p : Priv) (s : State) (rd : RegIdx) (v : Word) :
    (atPriv p s).writeReg rd v = atPriv p (s.writeReg rd v) := by
  unfold State.writeReg
  split <;> rfl

theorem memWrite_atPriv (p : Priv) (s : State) (addr : Word) (w : Width) (v : Word) :
    (atPriv p s).memWrite addr w v = (s.memWrite addr w v).map (atPriv p) := by
  unfold State.memWrite
  rw [apply_ite (Option.map (atPriv p))]
  rfl

/-! ### Execute (R123) -/

section Execute

variable {s t : State} (p : Priv)

theorem retire_atPriv {rd : RegIdx} {v : Word} (h : retire rd v s = .next t) :
    retire rd v (atPriv p s) = .next (atPriv p t) := by
  cases h
  rw [retire, writeReg_atPriv]
  rfl

theorem linkAndJump_atPriv {rd : RegIdx} {target : Word} (h : linkAndJump rd target s = .next t) :
    linkAndJump rd target (atPriv p s) = .next (atPriv p t) := by
  cases h
  rw [linkAndJump, writeReg_atPriv]
  rfl

theorem branchIf_atPriv {taken : Bool} {off : BitVec 12} (h : branchIf taken off s = .next t) :
    branchIf taken off (atPriv p s) = .next (atPriv p t) := by
  cases h
  rfl

theorem noEffect_atPriv (h : noEffect s = .next t) : noEffect (atPriv p s) = .next (atPriv p t) := by
  cases h
  rfl

theorem csrUpdate_atPriv {rd : RegIdx} {c : CsrIdx} {new : Word → Option Word} (h : csrUpdate rd c new s = .next t) :
    csrUpdate rd c new (atPriv p s) = .next (atPriv p t) := by
  unfold csrUpdate at h ⊢
  rw [readCsr_atPriv]
  cases hnew : new (s.readCsr c) <;> rw [hnew] at h <;> exact retire_atPriv p h

theorem loadFrom_atPriv {w : Width} {ext : Word → Word} {rd rs1 : RegIdx} {imm : BitVec 12}
    (h : loadFrom w ext rd rs1 imm s = .next t) : loadFrom w ext rd rs1 imm (atPriv p s) = .next (atPriv p t) := by
  unfold loadFrom at h ⊢
  rw [readReg_atPriv, memRead_atPriv]
  cases hread : s.memRead (effective (s.readReg rs1) (immI imm)) w <;> rw [hread] at h
  case some v => exact retire_atPriv p h
  case none =>
    cases h
    rfl

theorem storeTo_atPriv {w : Width} {rs2 rs1 : RegIdx} {imm : BitVec 12} (h : storeTo w rs2 rs1 imm s = .next t) :
    storeTo w rs2 rs1 imm (atPriv p s) = .next (atPriv p t) := by
  unfold storeTo at h ⊢
  rw [readReg_atPriv, readReg_atPriv, memWrite_atPriv]
  cases hwrite : s.memWrite (effective (s.readReg rs1) (immS imm)) w (s.readReg rs2) <;> rw [hwrite] at h
  case some u =>
    cases h
    rfl
  case none =>
    cases h
    rfl

/-- The environment call passes the level on; every other instruction is one of the shared operations. -/
theorem exec_atPriv {i : Instr} (h : exec i s = .next t) : exec i (atPriv p s) = .next (atPriv p t) := by
  cases i
  case ecall =>
    cases h
    rfl
  case beq | bne | blt | bge | bltu | bgeu => exact branchIf_atPriv p h
  case jal | jalr => exact linkAndJump_atPriv p h
  case lb | lh | lw | ld | lbu | lhu | lwu => exact loadFrom_atPriv p h
  case sb | sh | sw | sd => exact storeTo_atPriv p h
  case csrrw | csrrs | csrrc | csrrwi | csrrsi | csrrci =>
    simp only [exec, execCsrrw, execCsrrs, execCsrrc, execCsrrwi, execCsrrsi, execCsrrci] at h ⊢
    exact csrUpdate_atPriv p h
  case ebreak | fence | fenceTso | pause | rdcycle | rdtime | rdinstret | rdcycleh | rdtimeh | rdinstreth =>
    exact noEffect_atPriv p h
  all_goals exact retire_atPriv p h

end Execute

/-! ### The step (R120) -/

/-- A fetch never raises an environment call. -/
theorem fetch_raises_fetchFault {s : State} {e : Exc} (hf : fetch s = .raised e) : e = fetchFault s.pc := by
  have hfinds := fetch_finds s
  rw [hf] at hfinds
  cases hfinds with
  | memFault => rfl
  | bufFault => rfl

theorem step_atPriv {s t : State} (p : Priv) (h : step s = .next t) : step (atPriv p s) = .next (atPriv p t) := by
  obtain ⟨ha, hs, -⟩ := step_cases h
  have ha' : accepted (atPriv p s).params = true := ha
  have hs' : (atPriv p s).status = .running := atPriv_running p hs
  cases hf : fetch s with
  | exhausted =>
    cases (step_of_exhausted ha hs hf).symm.trans h
    exact step_of_exhausted ha' hs' ((fetch_atPriv p s).trans hf)
  | raised e =>
    cases (step_of_raised ha hs hf).symm.trans h
    obtain rfl := fetch_raises_fetchFault hf
    exact step_of_raised ha' hs' ((fetch_atPriv p s).trans hf)
  | word w =>
    have hf' := (fetch_atPriv p s).trans hf
    cases hd : decode w with
    | none =>
      cases (step_of_illegal ha hs hf hd).symm.trans h
      exact step_of_illegal ha' hs' hf' hd
    | some i =>
      rw [step_of_decoded ha hs hf hd] at h
      rw [step_of_decoded ha' hs' hf' hd]
      exact exec_atPriv p h

theorem effect_priv {s t : State} (h : Effect s t) : t.priv = s.priv := by
  cases h <;> simp

theorem step_priv {s t : State} (h : step s = .next t) : t.priv = s.priv := by
  rcases step_effect h with rfl | heffect
  · rfl
  · exact effect_priv heffect

/-- Settles O40: no stage of a step reads the level but the environment call, which passes it on in its payload; so the step commutes with
`atPriv`, which in a running state changes the level alone. -/
theorem privilegeRestrictsNothing : Obligations.PrivilegeRestrictsNothing := by
  refine ⟨fun _ => rfl, fun s t p hs h => ⟨step_priv h, ?_⟩⟩
  rw [← atPriv_of_running p hs]
  exact step_atPriv p h

end Sys2Proof.Proofs
end

section
/-! The words of each opcode: which rows of the dispatch table an opcode has, what the MISC-MEM and SYSTEM words are, and which words are
illegal (spec/30_encoding.md R93 to R105). -/

namespace Sys2Proof.Proofs

open Sys2Proof.Machine Sys2Proof.Laws

/-! ### A row matches a word by the fields that its mask keeps -/

/-- `extract_of_hits` for a mask that is a numeral. -/
theorem extract_of_masked {w m p : Insn} {k l : Nat} (hw : w &&& m = p) (hm : m.extractLsb' k l = BitVec.allOnes l) :
    w.extractLsb' k l = p.extractLsb' k l := by
  rw [← hw, BitVec.extractLsb'_and, hm, BitVec.and_allOnes]

section Masks

variable {w p : Insn}

theorem and_mask_funct3_iff (hp : put 12 (Field.funct3 p) ||| put 0 (Field.opcode p) = p) :
    w &&& 0x0000707f#32 = p ↔ Field.funct3 w = Field.funct3 p ∧ Field.opcode w = Field.opcode p := by
  constructor
  · exact fun hw => ⟨extract_of_masked hw (by decide), extract_of_masked hw (by decide)⟩
  · rintro ⟨hf, ho⟩
    rw [mask_funct3, hf, ho, hp]

theorem and_mask_funct7_iff (hp : put 25 (Field.funct7 p) ||| put 12 (Field.funct3 p) ||| put 0 (Field.opcode p) = p) :
    w &&& 0xfe00707f#32 = p ↔
      Field.funct7 w = Field.funct7 p ∧ Field.funct3 w = Field.funct3 p ∧ Field.opcode w = Field.opcode p := by
  constructor
  · exact fun hw => ⟨extract_of_masked hw (by decide), extract_of_masked hw (by decide), extract_of_masked hw (by decide)⟩
  · rintro ⟨h7, hf, ho⟩
    rw [mask_funct7, h7, hf, ho, hp]

theorem and_mask_funct6_iff (hp : put 26 (Field.funct6 p) ||| put 12 (Field.funct3 p) ||| put 0 (Field.opcode p) = p) :
    w &&& 0xfc00707f#32 = p ↔
      Field.funct6 w = Field.funct6 p ∧ Field.funct3 w = Field.funct3 p ∧ Field.opcode w = Field.opcode p := by
  constructor
  · exact fun hw => ⟨extract_of_masked hw (by decide), extract_of_masked hw (by decide), extract_of_masked hw (by decide)⟩
  · rintro ⟨h6, hf, ho⟩
    rw [mask_funct6, h6, hf, ho, hp]

end Masks

/-! ### Illegal words -/

/-- The three values that OP and OP-32 use, and every other. -/
theorem funct7_cases (f : BitVec 7) :
    f = 0b0000000#7 ∨ f = 0b0100000#7 ∨ f = 0b0000001#7 ∨ (f ≠ 0b0000000#7 ∧ f ≠ 0b0100000#7 ∧ f ≠ 0b0000001#7) := by
  tauto

theorem decode_eq_none_iff_not_hits {w : Insn} : decode w = none ↔ ∀ e ∈ dispatchTable, ¬ e.hits w = true := by
  simp only [decode_eq_none, Bool.not_eq_true]

/-- The rows of one opcode. -/
def rowsOf (opcode : BitVec 7) : List Entry := dispatchTable.filter fun e => Field.opcode e.pattern == opcode

/-- A word is illegal when no row of its own opcode matches it. -/
theorem decode_eq_none_iff_rowsOf {w : Insn} {opcode : BitVec 7} (ho : Field.opcode w = opcode) :
    decode w = none ↔ ∀ e ∈ rowsOf opcode, ¬ e.hits w = true := by
  rw [decode_eq_none_iff_not_hits]
  refine ⟨fun h e he => h e (List.mem_filter.mp he).1, fun h e he hw => h e ?_ hw⟩
  exact List.mem_filter.mpr ⟨he, beq_iff_eq.mpr ((opcode_of_hits he hw).trans ho)⟩

theorem rowsOf_opImm : rowsOf 0x13#7 = table.opImm := by decide

theorem rowsOf_opImm32 : rowsOf 0x1b#7 = table.wForms.take 4 := by decide

theorem rowsOf_op : rowsOf 0x33#7 = table.op ++ table.mulDiv.take 8 := by decide

theorem rowsOf_op32 : rowsOf 0x3b#7 = table.wForms.drop 4 ++ table.mulDiv.drop 8 := by decide

/-- Settles O54: every mask covers the opcode, so a match gives a word the opcode of a row. -/
theorem otherOpcodesAreIllegal : Obligations.OtherOpcodesAreIllegal := by
  intro w
  refine ⟨fun hlow => ?low, fun ho => ?opcode⟩
  case low =>
    have hrows : ∀ e ∈ dispatchTable, e.mask.extractLsb' 0 2 = BitVec.allOnes 2 ∧ e.pattern.extractLsb' 0 2 = 0b11#2 := by decide
    refine decode_eq_none_iff_not_hits.mpr fun e he hw => hlow ?_
    obtain ⟨hmask, hpattern⟩ := hrows e he
    rw [extract_of_hits hw hmask, hpattern]
  case opcode =>
    have hrows : ∀ e ∈ dispatchTable, Field.opcode e.pattern ∈
        [0x03#7, 0x0f#7, 0x13#7, 0x17#7, 0x1b#7, 0x23#7, 0x33#7, 0x37#7, 0x3b#7, 0x63#7, 0x67#7, 0x6f#7, 0x73#7] := by decide
    exact decode_eq_none_iff_not_hits.mpr fun e he hw => ho (opcode_of_hits he hw ▸ hrows e he)

/-- Settles O52: the rows of an opcode, each read as the funct3 and the funct7 or funct6 that it asks for. -/
theorem illegalIntegerWords : Obligations.IllegalIntegerWords := by
  intro w
  refine ⟨fun ho => ?opImm, fun ho => ?opImm32, fun ho => ?op, fun ho => ?op32⟩
  case opImm =>
    rw [decode_eq_none_iff_rowsOf ho, rowsOf_opImm]
    simp (disch := decide) only [table.opImm, List.forall_mem_cons, List.not_mem_nil, false_imp_iff, implies_true, and_true, hits_iff,
      and_mask_funct3_iff, and_mask_funct6_iff, ho]
    generalize Field.funct3 w = f3, Field.funct6 w = f6
    rcases funct3_cases f3 with rfl | rfl | rfl | rfl | rfl | rfl | rfl | rfl <;> simp [Field.funct3, Field.funct6, Field.opcode]
  case opImm32 =>
    rw [decode_eq_none_iff_rowsOf ho, rowsOf_opImm32]
    simp (disch := decide) only [table.wForms, List.take_succ_cons, List.take_zero, List.forall_mem_cons, List.not_mem_nil,
      false_imp_iff, implies_true, and_true, hits_iff, and_mask_funct3_iff, and_mask_funct7_iff, ho]
    generalize Field.funct3 w = f3, Field.funct7 w = f7
    rcases funct3_cases f3 with rfl | rfl | rfl | rfl | rfl | rfl | rfl | rfl <;> simp [Field.funct3, Field.funct7, Field.opcode]
  case op =>
    rw [decode_eq_none_iff_rowsOf ho, rowsOf_op]
    simp (disch := decide) only [table.op, table.mulDiv, List.take_succ_cons, List.take_zero, List.cons_append, List.nil_append,
      List.forall_mem_cons, List.not_mem_nil, false_imp_iff, implies_true, and_true, hits_iff, and_mask_funct7_iff, ho]
    generalize Field.funct3 w = f3, Field.funct7 w = f7
    rcases funct7_cases f7 with rfl | rfl | rfl | ⟨h0, h32, h1⟩
    case inr.inr.inr => simp [Field.funct7, h0, h32, h1]
    all_goals
      rcases funct3_cases f3 with rfl | rfl | rfl | rfl | rfl | rfl | rfl | rfl <;> simp [Field.funct3, Field.funct7, Field.opcode]
  case op32 =>
    rw [decode_eq_none_iff_rowsOf ho, rowsOf_op32]
    simp (disch := decide) only [table.wForms, table.mulDiv, List.drop_succ_cons, List.drop_zero, List.cons_append, List.nil_append,
      List.forall_mem_cons, List.not_mem_nil, false_imp_iff, implies_true, and_true, hits_iff, and_mask_funct7_iff, ho]
    generalize Field.funct3 w = f3, Field.funct7 w = f7
    rcases funct7_cases f7 with rfl | rfl | rfl | ⟨h0, h32, h1⟩
    case inr.inr.inr => simp [Field.funct7, h0, h32, h1]
    all_goals
      rcases funct3_cases f3 with rfl | rfl | rfl | rfl | rfl | rfl | rfl | rfl <;> simp [Field.funct3, Field.funct7, Field.opcode]

/-! ### MISC-MEM and SYSTEM -/

theorem decode_eq_none_of_funct3 {w : Insn} {opcode : BitVec 7} (ho : Field.opcode w = opcode)
    (hrows : ∀ e ∈ rowsOf opcode, Field.funct3 e.mask = BitVec.allOnes 3 ∧ Field.funct3 e.pattern ≠ Field.funct3 w) :
    decode w = none := by
  refine (decode_eq_none_iff_rowsOf ho).mpr fun e he hw => ?_
  obtain ⟨hmask, hpattern⟩ := hrows e he
  exact hpattern (extract_of_hits hw hmask).symm

/-- The rows of MISC-MEM: `fence`, and its two rivals (R93). -/
theorem rowsOf_miscMem : rowsOf 0x0f#7 = table.system.take 3 := by decide

theorem decode_fenceTso {w : Insn} (ho : Field.opcode w = 0x0f#7) (hf : Field.funct3 w = 0#3) (hi : Field.immI w = 0x833#12) :
    decode w = some (.fenceTso (Field.rs1 w) (Field.rd w)) :=
  decode_of_unrivalled (e := ⟨0xfff0707f#32, 0x8330000f#32, .fenceTso⟩) (by decide) (unrivalled_of_mem (by decide) (by decide))
    (hits_iff.mpr (by rw [mask_funct12, ho, hf, hi]; rfl))

/-- `fence` is rivalled, but a word of it that is neither a `fence.tso` nor the `pause` has no other match. -/
theorem decode_fence {w : Insn} (ho : Field.opcode w = 0x0f#7) (hf : Field.funct3 w = 0#3) (hpause : w ≠ 0x0100000f#32)
    (htso : Field.immI w ≠ 0x833#12) : decode w = some (.fence (Field.immI w) (Field.rs1 w) (Field.rd w)) := by
  have hdispatch : dispatch w = some .fence := by
    refine dispatch_of_hit (e := ⟨0x0000707f#32, 0x0000000f#32, .fence⟩) (by decide)
      (hits_iff.mpr (by rw [mask_funct3, ho, hf]; rfl)) fun b hb hw => .inr ?_
    have hrow : b ∈ rowsOf 0x0f#7 := List.mem_filter.mpr ⟨hb, beq_iff_eq.mpr ((opcode_of_hits hb hw).trans ho)⟩
    simp only [rowsOf_miscMem, table.system, List.take_succ_cons, List.take_zero, List.mem_cons, List.not_mem_nil, or_false] at hrow
    rcases hrow with rfl | rfl | rfl
    · rfl
    · exact absurd (extract_of_masked (k := 20) (l := 12) (hits_iff.mp hw) (by decide)) htso
    · exact absurd (BitVec.and_allOnes.symm.trans (hits_iff.mp hw)) hpause
  rw [decode, hdispatch]
  rfl

/-- The SYSTEM rows with funct3 000 match one word each. -/
theorem eq_of_hits_system {w : Insn} {e : Entry} (he : e ∈ rowsOf 0x73#7) (hf : Field.funct3 w = 0#3) (hw : e.hits w = true) :
    w = 0x00000073#32 ∨ w = 0x00100073#32 := by
  have hrows : ∀ e ∈ rowsOf 0x73#7, Field.funct3 e.mask = BitVec.allOnes 3 ∧
      (Field.funct3 e.pattern = 0#3 → e.mask = BitVec.allOnes 32 ∧ (e.pattern = 0x00000073#32 ∨ e.pattern = 0x00100073#32)) := by
    decide
  obtain ⟨hfunct3, hwhole⟩ := hrows e he
  obtain ⟨hmask, hpattern⟩ := hwhole ((extract_of_hits hw hfunct3).symm.trans hf)
  rwa [← hits_iff.mp hw, hmask, BitVec.and_allOnes] at hpattern

/-- A counter read is unrivalled, and its mask keeps all fields but `rd`. -/
theorem decode_counterRead {w : Insn} (c : Nat) (op : Op) (ho : Field.opcode w = 0x73#7) (hf : Field.funct3 w = 2#3)
    (hr : Field.rs1 w = 0#5) (hc : (Field.csr w).toNat = c)
    (he : ⟨0xfffff07f#32, put 20 (BitVec.ofNat 12 c) ||| put 15 0#5 ||| put 12 2#3 ||| put 0 0x73#7, op⟩ ∈ dispatchTable)
    (hop : op ∉ [Op.fence, Op.csrrs]) : decode w = some (operands w op) := by
  have hcsr : Field.csr w = BitVec.ofNat 12 c := by rw [← hc, BitVec.ofNat_toNat, BitVec.setWidth_eq]
  exact decode_of_unrivalled he (unrivalled_of_mem he hop)
    (hits_iff.mpr (by rw [mask_counter, ho, hf, hr, hcsr]))

/-- Settles O53: MISC-MEM by its three rows; SYSTEM by the rows of the funct3, the counter reads apart from every other `csrrs`. -/
theorem miscMemAndSystemOpcodes : Obligations.MiscMemAndSystemOpcodes := by
  intro w
  refine ⟨fun ho => ?miscMem, fun ho hf => ?funct3_000, fun ho hf => ?funct3_100, fun ho hf hr => ?counter⟩
  case miscMem =>
    have hrows : ∀ e ∈ rowsOf 0x0f#7, Field.funct3 e.mask = BitVec.allOnes 3 ∧ Field.funct3 e.pattern = 0#3 := by decide
    split_ifs with hf hpause htso
    · refine decode_eq_none_of_funct3 ho fun e he => ?_
      obtain ⟨hmask, hpattern⟩ := hrows e he
      exact ⟨hmask, hpattern ▸ Ne.symm hf⟩
    · subst hpause
      rfl
    · exact decode_fenceTso ho (not_not.mp hf) htso
    · exact decode_fence ho (not_not.mp hf) hpause htso
  case funct3_000 =>
    split_ifs with hecall hebreak
    · subst hecall
      rfl
    · subst hebreak
      rfl
    · exact (decode_eq_none_iff_rowsOf ho).mpr fun e he hw => (eq_of_hits_system he hf hw).elim hecall hebreak
  case funct3_100 =>
    refine decode_eq_none_of_funct3 ho ?_
    rw [hf]
    decide
  case counter =>
    split
    case h_1 hc => exact decode_counterRead 0xC00 .rdcycle ho hf hr hc (by decide) (by decide)
    case h_2 hc => exact decode_counterRead 0xC01 .rdtime ho hf hr hc (by decide) (by decide)
    case h_3 hc => exact decode_counterRead 0xC02 .rdinstret ho hf hr hc (by decide) (by decide)
    case h_4 hc => exact decode_counterRead 0xC80 .rdcycleh ho hf hr hc (by decide) (by decide)
    case h_5 hc => exact decode_counterRead 0xC81 .rdtimeh ho hf hr hc (by decide) (by decide)
    case h_6 hc => exact decode_counterRead 0xC82 .rdinstreth ho hf hr hc (by decide) (by decide)
    case h_7 h0 h1 h2 h3 h4 h5 =>
      rw [← hr]
      refine encodedCsr_csrrs w ho hf fun ⟨_, _, hmem⟩ => ?_
      simp only [counterCsrs, List.mem_cons, List.not_mem_nil, or_false] at hmem
      rcases hmem with h | h | h | h | h | h
      · exact h0 (congrArg BitVec.toNat h)
      · exact h1 (congrArg BitVec.toNat h)
      · exact h2 (congrArg BitVec.toNat h)
      · exact h3 (congrArg BitVec.toNat h)
      · exact h4 (congrArg BitVec.toNat h)
      · exact h5 (congrArg BitVec.toNat h)

/-- Settles O57: each word is run through the dispatch table. -/
theorem exampleWordsDecode : Obligations.ExampleWordsDecode :=
  ⟨rfl, rfl, rfl, rfl, rfl, rfl, rfl, rfl, rfl, rfl, rfl, rfl, rfl, rfl⟩

end Sys2Proof.Proofs
end

section
/-! The encoder and the decoder are inverse to each other: on well-formed instructions, on words that decode, and on bytes
(spec/30_encoding.md R82, R90 to R95). -/

namespace Sys2Proof.Proofs

open Sys2Proof.Machine Sys2Proof.Laws

/-! ### Decoding an encoding -/

theorem ownRow (i : Instr) : OwnRow.Statement i :=
  Instr.casesOn (motive := OwnRow.Statement) i OwnRow.lui OwnRow.auipc OwnRow.jal OwnRow.jalr
    OwnRow.beq OwnRow.bne OwnRow.blt OwnRow.bge OwnRow.bltu OwnRow.bgeu
    OwnRow.lb OwnRow.lh OwnRow.lw OwnRow.ld OwnRow.lbu OwnRow.lhu OwnRow.lwu OwnRow.sb OwnRow.sh OwnRow.sw OwnRow.sd
    OwnRow.addi OwnRow.slti OwnRow.sltiu OwnRow.xori OwnRow.ori OwnRow.andi OwnRow.slli OwnRow.srli OwnRow.srai
    OwnRow.add OwnRow.sub OwnRow.sll OwnRow.slt OwnRow.sltu OwnRow.xor OwnRow.srl OwnRow.sra OwnRow.or OwnRow.and
    OwnRow.addiw OwnRow.slliw OwnRow.srliw OwnRow.sraiw OwnRow.addw OwnRow.subw OwnRow.sllw OwnRow.srlw OwnRow.sraw
    OwnRow.mul OwnRow.mulh OwnRow.mulhsu OwnRow.mulhu OwnRow.div OwnRow.divu OwnRow.rem OwnRow.remu
    OwnRow.mulw OwnRow.divw OwnRow.divuw OwnRow.remw OwnRow.remuw
    OwnRow.fence OwnRow.fenceTso OwnRow.pause OwnRow.ecall OwnRow.ebreak
    OwnRow.csrrw OwnRow.csrrs OwnRow.csrrc OwnRow.csrrwi OwnRow.csrrsi OwnRow.csrrci
    OwnRow.rdcycle OwnRow.rdtime OwnRow.rdinstret OwnRow.rdcycleh OwnRow.rdtimeh OwnRow.rdinstreth

/-- An instruction whose row has no rival is read back from its word. -/
theorem decode_encode_of_unrivalled {i : Instr} (hfence : ∀ fields rs1 rd, i ≠ .fence fields rs1 rd)
    (hcsrrs : ∀ rd csr rs1, i ≠ .csrrs rd csr rs1) : decode (encode i) = some i := by
  obtain ⟨e, he, hw, hi⟩ := ownRow i
  have hop : e.op ∉ [Op.fence, Op.csrrs] := by
    simp only [List.mem_cons, List.not_mem_nil, or_false]
    rintro (hop | hop) <;> rw [hop] at hi
    · exact hfence _ _ _ hi.symm
    · exact hcsrrs _ _ _ hi.symm
  rw [decode_of_unrivalled he (unrivalled_of_mem he hop) hw, hi]

section Fields

variable (imm : BitVec 12) (rs1 rd : RegIdx) (funct3 : BitVec 3) (opcode : BitVec 7)

@[simp] theorem encodeI_funct3 : Field.funct3 (encodeI imm rs1 funct3 rd opcode) = funct3 := by
  simp (disch := decide) only [Field.funct3, encodeI, extract_or, extract_put_same, extract_put_outside, BitVec.zero_or, BitVec.or_zero]

@[simp] theorem encodeI_opcode : Field.opcode (encodeI imm rs1 funct3 rd opcode) = opcode := by
  simp (disch := decide) only [Field.opcode, encodeI, extract_or, extract_put_same, extract_put_outside, BitVec.zero_or]

variable {imm rs1 rd funct3 opcode}

theorem encodeI_eq_imp {imm' : BitVec 12} {rs1' rd' : RegIdx}
    (h : encodeI imm rs1 funct3 rd opcode = encodeI imm' rs1' funct3 rd' opcode) : imm = imm' ∧ rs1 = rs1' ∧ rd = rd' :=
  ⟨by simpa using congrArg Field.immI h, by simpa using congrArg Field.rs1 h, by simpa using congrArg Field.rd h⟩

end Fields

/-- A term whose word is another instruction's does not come back from it. -/
theorem decode_encode_ne {i j : Instr} (hword : encode i = encode j) (hj : decode (encode j) = some j) (hne : j ≠ i) :
    decode (encode i) ≠ some i := by
  rw [hword, hj]
  exact fun h => hne (Option.some.inj h)

/-- A `fence` term is read back from its word unless `fence.tso` or `pause` takes the word (R93). -/
theorem decode_encode_fence (fields : BitVec 12) (rs1 rd : RegIdx) :
    fenceClear fields rs1 rd = true ↔ decode (encode (.fence fields rs1 rd)) = some (.fence fields rs1 rd) := by
  by_cases htso : fields = fenceTsoFields
  · subst htso
    exact iff_of_false (by simp [fenceClear])
      (decode_encode_ne (j := .fenceTso rs1 rd) rfl (decode_encode_of_unrivalled nofun nofun) nofun)
  by_cases hpause : fields = pauseFields ∧ rs1 = 0#5 ∧ rd = 0#5
  · obtain ⟨rfl, rfl, rfl⟩ := hpause
    exact iff_of_false (by decide) (decode_encode_ne (j := .pause) rfl (decode_encode_of_unrivalled nofun nofun) nofun)
  · have hnotPause : encode (.fence fields rs1 rd) ≠ 0x0100000f#32 := fun h =>
      hpause (encodeI_eq_imp (imm' := pauseFields) (rs1' := 0#5) (rd' := 0#5) h)
    have hnotTso : Field.immI (encode (.fence fields rs1 rd)) ≠ 0x833#12 := by
      rw [encode, encodeI_immI]
      exact htso
    have hword := decode_fence (encodeI_opcode ..) (encodeI_funct3 ..) hnotPause hnotTso
    refine iff_of_true (by simpa [fenceClear, htso, imp_iff_not_or, or_assoc] using hpause) ?_
    simpa [encode] using hword

/-- A `csrrs` term is read back from its word unless a counter read takes the word (R93). -/
theorem decode_encode_csrrs (rd : RegIdx) (csr : CsrIdx) (rs1 : RegIdx) :
    csrrsClear csr rs1 = true ↔ decode (encode (.csrrs rd csr rs1)) = some (.csrrs rd csr rs1) := by
  by_cases hcounter : rs1 = 0#5 ∧ csr ∈ counterCsrs
  · obtain ⟨rfl, hcsr⟩ := hcounter
    refine iff_of_false (by simpa [csrrsClear] using hcsr) ?_
    simp only [counterCsrs, List.mem_cons, List.not_mem_nil, or_false] at hcsr
    rcases hcsr with rfl | rfl | rfl | rfl | rfl | rfl
    · exact decode_encode_ne (j := .rdcycle rd) rfl (decode_encode_of_unrivalled nofun nofun) nofun
    · exact decode_encode_ne (j := .rdtime rd) rfl (decode_encode_of_unrivalled nofun nofun) nofun
    · exact decode_encode_ne (j := .rdinstret rd) rfl (decode_encode_of_unrivalled nofun nofun) nofun
    · exact decode_encode_ne (j := .rdcycleh rd) rfl (decode_encode_of_unrivalled nofun nofun) nofun
    · exact decode_encode_ne (j := .rdtimeh rd) rfl (decode_encode_of_unrivalled nofun nofun) nofun
    · exact decode_encode_ne (j := .rdinstreth rd) rfl (decode_encode_of_unrivalled nofun nofun) nofun
  · have hword := encodedCsr_csrrs (encode (.csrrs rd csr rs1)) (encodeI_opcode ..) (encodeI_funct3 ..)
      (by simpa [encode, imp_iff_not_or] using hcounter)
    refine iff_of_true (by simpa [csrrsClear, imp_iff_not_or] using hcounter) ?_
    simpa [encode] using hword

/-- The well-formed terms are those that are read back from their own word. -/
theorem wellFormed_iff (i : Instr) : i.wellFormed = true ↔ decode (encode i) = some i := by
  cases i
  case fence fields rs1 rd => exact decode_encode_fence fields rs1 rd
  case csrrs rd csr rs1 => exact decode_encode_csrrs rd csr rs1
  all_goals exact iff_of_true rfl (decode_encode_of_unrivalled nofun nofun)

/-! ### Encoding a decoding -/

/-! A word is its bytes put together again (R52), and its fields, format by format (R82). -/

section Join

variable (w : Insn)

theorem wordOfBytes_extract : wordOfBytes (w.extractLsb' 0 8) (w.extractLsb' 8 8) (w.extractLsb' 16 8) (w.extractLsb' 24 8) = w := by
  simp only [wordOfBytes, ← and_put_ones, ← Laws.and_or_right]
  exact BitVec.and_allOnes

theorem encodeR_fields :
    encodeR (Field.funct7 w) (Field.rs2 w) (Field.rs1 w) (Field.funct3 w) (Field.rd w) (Field.opcode w) = w := by
  simp only [encodeR, Field.funct7, Field.rs2, Field.rs1, Field.funct3, Field.rd, Field.opcode, ← and_put_ones,
    ← Laws.and_or_right]
  exact BitVec.and_allOnes

theorem encodeI_fields : encodeI (Field.immI w) (Field.rs1 w) (Field.funct3 w) (Field.rd w) (Field.opcode w) = w := by
  simp only [encodeI, Field.immI, Field.rs1, Field.funct3, Field.rd, Field.opcode, ← and_put_ones,
    ← Laws.and_or_right]
  exact BitVec.and_allOnes

theorem encodeShamt6_fields :
    encodeShamt6 (Field.funct6 w) (Field.shamt6 w) (Field.rs1 w) (Field.funct3 w) (Field.rd w) (Field.opcode w) = w := by
  simp only [encodeShamt6, Field.funct6, Field.shamt6, Field.rs1, Field.funct3, Field.rd, Field.opcode, ← and_put_ones,
    ← Laws.and_or_right]
  exact BitVec.and_allOnes

theorem encodeS_fields : encodeS (Field.immS w) (Field.rs2 w) (Field.rs1 w) (Field.funct3 w) (Field.opcode w) = w := by
  have h7 : (Field.immS w).extractLsb' 5 7 = w.extractLsb' 25 7 := by
    simp (disch := decide) only [Field.immS, extract_or, extract_put_same, extract_put_outside, BitVec.or_zero]
  have h5 : (Field.immS w).extractLsb' 0 5 = w.extractLsb' 7 5 := by
    simp (disch := decide) only [Field.immS, extract_or, extract_put_same, extract_put_outside, BitVec.zero_or]
  simp only [encodeS, h7, h5, Field.rs2, Field.rs1, Field.funct3, Field.opcode, ← and_put_ones,
    ← Laws.and_or_right]
  exact BitVec.and_allOnes

theorem encodeB_fields : encodeB (Field.offB w) (Field.rs2 w) (Field.rs1 w) (Field.funct3 w) (Field.opcode w) = w := by
  have h12 : (Field.offB w).extractLsb' 11 1 = w.extractLsb' 31 1 := by
    simp (disch := decide) only [Field.offB, extract_or, extract_put_same, extract_put_outside, BitVec.or_zero]
  have h11 : (Field.offB w).extractLsb' 10 1 = w.extractLsb' 7 1 := by
    simp (disch := decide) only [Field.offB, extract_or, extract_put_same, extract_put_outside, BitVec.or_zero, BitVec.zero_or]
  have h10 : (Field.offB w).extractLsb' 4 6 = w.extractLsb' 25 6 := by
    simp (disch := decide) only [Field.offB, extract_or, extract_put_same, extract_put_outside, BitVec.or_zero, BitVec.zero_or]
  have h4 : (Field.offB w).extractLsb' 0 4 = w.extractLsb' 8 4 := by
    simp (disch := decide) only [Field.offB, extract_or, extract_put_same, extract_put_outside, BitVec.zero_or]
  simp only [encodeB, h12, h11, h10, h4, Field.rs2, Field.rs1, Field.funct3, Field.opcode, ← and_put_ones,
    ← Laws.and_or_right]
  exact BitVec.and_allOnes

theorem encodeU_fields : encodeU (Field.immU w) (Field.rd w) (Field.opcode w) = w := by
  simp only [encodeU, Field.immU, Field.rd, Field.opcode, ← and_put_ones,
    ← Laws.and_or_right]
  exact BitVec.and_allOnes

theorem encodeJ_fields : encodeJ (Field.offJ w) (Field.rd w) (Field.opcode w) = w := by
  have h20 : (Field.offJ w).extractLsb' 19 1 = w.extractLsb' 31 1 := by
    simp (disch := decide) only [Field.offJ, extract_or, extract_put_same, extract_put_outside, BitVec.or_zero]
  have h19 : (Field.offJ w).extractLsb' 11 8 = w.extractLsb' 12 8 := by
    simp (disch := decide) only [Field.offJ, extract_or, extract_put_same, extract_put_outside, BitVec.or_zero, BitVec.zero_or]
  have h11 : (Field.offJ w).extractLsb' 10 1 = w.extractLsb' 20 1 := by
    simp (disch := decide) only [Field.offJ, extract_or, extract_put_same, extract_put_outside, BitVec.or_zero, BitVec.zero_or]
  have h10 : (Field.offJ w).extractLsb' 0 10 = w.extractLsb' 21 10 := by
    simp (disch := decide) only [Field.offJ, extract_or, extract_put_same, extract_put_outside, BitVec.zero_or]
  simp only [encodeJ, h20, h19, h11, h10, Field.rd, Field.opcode, ← and_put_ones,
    ← Laws.and_or_right]
  exact BitVec.and_allOnes

end Join

/-! A word that a row matches is put together from the row's own fields and its operands. -/

section Masked

variable {w p : Insn}

theorem encodeR_of_masked (hw : w &&& 0xfe00707f#32 = p) :
    encodeR (Field.funct7 p) (Field.rs2 w) (Field.rs1 w) (Field.funct3 p) (Field.rd w) (Field.opcode p) = w := by
  have h7 : Field.funct7 w = Field.funct7 p := extract_of_masked hw (by decide)
  have h3 : Field.funct3 w = Field.funct3 p := extract_of_masked hw (by decide)
  have ho : Field.opcode w = Field.opcode p := extract_of_masked hw (by decide)
  rw [← h7, ← h3, ← ho, encodeR_fields]

theorem encodeShamt6_of_masked (hw : w &&& 0xfc00707f#32 = p) :
    encodeShamt6 (Field.funct6 p) (Field.shamt6 w) (Field.rs1 w) (Field.funct3 p) (Field.rd w) (Field.opcode p) = w := by
  have h6 : Field.funct6 w = Field.funct6 p := extract_of_masked hw (by decide)
  have h3 : Field.funct3 w = Field.funct3 p := extract_of_masked hw (by decide)
  have ho : Field.opcode w = Field.opcode p := extract_of_masked hw (by decide)
  rw [← h6, ← h3, ← ho, encodeShamt6_fields]

theorem encodeU_of_masked (hw : w &&& 0x0000007f#32 = p) : encodeU (Field.immU w) (Field.rd w) (Field.opcode p) = w := by
  have ho : Field.opcode w = Field.opcode p := extract_of_masked hw (by decide)
  rw [← ho, encodeU_fields]

theorem encodeJ_of_masked (hw : w &&& 0x0000007f#32 = p) : encodeJ (Field.offJ w) (Field.rd w) (Field.opcode p) = w := by
  have ho : Field.opcode w = Field.opcode p := extract_of_masked hw (by decide)
  rw [← ho, encodeJ_fields]

theorem encodeI_of_masked (hw : w &&& 0x0000707f#32 = p) :
    encodeI (Field.immI w) (Field.rs1 w) (Field.funct3 p) (Field.rd w) (Field.opcode p) = w := by
  have h3 : Field.funct3 w = Field.funct3 p := extract_of_masked hw (by decide)
  have ho : Field.opcode w = Field.opcode p := extract_of_masked hw (by decide)
  rw [← h3, ← ho, encodeI_fields]

theorem encodeS_of_masked (hw : w &&& 0x0000707f#32 = p) :
    encodeS (Field.immS w) (Field.rs2 w) (Field.rs1 w) (Field.funct3 p) (Field.opcode p) = w := by
  have h3 : Field.funct3 w = Field.funct3 p := extract_of_masked hw (by decide)
  have ho : Field.opcode w = Field.opcode p := extract_of_masked hw (by decide)
  rw [← h3, ← ho, encodeS_fields]

theorem encodeB_of_masked (hw : w &&& 0x0000707f#32 = p) :
    encodeB (Field.offB w) (Field.rs2 w) (Field.rs1 w) (Field.funct3 p) (Field.opcode p) = w := by
  have h3 : Field.funct3 w = Field.funct3 p := extract_of_masked hw (by decide)
  have ho : Field.opcode w = Field.opcode p := extract_of_masked hw (by decide)
  rw [← h3, ← ho, encodeB_fields]

theorem encodeI_of_masked_funct12 (hw : w &&& 0xfff0707f#32 = p) :
    encodeI (Field.immI p) (Field.rs1 w) (Field.funct3 p) (Field.rd w) (Field.opcode p) = w := by
  have hi : Field.immI w = Field.immI p := extract_of_masked hw (by decide)
  have h3 : Field.funct3 w = Field.funct3 p := extract_of_masked hw (by decide)
  have ho : Field.opcode w = Field.opcode p := extract_of_masked hw (by decide)
  rw [← hi, ← h3, ← ho, encodeI_fields]

theorem encodeI_of_masked_counter (hw : w &&& 0xfffff07f#32 = p) :
    encodeI (Field.immI p) (Field.rs1 p) (Field.funct3 p) (Field.rd w) (Field.opcode p) = w := by
  have hi : Field.immI w = Field.immI p := extract_of_masked hw (by decide)
  have hr : Field.rs1 w = Field.rs1 p := extract_of_masked hw (by decide)
  have h3 : Field.funct3 w = Field.funct3 p := extract_of_masked hw (by decide)
  have ho : Field.opcode w = Field.opcode p := extract_of_masked hw (by decide)
  rw [← hi, ← hr, ← h3, ← ho, encodeI_fields]

theorem eq_of_masked_whole (hw : w &&& 0xffffffff#32 = p) : p = w := hw.symm.trans BitVec.and_allOnes

end Masked

/-- The operands that a matching row reads make the word again: its mask keeps every bit that they do not. -/
theorem encode_operands {e : Entry} {w : Insn} (he : e ∈ dispatchTable) (hw : w &&& e.mask = e.pattern) :
    encode (operands w e.op) = w := by
  simp only [dispatchTable, List.mem_append] at he
  obtain (((((((((he | he) | he) | he) | he) | he) | he) | he) | he) | he) | he := he
  · fin_cases he
    · exact (encodeU_of_masked hw :)
    · exact (encodeU_of_masked hw :)
    · exact (encodeJ_of_masked hw :)
    · exact (encodeI_of_masked hw :)
  · fin_cases he <;> exact (encodeB_of_masked hw :)
  · fin_cases he <;> exact (encodeI_of_masked hw :)
  · fin_cases he <;> exact (encodeS_of_masked hw :)
  · fin_cases he
    iterate 6 exact (encodeI_of_masked hw :)
    all_goals exact (encodeShamt6_of_masked hw :)
  · fin_cases he <;> exact (encodeR_of_masked hw :)
  · fin_cases he
    · exact (encodeI_of_masked hw :)
    all_goals exact (encodeR_of_masked hw :)
  · fin_cases he <;> exact (encodeR_of_masked hw :)
  · fin_cases he
    · exact (encodeI_of_masked hw :)
    · exact (encodeI_of_masked_funct12 hw :)
    all_goals exact (eq_of_masked_whole hw :)
  · fin_cases he <;> exact (encodeI_of_masked hw :)
  · fin_cases he <;> exact (encodeI_of_masked_counter hw :)

/-! ### The statements -/

/-- Settles O48: the well-formed terms are those read back from their word, and the four bytes of a word make the word. -/
theorem decodeOfEncode : Obligations.DecodeOfEncode := by
  intro i hi
  have hword : decode (encode i) = some i := (wellFormed_iff i).mp hi
  refine ⟨hword, fun rest => ?_⟩
  simp only [encodeBytes, bytesOfWord, List.cons_append, List.nil_append, decodeBytes, wordOfBytes_extract, hword]

/-- Settles O49: the operands of the matching row make the word again, so the instruction is read back from its own word. -/
theorem encodeOfDecode : Obligations.EncodeOfDecode := by
  intro w i h
  obtain ⟨e, he, hw, hi, -⟩ := decode_eq_some h
  have hword : encode i = w := hi ▸ encode_operands he (hits_iff.mp hw)
  exact ⟨(wellFormed_iff i).mpr (hword.symm ▸ h), hword⟩

end Sys2Proof.Proofs
end

section
/-! The extension primitives and the immediates bit by bit (spec/00_scope.md R8, spec/30_encoding.md R83 to R87). -/

namespace Sys2Proof.Proofs

open Sys2Proof.Machine Sys2Proof.Laws

/-- Sign extension bit by bit: the bits below the width, and above them copies of the highest. -/
theorem getLsbD_signExtend_min {n k : Nat} (x : BitVec (n + 1)) (hk : k < 64) : (x.signExtend 64).getLsbD k = x.getLsbD (min k n) := by
  rw [BitVec.getLsbD_signExtend, decide_eq_true hk, Bool.true_and, BitVec.msb_eq_getLsbD_last, Nat.add_sub_cancel]
  split
  · rw [min_eq_left (by omega)]
  · rw [min_eq_right (by omega)]

theorem getLsbD_append_zero {n k : Nat} (x : BitVec n) : (x ++ 0#1).getLsbD k = if k = 0 then false else x.getLsbD (k - 1) := by
  rw [BitVec.getLsbD_append]
  by_cases hk : k = 0
  · simp [hk]
  · rw [if_neg hk, if_neg (by omega)]

theorem getLsbD_immI (imm : BitVec 12) {k : Nat} (hk : k < 64) : (immI imm).getLsbD k = imm.getLsbD (min k 11) := by
  rw [immI_eq, getLsbD_signExtend_min imm hk]

/-! ### The raw immediates, group by group -/

theorem getLsbD_fieldImmS (w : Insn) {j : Nat} (hj : j < 12) :
    (Field.immS w).getLsbD j = if j < 5 then w.getLsbD (7 + j) else w.getLsbD (20 + j) := by
  simp only [Field.immS, BitVec.getLsbD_or, getLsbD_put, BitVec.getLsbD_extractLsb']
  interval_cases j <;> simp

theorem getLsbD_offB (w : Insn) {j : Nat} (hj : j < 12) :
    (Field.offB w).getLsbD j =
      if j < 4 then w.getLsbD (8 + j) else if j < 10 then w.getLsbD (21 + j) else if j = 10 then w.getLsbD 7 else w.getLsbD 31 := by
  simp only [Field.offB, BitVec.getLsbD_or, getLsbD_put, BitVec.getLsbD_extractLsb']
  interval_cases j <;> simp

theorem getLsbD_offJ (w : Insn) {j : Nat} (hj : j < 20) :
    (Field.offJ w).getLsbD j =
      if j < 10 then w.getLsbD (21 + j) else if j = 10 then w.getLsbD 20 else if j < 19 then w.getLsbD (1 + j) else w.getLsbD 31 := by
  simp only [Field.offJ, BitVec.getLsbD_or, getLsbD_put, BitVec.getLsbD_extractLsb']
  interval_cases j <;> simp

/-! ### The statements -/

/-- Settles O56: both are the library's extension of the low `n` bits. -/
theorem extensionPrimitives : Obligations.ExtensionPrimitives := by
  intro n v hn h64
  constructor
  · rw [sext_eq n v hn h64, BitVec.toInt_signExtend_of_le h64, BitVec.toInt_setWidth]
  · rw [zext_eq, BitVec.toNat_setWidth_of_le h64, BitVec.toNat_setWidth]

/-- Settles O55: each immediate is the sign extension of its raw bits, a zero appended in the B and J forms and a shift in the U form. -/
theorem immediatesBitByBit : Obligations.ImmediatesBitByBit := by
  intro w k hk
  refine ⟨?immI, ?immS, ?immB, ?immU, ?immJ⟩
  case immI =>
    rw [getLsbD_immI _ hk, Field.immI, BitVec.getLsbD_extractLsb', decide_eq_true (by omega), Bool.true_and]
    grind
  case immS =>
    rw [immS_eq, getLsbD_signExtend_min _ hk, getLsbD_fieldImmS w (by omega)]
    grind
  case immB =>
    rw [immB_eq, getLsbD_signExtend_min _ hk, getLsbD_append_zero, getLsbD_offB w (by omega)]
    grind
  case immU =>
    rw [immU_eq, BitVec.getLsbD_shiftLeft, getLsbD_signExtend_min _ (by omega), Field.immU, BitVec.getLsbD_extractLsb']
    grind
  case immJ =>
    rw [immJ_eq, getLsbD_signExtend_min _ hk, getLsbD_append_zero, getLsbD_offJ w (by omega)]
    grind

end Sys2Proof.Proofs
end

section
/-! The logic instructions bit by bit, the logical and 32-bit immediate shifts, and the law of the W forms (spec/41_integer_alu.md R144 to
R169, spec/42_muldiv.md R189 to R193). -/

namespace Sys2Proof.Proofs

open Sys2Proof.Machine Sys2Proof.Laws

/-- An instruction that retires a value has every property that the value has. -/
theorem writesOnly_of_retire_with {i : Instr} {s : State} {rd : RegIdx} {v : Word} {P : Word → Prop} (hx : exec i s = retire rd v s)
    (hv : P v) : ∃ t u, exec i s = .next t ∧ WritesOnly s t rd u (s.pc + 4#64) ∧ P u := by
  obtain ⟨t, ht, hw⟩ := writesOnly_of_retire hx rfl
  exact ⟨t, v, ht, hw, hv⟩

theorem shiftLeft64_eq (a : Word) (n : Nat) : shiftLeft64 a n = BitVec.ofNat 64 (a.toNat * 2 ^ n) := by
  apply BitVec.eq_of_toNat_eq
  rw [shiftLeft64, BitVec.toNat_shiftLeft, Nat.shiftLeft_eq, BitVec.toNat_ofNat]

theorem shiftRight64_eq (a : Word) (n : Nat) : shiftRight64 a n = BitVec.ofNat 64 (a.toNat / 2 ^ n) := by
  rw [shiftRight64, ← Nat.shiftRight_eq_div_pow, ← BitVec.toNat_ushiftRight, BitVec.ofNat_toNat, BitVec.setWidth_eq]

theorem encodedShamt5_of_row {funct3 : BitVec 3} {funct7 : BitVec 7} {make : RegIdx → RegIdx → BitVec 5 → Instr} (op : Op)
    (hop : op ∉ [Op.fence, Op.csrrs])
    (he : ⟨0xfe00707f#32, put 25 funct7 ||| put 12 funct3 ||| put 0 0b0011011#7, op⟩ ∈ dispatchTable)
    (ho : ∀ w, operands w op = make (Field.rd w) (Field.rs1 w) (Field.shamt5 w)) : EncodedShamt5 funct3 funct7 make :=
  encodedShamt5_of_entry he (unrivalled_of_mem he hop) rfl ho

/-- Settles O3: the value is the bitwise operation itself, and bit `k` of the immediate is that of its sign extension. -/
theorem bitwiseLogic : Obligations.BitwiseLogic := by
  refine ⟨encodedI_of_row .xori (by decide) (by decide) fun _ => rfl, encodedI_of_row .ori (by decide) (by decide) fun _ => rfl,
    encodedI_of_row .andi (by decide) (by decide) fun _ => rfl, encodedR_of_row .xor (by decide) (by decide) fun _ => rfl,
    encodedR_of_row .or (by decide) (by decide) fun _ => rfl, encodedR_of_row .and (by decide) (by decide) fun _ => rfl,
    fun s rd rs1 rs2 imm => ⟨?xori, ?ori, ?andi, ?xor, ?or, ?and⟩⟩
  case xori => exact writesOnly_of_retire_with rfl fun k hk => by rw [BitVec.getLsbD_xor, getLsbD_immI imm hk]
  case ori => exact writesOnly_of_retire_with rfl fun k hk => by rw [BitVec.getLsbD_or, getLsbD_immI imm hk]
  case andi => exact writesOnly_of_retire_with rfl fun k hk => by rw [BitVec.getLsbD_and, getLsbD_immI imm hk]
  case xor => exact writesOnly_of_retire_with rfl fun k _ => BitVec.getLsbD_xor
  case or => exact writesOnly_of_retire_with rfl fun k _ => BitVec.getLsbD_or
  case and => exact writesOnly_of_retire_with rfl fun k _ => BitVec.getLsbD_and

/-- Settles O4: a shift is a product or a floor quotient by a power of two, a register form's amount being the low six bits of `x[rs2]`. -/
theorem logicalShifts : Obligations.LogicalShifts := by
  refine ⟨encodedShamt6_of_row .slli (by decide) (by decide) fun _ => rfl,
    encodedShamt6_of_row .srli (by decide) (by decide) fun _ => rfl, encodedR_of_row .sll (by decide) (by decide) fun _ => rfl,
    encodedR_of_row .srl (by decide) (by decide) fun _ => rfl, fun s rd rs1 rs2 shamt => ⟨?slli, ?srli, ?sll, ?srl⟩⟩
  case slli => exact writesOnly_of_retire rfl (shiftLeft64_eq _ _)
  case srli => exact writesOnly_of_retire rfl (shiftRight64_eq _ _)
  case sll => exact writesOnly_of_retire rfl (by simp only [shiftLeft64_eq, amount6_eq])
  case srl => exact writesOnly_of_retire rfl (by simp only [shiftRight64_eq, amount6_eq])

/-- Settles O8: the sum and the shifts of the register W forms, with the immediate in place of `x[rs2]`. -/
theorem wordImmediateForms : Obligations.WordImmediateForms := by
  refine ⟨encodedI_of_row .addiw (by decide) (by decide) fun _ => rfl, encodedShamt5_of_row .slliw (by decide) (by decide) fun _ => rfl,
    encodedShamt5_of_row .srliw (by decide) (by decide) fun _ => rfl, encodedShamt5_of_row .sraiw (by decide) (by decide) fun _ => rfl,
    fun s rd rs1 imm shamt => ⟨?addiw, ?slliw, ?srliw, ?sraiw⟩⟩
  case addiw => exact writesOnly_of_retire rfl (by rw [addW_eq, toInt_immI])
  case slliw => exact writesOnly_of_retire rfl (shiftLeftW_eq _ _)
  case srliw => exact writesOnly_of_retire rfl (shiftRightW_eq _ _)
  case sraiw => exact writesOnly_of_retire rfl (shiftRightArithW_eq _ _)

/-! ### The W forms read the low halves of the registers alone (R169) -/

theorem ofInt_sub {w : Nat} (i j : Int) : BitVec.ofInt w (i - j) = BitVec.ofInt w i - BitVec.ofInt w j := by
  rw [Int.sub_eq_add_neg, BitVec.ofInt_add, BitVec.ofInt_neg, ← BitVec.sub_eq_add_neg]

theorem addW_eq_ofLow32 (a b : Word) : addW a b = ofLow32 (low32 a + low32 b) := by
  simp only [addW, low32_eq, BitVec.setWidth_add _ _ (show 32 ≤ 64 by decide)]

theorem subW_eq_ofLow32 (a b : Word) : subW a b = ofLow32 (low32 a - low32 b) := by
  rw [subW, sub_eq_ofInt, low32_ofInt, ofInt_sub, ← low32_eq_ofInt, ← low32_eq_ofInt]

theorem amount5_eq_low32 (v : Word) : amount5 v = (low32 v).toNat % 32 := by
  rw [amount5_eq, low32_eq, BitVec.toNat_setWidth]
  omega

/-- What a W form retires, as a function of the low halves of the registers. -/
theorem wForm_exec {i : Instr} {rd : RegIdx} (hi : wFormDest i = some rd) :
    ∃ g : (RegIdx → BitVec 32) → BitVec 32, ∀ s, exec i s = retire rd (ofLow32 (g fun r => low32 (s.readReg r))) s := by
  cases i <;> cases hi
  case addiw rs1 imm => exact ⟨fun x => x rs1 + low32 (immI imm), fun s => congrArg (retire rd · s) (addW_eq_ofLow32 _ _)⟩
  case slliw rs1 n => exact ⟨fun x => x rs1 <<< n.toNat, fun _ => rfl⟩
  case srliw rs1 n => exact ⟨fun x => x rs1 >>> n.toNat, fun _ => rfl⟩
  case sraiw rs1 n => exact ⟨fun x => (x rs1).sshiftRight n.toNat, fun _ => rfl⟩
  case addw rs1 rs2 => exact ⟨fun x => x rs1 + x rs2, fun s => congrArg (retire rd · s) (addW_eq_ofLow32 _ _)⟩
  case subw rs1 rs2 => exact ⟨fun x => x rs1 - x rs2, fun s => congrArg (retire rd · s) (subW_eq_ofLow32 _ _)⟩
  case sllw rs1 rs2 => exact ⟨fun x => x rs1 <<< ((x rs2).toNat % 32), fun s => by simp only [← amount5_eq_low32]; rfl⟩
  case srlw rs1 rs2 => exact ⟨fun x => x rs1 >>> ((x rs2).toNat % 32), fun s => by simp only [← amount5_eq_low32]; rfl⟩
  case sraw rs1 rs2 => exact ⟨fun x => (x rs1).sshiftRight ((x rs2).toNat % 32), fun s => by simp only [← amount5_eq_low32]; rfl⟩
  case mulw rs1 rs2 => exact ⟨fun x => x rs1 * x rs2, fun _ => rfl⟩
  case divw rs1 rs2 => exact ⟨fun x => quotS (x rs1) (x rs2), fun _ => rfl⟩
  case divuw rs1 rs2 => exact ⟨fun x => quotU (x rs1) (x rs2), fun _ => rfl⟩
  case remw rs1 rs2 => exact ⟨fun x => remS (x rs1) (x rs2), fun _ => rfl⟩
  case remuw rs1 rs2 => exact ⟨fun x => remU (x rs1) (x rs2), fun _ => rfl⟩

/-- What is read back after a value is retired. -/
theorem retire_readReg (rd : RegIdx) (v : Word) (s : State) :
    ∃ t, retire rd v s = .next t ∧ t.readReg rd = if rd = 0#5 then 0#64 else v :=
  ⟨_, rfl, by simp⟩

theorem getLsbD_ofLow32_high (r : BitVec 32) {k : Nat} (hk : 31 ≤ k) (h64 : k < 64) : (ofLow32 r).getLsbD k = (ofLow32 r).getLsbD 31 := by
  rw [ofLow32_eq, getLsbD_signExtend_min r h64, getLsbD_signExtend_min r (by decide), min_eq_right hk]
  rfl

/-- Settles O9: what a W form retires is a 32-bit result, sign-extended, of the low halves. -/
theorem wordFormsIgnoreUpperHalves : Obligations.WordFormsIgnoreUpperHalves := by
  intro i rd s u hi hlow
  obtain ⟨g, hg⟩ := wForm_exec hi
  have hsame : (fun r => low32 (s.readReg r)) = fun r => low32 (u.readReg r) := by
    funext r
    rw [low32_eq, low32_eq, hlow r]
  obtain ⟨t, ht, htrd⟩ := retire_readReg rd (ofLow32 (g fun r => low32 (s.readReg r))) s
  obtain ⟨v, hv, hvrd⟩ := retire_readReg rd (ofLow32 (g fun r => low32 (u.readReg r))) u
  refine ⟨t, v, (hg s).trans ht, (hg u).trans hv, by rw [htrd, hvrd, hsame], fun k hk h64 => ?_⟩
  rw [htrd]
  split
  · simp
  · exact getLsbD_ofLow32_high _ hk h64

end Sys2Proof.Proofs
end

section
/-! Quotients and remainders at every width, and how the three high products differ (spec/42_muldiv.md R185 to R195). -/

namespace Sys2Proof.Proofs

open Sys2Proof.Machine Sys2Proof.Laws

section Division

variable {n : Nat} {a b : BitVec n}

/-! ### Unsigned (R186, R188) -/

theorem quotU_eq (hb : b ≠ 0#n) : quotU a b = a / b := by
  rw [quotU, if_neg hb]
  apply BitVec.eq_of_toNat_eq
  rw [BitVec.toNat_udiv, BitVec.toNat_ofNat, Nat.mod_eq_of_lt (lt_of_le_of_lt (Nat.div_le_self _ _) a.isLt)]

theorem remU_eq (hb : b ≠ 0#n) : remU a b = a % b := by
  rw [remU, if_neg hb]
  apply BitVec.eq_of_toNat_eq
  rw [BitVec.toNat_umod, BitVec.toNat_ofNat, Nat.mod_eq_of_lt (lt_of_le_of_lt (Nat.mod_le _ _) a.isLt)]

theorem isUnsignedDivision (a b : BitVec n) : IsUnsignedDivision a b (quotU a b) (remU a b) := by
  refine ⟨fun hb => ⟨if_pos hb, if_pos hb⟩, fun hb => ?_⟩
  have hpos : 0 < b.toNat := Nat.pos_of_ne_zero fun h => hb (BitVec.eq_of_toNat_eq (by simpa using h))
  have hexact : a.toNat = b.toNat * (a / b).toNat + (a % b).toNat := by
    rw [BitVec.toNat_udiv, BitVec.toNat_umod, Nat.div_add_mod]
  rw [quotU_eq hb, remU_eq hb]
  refine ⟨hexact, ?_, ?_⟩
  · rw [BitVec.toNat_umod]
    exact Nat.mod_lt _ hpos
  · apply BitVec.eq_of_toNat_eq
    rw [BitVec.toNat_add, BitVec.toNat_mul, Nat.mod_add_mod, ← hexact, Nat.mod_eq_of_lt a.isLt]

/-! ### Signed (R185, R187) -/

/-- The overflowing quotient: the least number divided by -1. -/
abbrev Overflows (a b : BitVec n) : Prop := a = BitVec.intMin n ∧ b = BitVec.allOnes n

/-- Outside the two corners the quotient fits, so the division is that of the integers. -/
theorem toInt_quotS (hb : b ≠ 0#n) (ho : ¬ Overflows a b) : (quotS a b).toInt = a.toInt.tdiv b.toInt := by
  have hne : a ≠ BitVec.intMin n ∨ b ≠ -1#n := by rwa [BitVec.neg_one_eq_allOnes, ← not_and_or]
  rw [quotS, if_neg hb, if_neg ho, ← BitVec.toInt_sdiv_of_ne_or_ne a b hne, BitVec.ofInt_toInt]

theorem toInt_remS (hb : b ≠ 0#n) (ho : ¬ Overflows a b) : (remS a b).toInt = a.toInt.tmod b.toInt := by
  rw [remS, if_neg hb, if_neg ho, ← BitVec.toInt_srem, BitVec.ofInt_toInt]

theorem toInt_eq_quotS_remS (hb : b ≠ 0#n) (ho : ¬ Overflows a b) :
    a.toInt = b.toInt * (quotS a b).toInt + (remS a b).toInt := by
  rw [toInt_quotS hb ho, toInt_remS hb ho, Int.mul_tdiv_add_tmod]

theorem overflow_eq (hn : 0 < n) (ho : Overflows a b) : quotS a b = a ∧ remS a b = 0#n := by
  have hb : b ≠ 0#n := fun hb => Nat.ne_of_gt hn (BitVec.allOnes_eq_zero_iff.mp (ho.2.symm.trans hb))
  exact ⟨by rw [quotS, if_neg hb, if_pos ho], by rw [remS, if_neg hb, if_pos ho]⟩

theorem isSignedDivision (hn : 0 < n) (a b : BitVec n) : IsSignedDivision a b (quotS a b) (remS a b) := by
  refine ⟨fun hb => ⟨if_pos hb, if_pos hb⟩, fun ha hb => overflow_eq hn ⟨ha, hb⟩,
    fun hb ho => ⟨toInt_eq_quotS_remS hb ho, ?small, ?nonneg, ?nonpos⟩, fun hb => ?word⟩
  case small =>
    have hpos : 0 < b.toInt.natAbs := Int.natAbs_pos.mpr fun h => hb (BitVec.toInt_inj.mp (h.trans BitVec.toInt_zero.symm))
    rw [toInt_remS hb ho, Int.natAbs_tmod]
    exact Nat.mod_lt _ hpos
  case nonneg =>
    rw [toInt_remS hb ho]
    exact fun h => Int.tmod_nonneg _ h
  case nonpos =>
    rw [toInt_remS hb ho]
    exact fun h => by simpa using Int.tmod_nonneg b.toInt (Int.neg_nonneg_of_nonpos h)
  case word =>
    by_cases ho : Overflows a b
    · obtain ⟨hq, hr⟩ := overflow_eq hn ho
      rw [hq, hr, ho.1, ho.2, ← BitVec.neg_one_eq_allOnes, BitVec.neg_mul, BitVec.one_mul, BitVec.neg_intMin, BitVec.add_zero]
    · calc
        a = BitVec.ofInt n a.toInt := BitVec.ofInt_toInt.symm
        _ = BitVec.ofInt n (b.toInt * (quotS a b).toInt + (remS a b).toInt) := by rw [← toInt_eq_quotS_remS hb ho]
        _ = b * quotS a b + remS a b := by rw [BitVec.ofInt_add, BitVec.ofInt_toInt, ← mul_eq_ofInt_signed]

end Division

/-! ### The statements about division -/

/-- Settles O13: the quotient and the remainder at width 64. -/
theorem signedDivision : Obligations.SignedDivision :=
  ⟨encodedR_of_row .div (by decide) (by decide) fun _ => rfl, encodedR_of_row .rem (by decide) (by decide) fun _ => rfl,
    fun _ _ _ _ => ⟨_, _, writesOnly_of_retire rfl rfl, writesOnly_of_retire rfl rfl, isSignedDivision (by decide) _ _⟩⟩

/-- Settles O14: the quotient and the remainder at width 64. -/
theorem unsignedDivision : Obligations.UnsignedDivision :=
  ⟨encodedR_of_row .divu (by decide) (by decide) fun _ => rfl, encodedR_of_row .remu (by decide) (by decide) fun _ => rfl,
    fun _ _ _ _ => ⟨_, _, writesOnly_of_retire rfl rfl, writesOnly_of_retire rfl rfl, isUnsignedDivision _ _⟩⟩

theorem onLow32_eq (f : BitVec 32 → BitVec 32 → BitVec 32) (a b : Word) :
    onLow32 f a b = (f (a.setWidth 32) (b.setWidth 32)).signExtend 64 := by
  rw [onLow32, ofLow32_eq, low32_eq, low32_eq]

/-- Settles O15: the same quotients and remainders at width 32, of the low halves. -/
theorem wordDivision : Obligations.WordDivision :=
  ⟨encodedR_of_row .divw (by decide) (by decide) fun _ => rfl, encodedR_of_row .remw (by decide) (by decide) fun _ => rfl,
    encodedR_of_row .divuw (by decide) (by decide) fun _ => rfl, encodedR_of_row .remuw (by decide) (by decide) fun _ => rfl,
    fun _ _ _ _ => ⟨_, _, _, _, writesOnly_of_retire rfl (onLow32_eq _ _ _), writesOnly_of_retire rfl (onLow32_eq _ _ _),
      writesOnly_of_retire rfl (onLow32_eq _ _ _), writesOnly_of_retire rfl (onLow32_eq _ _ _), isSignedDivision (by decide) _ _,
      isUnsignedDivision _ _⟩⟩

/-! ### The correction of the high products (R195) -/

theorem toInt_eq_toNat_sub (a : Word) : a.toInt = a.toNat - (if a.msb then 2 ^ 64 else 0) := by
  rw [BitVec.toInt_eq_msb_cond]
  split <;> simp

theorem ofInt_toNat (a : Word) : BitVec.ofInt 64 a.toNat = a := by
  rw [BitVec.ofInt_natCast, BitVec.ofNat_toNat, BitVec.setWidth_eq]

/-- Reading a negative `a` as signed takes `b` off the high half. -/
theorem mulHighSU_eq (a b : Word) : mulHighSU a b = mulHighU a b - (if a.msb then b else 0#64) := by
  have hsu := mulHighSU_halves a b
  have hu : ((mulHighU a b).toNat : Int) * 2 ^ 64 + (a * b).toNat = a.toNat * b.toNat := by exact_mod_cast mulHighU_halves a b
  rw [toInt_eq_toNat_sub a] at hsu
  have hhigh : (mulHighSU a b).toInt = (mulHighU a b).toNat - ((if a.msb then b else 0#64).toNat : Int) := by
    cases hmsb : a.msb <;> simp only [hmsb, if_true, Bool.false_eq_true, if_false, BitVec.toNat_zero, Nat.cast_zero] at hsu ⊢ <;> linarith
  rw [← BitVec.ofInt_toInt (x := mulHighSU a b), hhigh, ofInt_sub, ofInt_toNat, ofInt_toNat]

/-- Reading a negative `b` as signed takes `a` off it. -/
theorem mulHigh_eq (a b : Word) : mulHigh a b = mulHighSU a b - (if b.msb then a else 0#64) := by
  have hs := mulHigh_halves a b
  have hsu := mulHighSU_halves a b
  rw [toInt_eq_toNat_sub b] at hs
  have hhigh : (mulHigh a b).toInt = (mulHighSU a b).toInt - (if b.msb then a else 0#64).toInt := by
    cases hmsb : b.msb <;> simp only [hmsb, if_true, Bool.false_eq_true, if_false, BitVec.toInt_zero] at hs ⊢ <;> linarith
  rw [sub_eq_ofInt, ← hhigh, BitVec.ofInt_toInt]

/-- Settles O11: each signed reading of a negative operand takes the other operand off the high half. -/
theorem highMultiplyCorrection : Obligations.HighMultiplyCorrection := by
  intro s rd rs1 rs2 hrd
  obtain ⟨h, hh, hval⟩ := retire_readReg rd (mulHigh (s.readReg rs1) (s.readReg rs2)) s
  obtain ⟨hsu, hhsu, hsuval⟩ := retire_readReg rd (mulHighSU (s.readReg rs1) (s.readReg rs2)) s
  obtain ⟨hu, hhu, huval⟩ := retire_readReg rd (mulHighU (s.readReg rs1) (s.readReg rs2)) s
  rw [if_neg hrd] at hval hsuval huval
  refine ⟨h, hsu, hu, hh, hhsu, hhu, ?_, ?_⟩
  · rw [hsuval, huval, mulHighSU_eq]
  · rw [hval, huval, mulHigh_eq, mulHighSU_eq]

end Sys2Proof.Proofs
end

section
/-! Memory and sparse stores: equal contents are equal lists, what a run of bytes reads as, accesses of mixed widths, and what writes and
the loader leave (spec/20_memory.md R50 to R54, R68, spec/45_csr.md R248). -/

namespace Sys2Proof.Proofs

open Sys2Proof.Machine Sys2Proof.Laws

/-! ### Canonical stores (R26, R50) -/

section Canonical

variable {n : Nat}

theorem canonicalFrom_cons {lo k : Nat} {v : BitVec n} {m : List (Nat × BitVec n)} :
    Sparse.canonicalFrom lo ((k, v) :: m) = true ↔ lo ≤ k ∧ v ≠ unlisted n ∧ Sparse.canonicalFrom (k + 1) m = true := by
  simp [Sparse.canonicalFrom, and_assoc]

/-- Below its first possible key a canonical store lists nothing. -/
theorem read_below {lo a : Nat} {m : List (Nat × BitVec n)} (h : Sparse.canonicalFrom lo m = true) (ha : a < lo) :
    Sparse.read m a = unlisted n := by
  induction m generalizing lo with
  | nil => rfl
  | cons c rest ih =>
    obtain ⟨hlo, -, hrest⟩ := canonicalFrom_cons.mp h
    rw [Sparse.read, if_neg (by omega)]
    exact ih hrest (by omega)

theorem read_head (k : Nat) (v : BitVec n) (m : List (Nat × BitVec n)) : Sparse.read ((k, v) :: m) k = v := if_pos rfl

/-- A key that reads as a listed one is not below a canonical store. -/
theorem le_of_read_ne {lo a : Nat} {m : List (Nat × BitVec n)} (hm : Sparse.canonicalFrom lo m = true)
    (hread : Sparse.read m a ≠ unlisted n) : lo ≤ a := by
  by_contra hlt
  exact hread (read_below hm (Nat.not_le.mp hlt))

theorem eq_of_reads {lo : Nat} {m m' : List (Nat × BitVec n)} (hm : Sparse.canonicalFrom lo m = true)
    (hm' : Sparse.canonicalFrom lo m' = true) (h : ∀ a, Sparse.read m a = Sparse.read m' a) : m = m' := by
  induction m generalizing lo m' with
  | nil =>
    cases m' with
    | nil => rfl
    | cons c' rest' =>
      obtain ⟨-, hv', -⟩ := canonicalFrom_cons.mp hm'
      exact absurd ((read_head c'.1 c'.2 rest').symm.trans (h c'.1).symm) hv'
  | cons c rest ih =>
    obtain ⟨k, v⟩ := c
    obtain ⟨-, hv, hrest⟩ := canonicalFrom_cons.mp hm
    cases m' with
    | nil => exact absurd ((read_head k v rest).symm.trans (h k)) hv
    | cons c' rest' =>
      obtain ⟨k', v'⟩ := c'
      obtain ⟨-, hv', hrest'⟩ := canonicalFrom_cons.mp hm'
      have hle : k' ≤ k := le_of_read_ne (canonicalFrom_cons.mpr ⟨le_rfl, hv', hrest'⟩) (by rwa [← h k, read_head])
      have hge : k ≤ k' := le_of_read_ne (canonicalFrom_cons.mpr ⟨le_rfl, hv, hrest⟩) (by rwa [h k', read_head])
      obtain rfl : k = k' := le_antisymm hge hle
      obtain rfl : v = v' := (read_head k v rest).symm.trans ((h k).trans (read_head k v' rest'))
      have htail : ∀ a, Sparse.read rest a = Sparse.read rest' a := by
        intro a
        by_cases ha : a = k
        · rw [read_below hrest (by omega), read_below hrest' (by omega)]
        · simpa [Sparse.read, Ne.symm ha] using h a
      rw [ih hrest hrest' htail]

/-- Settles O46: the first keys agree, for each reads as a listed one in the other store, and then the tails read alike. -/
theorem canonicalStoresWithEqualReadsAreEqual : Obligations.CanonicalStoresWithEqualReadsAreEqual :=
  fun _ _ _ hm hm' h => eq_of_reads hm hm' h

/-- Writing what a key reads as already changes nothing. -/
theorem write_read_self {m : List (Nat × BitVec n)} (a : Nat) (hm : Sparse.canonical m = true) :
    Sparse.write m a (Sparse.read m a) = m := by
  refine eq_of_reads (canonical_write a _ hm) hm fun b => ?_
  rw [read_write]
  split
  · next h => rw [h]
  · rfl

end Canonical

/-! ### Runs of bytes (R52, R53) -/

/-- Bytes that are those of `v` from bit `b` on load as the bits of `v` from `b` on. -/
theorem loadBytesLE_of_bytes {l : Nat} {m : List Host.Cell} {a n b : Nat} {v : BitVec l} (hn : n ≤ 8)
    (h : ∀ k < n, Sparse.read m (a + k) = v.extractLsb' (b + 8 * k) 8) :
    loadBytesLE m a n = (v.extractLsb' b (8 * n)).setWidth 64 := by
  apply BitVec.eq_of_getLsbD_eq
  intro j hj
  rw [getLsbD_loadBytesLE m a n j hn, BitVec.getLsbD_setWidth, BitVec.getLsbD_extractLsb', decide_eq_true hj, Bool.true_and]
  by_cases hin : j < 8 * n
  · have hplace : b + 8 * (j / 8) + j % 8 = b + j := by omega
    rw [h (j / 8) (by omega), BitVec.getLsbD_extractLsb', decide_eq_true (show j % 8 < 8 by omega), Bool.true_and, hplace]
  · rw [decide_eq_false hin, Bool.false_and, Bool.false_and]

/-- What a store of `n` bytes leaves for a load of `j` of them from its byte `k` on. -/
theorem loadBytesLE_storeBytesLE (m : List Host.Cell) (a : Nat) (v : Word) {n k j : Nat} (h : k + j ≤ n) (hj : j ≤ 8) :
    loadBytesLE (storeBytesLE m a v n) (a + k) j = (v.extractLsb' (8 * k) (8 * j)).setWidth 64 := by
  refine loadBytesLE_of_bytes hj fun i hi => ?_
  rw [read_storeBytesLE, if_pos (by omega), byteOf]
  congr 1
  omega

/-- Every access that lies inside eight bytes just written reads its part of the value; in an accepted machine no address wraps around. -/
theorem memRead_inside_memWrite {s t : State} {a v : Word} (hacc : accepted s.params = true) (hwrite : s.memWrite a .double v = some t)
    (w : Width) {k : Nat} (hk : k + w.bytes ≤ 8) :
    t.memRead (a + BitVec.ofNat 64 k) w = some ((v.extractLsb' (8 * k) (8 * w.bytes)).setWidth 64) := by
  rcases memWrite_cases s a .double v with ⟨hrange, hstate⟩ | ⟨-, hnone⟩
  case inr => cases hnone.symm.trans hwrite
  cases hstate.symm.trans hwrite
  obtain ⟨hbase, htop⟩ := (inRange_iff _ _ _).mp hrange
  obtain ⟨-, hfits⟩ : s.params.memSize ≠ 0 ∧ memTop s.params ≤ 2 ^ 64 := by simpa [accepted] using hacc
  simp only [Width.bytes] at htop
  have hbytes := width_bytes_pos w
  have haddr : (a + BitVec.ofNat 64 k).toNat = a.toNat + k := by
    rw [BitVec.toNat_add, BitVec.toNat_ofNat]
    omega
  have hin : inRange s.params (a + BitVec.ofNat 64 k) w.bytes = true := (inRange_iff _ _ _).mpr (by rw [haddr]; omega)
  rw [State.memRead, if_pos hin, haddr,
    loadBytesLE_storeBytesLE _ _ _ (by simpa [Width.bytes] using hk) (width_bytes_le w)]

/-- Settles O17: each of the reads lies inside the eight bytes. -/
theorem mixedWidthAccesses : Obligations.MixedWidthAccesses := by
  intro s t a v hacc hwrite
  refine ⟨fun k hk => ?byte, fun k hk => ?half, fun k hk => ?word, ?double⟩
  case byte => exact memRead_inside_memWrite hacc hwrite .byte (by simp only [Width.bytes]; omega)
  case half =>
    rw [show 16 * k = 8 * (2 * k) by omega]
    exact memRead_inside_memWrite hacc hwrite .half (by simp only [Width.bytes]; omega)
  case word =>
    rw [show 32 * k = 8 * (4 * k) by omega]
    exact memRead_inside_memWrite hacc hwrite .word (by simp only [Width.bytes]; omega)
  case double =>
    have h := memRead_inside_memWrite hacc hwrite .double (k := 0) (by decide)
    simpa [Width.bytes] using h

end Sys2Proof.Proofs
end

section
/-! The state after reset, and the invariant: it holds there and every step keeps it (spec/10_state.md R26, R33, spec/20_memory.md R50,
spec/70_reset_and_hazards.md R300 to R305). -/

namespace Sys2Proof.Proofs

open Sys2Proof.Machine Sys2Proof.Laws

/-! ### What a list of writes leaves (R5) -/

section Writes

variable {n : Nat}

theorem lastValue_concat (ws : List (Nat × BitVec n)) (c : Nat × BitVec n) (k : Nat) :
    lastValue (ws ++ [c]) k = if k = c.1 then c.2 else lastValue ws k := by
  rw [lastValue, List.reverse_concat, List.find?_cons]
  by_cases h : c.1 = k
  · rw [if_pos h.symm, beq_iff_eq.mpr h]
  · rw [if_neg (Ne.symm h), beq_eq_false_iff_ne.mpr h, lastValue]

theorem ofWrites_concat (ws : List (Nat × BitVec n)) (c : Nat × BitVec n) :
    Sparse.ofWrites (ws ++ [c]) = Sparse.write (Sparse.ofWrites ws) c.1 c.2 := by
  rw [Sparse.ofWrites, List.foldl_concat, Sparse.ofWrites]

theorem read_ofWrites (ws : List (Nat × BitVec n)) (k : Nat) : Sparse.read (Sparse.ofWrites ws) k = lastValue ws k := by
  induction ws using List.reverseRecOn with
  | nil => rfl
  | append_singleton ws c ih => rw [ofWrites_concat, read_write, lastValue_concat, ih]

/-- Dropping the writes to other keys changes nothing for a key that is kept. -/
theorem lastValue_filter (ws : List (Nat × BitVec n)) {keep : Nat → Bool} {k : Nat} (hk : keep k = true) :
    lastValue (ws.filter fun c => keep c.1) k = lastValue ws k := by
  induction ws using List.reverseRecOn with
  | nil => rfl
  | append_singleton ws c ih =>
    rw [List.filter_append, lastValue_concat]
    cases hc : keep c.1 with
    | true => rw [List.filter_singleton, hc, cond_true, lastValue_concat, ih]
    | false =>
      have hne : k ≠ c.1 := fun h => by simp [← h, hk] at hc
      rw [List.filter_singleton, hc, cond_false, List.append_nil, ih, if_neg hne]

/-- A list of writes whose other keys were dropped lists kept keys only. -/
theorem keep_of_mem_ofWrites {ws : List (Nat × BitVec n)} {keep : Nat → Bool} {c : Nat × BitVec n}
    (hc : c ∈ Sparse.ofWrites (ws.filter fun c => keep c.1)) : keep c.1 = true := by
  obtain ⟨d, hd, hkey⟩ := mem_ofWrites hc
  rw [hkey]
  exact (List.mem_filter.mp hd).2

end Writes

/-! ### Reset (R300) -/

/-- `SP_SEED` is a write of `x[2]` to registers that are all 0 (R302). -/
theorem readReg_resetOf (p : Params) (r : RegIdx) :
    (resetOf p).readReg r =
      match p.spSeed with
      | some v => if r = 2#5 then v else 0#64
      | none => 0#64 := by
  have hzero : ∀ r : RegIdx, State.readReg { resetOf p with x := Vector.replicate 31 0#64 } r = 0#64 := by
    intro r
    simp only [State.readReg, Vector.getElem?_replicate]
    split_ifs <;> rfl
  cases hseed : p.spSeed with
  | none =>
    rw [← hzero r]
    simp only [State.readReg, resetOf, hseed]
  | some v =>
    have hwrite : (resetOf p).readReg r = (State.writeReg { resetOf p with x := Vector.replicate 31 0#64 } 2#5 v).readReg r := by
      simp only [State.readReg, State.writeReg, resetOf, hseed]
      rfl
    rw [hwrite, readReg_writeReg, hzero]
    rfl

/-- Settles O43: the CSR file and memory read as their lists of writes say. -/
theorem resetValues : Obligations.ResetValues := by
  refine ⟨fun p => ⟨rfl, readReg_resetOf p, fun k => ?f, fun c => ?csr, fun a ha => ?byte, rfl, rfl, rfl⟩, fun _ => rfl⟩
  case f => simp [resetOf]
  case csr => exact (read_ofWrites _ _).trans (lastValue_filter p.csrInit (keep := fun k => decide (k < 4096)) (decide_eq_true c.isLt))
  case byte => exact (read_ofWrites _ _).trans (lastValue_filter p.memInit ha)

theorem wf_resetOf {p : Params} (h : accepted p = true) : (resetOf p).wf :=
  ⟨h, canonical_ofWrites _, fun _ hc => keep_of_mem_ofWrites hc, canonical_ofWrites _,
    fun _ hc => of_decide_eq_true (keep_of_mem_ofWrites (keep := fun k => decide (k < 4096)) hc)⟩

/-- Settles O44: what a list of writes leaves is canonical, and the writes to unmapped addresses and to numbers above 4095 were dropped. -/
theorem invariantAtReset : Obligations.InvariantAtReset :=
  ⟨fun _ h => ⟨if_pos h, wf_resetOf h⟩, rfl, wf_resetOf (p := Params.default) (by decide)⟩

/-! ### Every step keeps the invariant -/

theorem effect_params {s t : State} (h : Effect s t) : t.params = s.params := by
  cases h <;> simp

theorem effect_wf {s t : State} (h : Effect s t) (hs : s.wf) : t.wf := by
  obtain ⟨hparams, hmem, hmapped, hcsr, hnumbers⟩ := hs
  rw [State.wf, effect_params h]
  cases h with
  | goes rd v next =>
    rw [setPc_mem, writeReg_mem, setPc_csr, writeReg_csr]
    exact ⟨hparams, hmem, hmapped, hcsr, hnumbers⟩
  | csr c v rd old =>
    rw [advance_mem, writeReg_mem, writeCsr_mem, advance_csr, writeReg_csr, writeCsr_csr]
    exact ⟨hparams, hmem, hmapped, canonical_write _ v hcsr, fun d hd => (mem_write hd).elim (fun hkey => hkey ▸ c.isLt) (hnumbers d)⟩
  | stores addr w v hrange =>
    have hstored : ∀ a, addr.toNat ≤ a ∧ a < addr.toNat + w.bytes → mapped s.params a = true := fun a ha => by
      have hbounds := (inRange_iff _ _ _).mp hrange
      exact (mapped_iff _ _).mpr (by omega)
    exact ⟨hparams, canonical_storeBytesLE _ v _ hmem, fun d hd => (mem_storeBytesLE hd).elim (hstored d.1) (hmapped d), hcsr, hnumbers⟩
  | raises e => exact ⟨hparams, hmem, hmapped, hcsr, hnumbers⟩

/-- Settles O45: a step is exhaustion, which changes the status alone, or one of the effects of an execute stage. -/
theorem everyStepKeepsTheInvariant : Obligations.EveryStepKeepsTheInvariant := by
  intro s t hs h
  rcases step_effect h with rfl | heffect
  · exact ⟨hs, rfl⟩
  · exact ⟨effect_wf heffect hs, effect_params heffect⟩

end Sys2Proof.Proofs
end

section
/-! What a part of the state that an instruction neither reads nor writes means for it: the floating registers for every step, the CSR file
for every instruction but the six (spec/10_state.md R25, R26, spec/45_csr.md R248). -/

namespace Sys2Proof.Proofs

open Sys2Proof.Machine Sys2Proof.Laws

/-! ### Changes that the shared operations do not see -/

/-- The outcome with its next state, if there is one, changed. -/
def mapNext (φ : State → State) : Host.Outcome State Fault Refusal → Host.Outcome State Fault Refusal
  | .next t => .next (φ t)
  | .fault r => .fault r
  | .refused r => .refused r

/-- A change of the state that the reads of pc, registers, privilege level, memory, status and parameters do not see and that their
updates commute with. -/
structure Hidden (φ : State → State) : Prop where
  pc : ∀ s, (φ s).pc = s.pc
  priv : ∀ s, (φ s).priv = s.priv
  mem : ∀ s, (φ s).mem = s.mem
  status : ∀ s, (φ s).status = s.status
  params : ∀ s, (φ s).params = s.params
  readReg : ∀ s r, (φ s).readReg r = s.readReg r
  writeReg : ∀ s r v, (φ s).writeReg r v = φ (s.writeReg r v)
  setPc : ∀ s t, (φ s).setPc t = φ (s.setPc t)
  setStatus : ∀ s st, (φ s).setStatus st = φ (s.setStatus st)
  setMem : ∀ s m, { φ s with mem := m } = φ { s with mem := m }

/-- The CSR accesses do not see it either. -/
structure HiddenFromCsrs (φ : State → State) : Prop where
  readCsr : ∀ s c, (φ s).readCsr c = s.readCsr c
  writeCsr : ∀ s c v, (φ s).writeCsr c v = φ (s.writeCsr c v)

section Hidden

variable {φ : State → State} (h : Hidden φ) (s : State)
include h

theorem retire_hidden (rd : RegIdx) (v : Word) : retire rd v (φ s) = mapNext φ (retire rd v s) := by
  simp only [retire, mapNext, State.advance, h.writeReg, h.setPc, h.pc]

theorem aluImm_hidden (f : Word → Word → Word) (rd rs1 : RegIdx) (imm : BitVec 12) :
    aluImm f rd rs1 imm (φ s) = mapNext φ (aluImm f rd rs1 imm s) := by
  rw [aluImm, h.readReg]
  exact retire_hidden h s _ _

theorem aluShift_hidden (f : Word → Nat → Word) (rd rs1 : RegIdx) (n : Nat) :
    aluShift f rd rs1 n (φ s) = mapNext φ (aluShift f rd rs1 n s) := by
  rw [aluShift, h.readReg]
  exact retire_hidden h s _ _

theorem aluReg_hidden (f : Word → Word → Word) (rd rs1 rs2 : RegIdx) :
    aluReg f rd rs1 rs2 (φ s) = mapNext φ (aluReg f rd rs1 rs2 s) := by
  rw [aluReg, h.readReg, h.readReg]
  exact retire_hidden h s _ _

theorem branchIf_hidden (taken : Bool) (off : BitVec 12) : branchIf taken off (φ s) = mapNext φ (branchIf taken off s) := by
  simp only [branchIf, mapNext, h.setPc, h.pc]

theorem linkAndJump_hidden (rd : RegIdx) (target : Word) : linkAndJump rd target (φ s) = mapNext φ (linkAndJump rd target s) := by
  simp only [linkAndJump, mapNext, h.writeReg, h.setPc, h.pc]

theorem noEffect_hidden : noEffect (φ s) = mapNext φ (noEffect s) := by
  simp only [noEffect, mapNext, State.advance, h.setPc, h.pc]

theorem raise_hidden (e : Exc) : (φ s).raise e = φ (s.raise e) := h.setStatus s _

theorem memRead_hidden (addr : Word) (w : Width) : (φ s).memRead addr w = s.memRead addr w := by
  simp only [State.memRead, h.params, h.mem]

theorem memWrite_hidden (addr : Word) (w : Width) (v : Word) : (φ s).memWrite addr w v = (s.memWrite addr w v).map φ := by
  unfold State.memWrite
  rw [h.setMem, h.params, h.mem, apply_ite (Option.map φ)]
  rfl

theorem loadFrom_hidden (w : Width) (ext : Word → Word) (rd rs1 : RegIdx) (imm : BitVec 12) :
    loadFrom w ext rd rs1 imm (φ s) = mapNext φ (loadFrom w ext rd rs1 imm s) := by
  unfold loadFrom
  rw [h.readReg, memRead_hidden h, h.pc, raise_hidden h]
  cases s.memRead (effective (s.readReg rs1) (immI imm)) w with
  | some v => exact retire_hidden h s rd _
  | none => rfl

theorem storeTo_hidden (w : Width) (rs2 rs1 : RegIdx) (imm : BitVec 12) :
    storeTo w rs2 rs1 imm (φ s) = mapNext φ (storeTo w rs2 rs1 imm s) := by
  unfold storeTo
  rw [h.readReg, h.readReg, memWrite_hidden h, h.pc, raise_hidden h]
  cases s.memWrite (effective (s.readReg rs1) (immS imm)) w (s.readReg rs2) with
  | some t => simp only [Option.map, mapNext, State.advance, h.setPc, h.pc]
  | none => rfl

theorem execEcall_hidden : execEcall (φ s) = mapNext φ (execEcall s) := by
  simp only [execEcall, callArguments, mapNext, h.readReg, h.priv, h.pc, raise_hidden h]

theorem csrUpdate_hidden (hcsr : HiddenFromCsrs φ) (rd : RegIdx) (c : CsrIdx) (new : Word → Option Word) :
    csrUpdate rd c new (φ s) = mapNext φ (csrUpdate rd c new s) := by
  unfold csrUpdate
  rw [hcsr.readCsr]
  cases new (s.readCsr c) with
  | some v =>
    simp only [hcsr.writeCsr]
    exact retire_hidden h _ rd _
  | none => exact retire_hidden h s rd _

/-- An instruction is one of the shared operations on values read from the state. -/
theorem exec_hidden {i : Instr} (hcsr : csrOf i ≠ none → HiddenFromCsrs φ) : exec i (φ s) = mapNext φ (exec i s) := by
  cases i
  case ecall => exact execEcall_hidden h s
  case lui | auipc =>
    simp only [exec, execLui, execAuipc, h.pc]
    exact retire_hidden h s _ _
  case beq | bne | blt | bge | bltu | bgeu =>
    simp only [exec, execBeq, execBne, execBlt, execBge, execBltu, execBgeu, h.readReg]
    exact branchIf_hidden h s _ _
  case jal | jalr =>
    simp only [exec, execJal, execJalr, h.pc, h.readReg]
    exact linkAndJump_hidden h s _ _
  case lb | lh | lw | ld | lbu | lhu | lwu => exact loadFrom_hidden h s _ _ _ _ _
  case sb | sh | sw | sd => exact storeTo_hidden h s _ _ _ _
  case csrrw | csrrs | csrrc | csrrwi | csrrsi | csrrci =>
    simp only [exec, execCsrrw, execCsrrs, execCsrrc, execCsrrwi, execCsrrsi, execCsrrci, h.readReg]
    exact csrUpdate_hidden h s (hcsr nofun) _ _ _
  case ebreak | fence | fenceTso | pause | rdcycle | rdtime | rdinstret | rdcycleh | rdtimeh | rdinstreth =>
    exact noEffect_hidden h s
  case addi | slti | sltiu | xori | ori | andi | addiw =>
    simp only [exec, execAddi, execSlti, execSltiu, execXori, execOri, execAndi, execAddiw]
    exact aluImm_hidden h s _ _ _ _
  case slli | srli | srai | slliw | srliw | sraiw =>
    simp only [exec, execSlli, execSrli, execSrai, execSlliw, execSrliw, execSraiw]
    exact aluShift_hidden h s _ _ _ _
  all_goals
    simp only [exec, execAdd, execSub, execSll, execSlt, execSltu, execXor, execSrl, execSra, execOr, execAnd, execAddw, execSubw,
      execSllw, execSrlw, execSraw, execMul, execMulh, execMulhsu, execMulhu, execDiv, execDivu, execRem, execRemu, execMulw, execDivw,
      execDivuw, execRemw, execRemuw]
    exact aluReg_hidden h s _ _ _ _

theorem fetch_hidden : fetch (φ s) = fetch s := by
  simp only [fetch, h.params, h.pc, memRead_hidden h]

theorem step_hidden (hcsr : HiddenFromCsrs φ) : step (φ s) = mapNext φ (step s) := by
  unfold step
  rw [h.params, h.status, fetch_hidden h]
  split_ifs with ha hs
  · rfl
  · rfl
  · cases fetch s with
    | exhausted => exact congrArg Host.Outcome.next (h.setStatus s _)
    | raised e => exact congrArg Host.Outcome.next (raise_hidden h s e)
    | word w =>
      simp only [h.pc, raise_hidden h]
      cases decode w with
      | none => rfl
      | some i => exact exec_hidden h s fun _ => hcsr

end Hidden

/-! ### The floating registers (R25) -/

/-- The state with other floating registers. -/
def withF (g : Vector Word 32) (s : State) : State := { s with f := g }

theorem hidden_withF (g : Vector Word 32) : Hidden (withF g) where
  pc _ := rfl
  priv _ := rfl
  mem _ := rfl
  status _ := rfl
  params _ := rfl
  readReg _ _ := rfl
  writeReg s r v := by unfold State.writeReg; split <;> rfl
  setPc _ _ := rfl
  setStatus _ _ := rfl
  setMem _ _ := rfl

theorem hiddenFromCsrs_withF (g : Vector Word 32) : HiddenFromCsrs (withF g) where
  readCsr _ _ := rfl
  writeCsr _ _ _ := rfl

theorem step_withF (g : Vector Word 32) (s : State) : step (withF g s) = mapNext (withF g) (step s) :=
  step_hidden (hidden_withF g) s (hiddenFromCsrs_withF g)

theorem effect_f {s t : State} (h : Effect s t) : t.f = s.f := by
  cases h <;> simp

theorem step_f {s t : State} (h : step s = .next t) : t.f = s.f := by
  rcases step_effect h with rfl | heffect
  · rfl
  · exact effect_f heffect

/-- Settles O41: no operation sees the floating registers, so a step commutes with a change of them, and none of its effects writes them. -/
theorem floatingRegistersNeverMatter : Obligations.FloatingRegistersNeverMatter := by
  intro s g
  have hstep := step_withF g s
  refine ⟨fun t h => ⟨step_f h, ?_⟩, fun r h => ?_, fun r h => ?_, fun sel => ?_⟩
  · rw [h] at hstep
    exact hstep
  · rw [h] at hstep
    exact hstep
  · rw [h] at hstep
    exact hstep
  · cases sel <;> rfl

/-! ### The CSR file (R26, R248) -/

/-- The state with other contents of the CSR file. -/
def withCsrs (m : List (Nat × Word)) (s : State) : State := { s with csr := m }

theorem hidden_withCsrs (m : List (Nat × Word)) : Hidden (withCsrs m) where
  pc _ := rfl
  priv _ := rfl
  mem _ := rfl
  status _ := rfl
  params _ := rfl
  readReg _ _ := rfl
  writeReg s r v := by unfold State.writeReg; split <;> rfl
  setPc _ _ := rfl
  setStatus _ _ := rfl
  setMem _ _ := rfl

/-- Settles O28: an instruction that accesses no CSR commutes with a change of the CSR file. -/
theorem csrsAffectOnlyCsrInstructions : Obligations.CsrsAffectOnlyCsrInstructions := by
  intro i s t m hi h
  have hexec := exec_hidden (hidden_withCsrs m) s (i := i) fun hne => absurd hi hne
  rw [h] at hexec
  exact hexec

theorem writeCsr_readCsr {s : State} (c : CsrIdx) (hm : Sparse.canonical s.csr = true) : s.writeCsr c (s.readCsr c) = s := by
  rw [State.writeCsr, State.readCsr, write_read_self _ hm]

/-- A read-modify-write that is suppressed, or that writes the old value, does no more than read. -/
theorem csrUpdate_of_unchanged {s : State} {c : CsrIdx} {new : Word → Option Word} (rd : RegIdx) (hm : Sparse.canonical s.csr = true)
    (hnew : new (s.readCsr c) = none ∨ new (s.readCsr c) = some (s.readCsr c)) :
    csrUpdate rd c new s = retire rd (s.readCsr c) s := by
  rcases hnew with hnew | hnew <;> simp only [csrUpdate, hnew]
  rw [writeCsr_readCsr c hm]

/-- Settles O27: a source that holds 0 sets and clears no bit, so either form only reads the CSR. -/
theorem csrSuppressionUnobservable : Obligations.CsrSuppressionUnobservable := by
  intro s rd rs1 c hm hzero
  have hset : csrUpdate rd c (fun t => if rs1 = 0#5 then none else some (t ||| s.readReg rs1)) s = retire rd (s.readCsr c) s :=
    csrUpdate_of_unchanged rd hm (by rw [hzero, BitVec.or_zero]; exact ite_eq_or_eq ..)
  have hclear : csrUpdate rd c (fun t => if rs1 = 0#5 then none else some (t &&& ~~~(s.readReg rs1))) s = retire rd (s.readCsr c) s :=
    csrUpdate_of_unchanged rd hm (by rw [hzero, BitVec.not_zero, BitVec.and_allOnes]; exact ite_eq_or_eq ..)
  exact ⟨hset, hclear⟩

end Sys2Proof.Proofs
end

section
/-! The sequencer: what a fetch finds is determined, which steps there are, what a faulting step leaves, the next pc, the destinations, and
runs (spec/40_execution_loop.md R120 to R131). -/

namespace Sys2Proof.Proofs

open Sys2Proof.Machine Sys2Proof.Laws

/-! ### Fetch (R121) -/

theorem fetch_of_finds {s : State} {f : Fetched} (h : FetchFinds s f) : fetch s = f := by
  cases h with
  | memWord w hm ha hw =>
    rw [fetch_memory_mapped hm ha, ← hw, BitVec.ofNat_toNat, BitVec.setWidth_eq]
  | memFault hm ha => exact fetch_memory_unmapped hm ha
  | bufFault program hm hp => exact fetch_buffer_below hm hp
  | bufWord program w hm hp hw => rw [fetch_buffer hm hp, hw, Option.elim_some]
  | bufEnd program hm hp hn => rw [fetch_buffer hm hp, List.getElem?_eq_none hn, Option.elim_none]

/-- Settles O32: a fetch finds what `FetchFinds` says, and `FetchFinds` leaves no choice. -/
theorem fetchFindsWhatItsModeSays : Obligations.FetchFindsWhatItsModeSays :=
  fun s _ => ⟨fetch_of_finds, fun h => h ▸ fetch_finds s⟩

/-- The four bytes at `pc` make the word that a fetch finds in `Memory` mode. -/
theorem fetch_memory_bytes {s : State} (hm : s.params.fetchMode = .memory) (ha : AllMapped s s.pc 4) {w : Insn}
    (hw : ∀ k < 4, s.readByte (s.pc.toNat + k) = w.extractLsb' (8 * k) 8) : fetch s = .word w := by
  have hload : loadBytesLE s.mem s.pc.toNat 4 = w.setWidth 64 := by
    rw [loadBytesLE_of_bytes (b := 0) (v := w) (by decide) fun k hk => by rw [Nat.zero_add]; exact hw k hk, BitVec.extractLsb'_eq_self]
  rw [fetch_memory_mapped hm ha, ← loadBytesLE_toNat s _ _ (by decide), hload, BitVec.toNat_setWidth_of_le (by decide),
    BitVec.ofNat_toNat, BitVec.setWidth_eq]

theorem extract_wordOfBytes (b0 b1 b2 b3 : Byte) {k : Nat} (hk : k < 4) :
    (wordOfBytes b0 b1 b2 b3).extractLsb' (8 * k) 8 = [b0, b1, b2, b3][k]'hk := by
  interval_cases k <;>
    simp (disch := decide) only [wordOfBytes, extract_or, extract_put_same, extract_put_outside, BitVec.zero_or, BitVec.or_zero] <;> rfl

/-- Bytes that decode with nothing left over are four, and the word they make decodes. -/
theorem decode_of_decodeBytes {b0 b1 b2 b3 : Byte} {i : Instr} (h : decodeBytes [b0, b1, b2, b3] = .ok (i, [])) :
    decode (wordOfBytes b0 b1 b2 b3) = some i := by
  rw [decodeBytes] at h
  cases hd : decode (wordOfBytes b0 b1 b2 b3) <;> rw [hd] at h <;> cases h
  rfl

/-- Settles O31: the four bytes make the word that is fetched, or the program holds it, and what it decodes to runs. -/
theorem stepRunsDecodedInstruction : Obligations.StepRunsDecodedInstruction := by
  intro s i hacc hs
  refine ⟨fun hm ha hd => ?memory, fun program w hm hp hw hd => ?buffer⟩
  case memory =>
    refine step_of_decoded hacc hs (fetch_memory_bytes hm ha fun k hk => ?_) (decode_of_decodeBytes hd)
    rw [extract_wordOfBytes _ _ _ _ hk]
    interval_cases k <;> rfl
  case buffer => exact step_of_decoded hacc hs (fetch_of_finds (.bufWord program w hm hp hw)) hd

/-- Settles O35: the two tests that come before the fetch. -/
theorem stoppedOrRefusedMachinesTakeNoStep : Obligations.StoppedOrRefusedMachinesTakeNoStep := by
  intro s
  refine ⟨fun hacc hs => ?_, fun hacc => ⟨if_pos hacc, ?_⟩⟩
  · rw [step, if_neg (by simp [hacc]), if_pos hs]
  · rw [powerOn, if_neg (by simp [hacc])]

/-! ### Faults (R127, R278) -/

/-- Settles O29: the word is run through the dispatch table, and `ecall` raises its fault at once. -/
theorem environmentCall : Obligations.EnvironmentCall :=
  ⟨rfl, fun s => ⟨callArguments s, argumentsAre_callArguments s, rfl⟩⟩

/-- Settles O20: it ends as the access does that `accessOf` names, whatever its destination is. -/
theorem failedAccessChangesOnlyStatus : Obligations.FailedAccessChangesOnlyStatus := by
  intro i s kind ea n ha hm
  obtain ⟨-, hfault⟩ := exec_access_ends ha
  exact hfault hm

/-- Settles O34: of the outcomes of a step, those in which a fault stands are the old state with that status. -/
theorem faultingStepChangesOnlyStatus : Obligations.FaultingStepChangesOnlyStatus := by
  intro s t e h hfaulted
  obtain ⟨hacc, hs, -⟩ := step_cases h
  obtain ⟨t', ht', hgives⟩ := stepOutcomes s hacc hs
  cases h.symm.trans ht'
  cases hgives with
  | fetchFault e' hf _ ht =>
    subst ht
    cases hfaulted
    refine ⟨rfl, ?_⟩
    cases hf <;> rfl
  | exhausted hf _ ht => subst ht; cases hfaulted
  | illegal w hf hd _ ht => subst ht; cases hfaulted; exact ⟨rfl, rfl⟩
  | executes w i hf hd _ hx =>
    cases hx with
    | accessFault kind ea n ha hm _ ht => subst ht; cases hfaulted; exact ⟨rfl, rfl⟩
    | envCall a hi ha _ ht => subst ht; cases hfaulted; exact ⟨rfl, rfl⟩
    | commits _ hi hm hrunning => cases hrunning.symm.trans hfaulted

/-! ### The next pc (R124) -/

/-- Clearing bit 0 (R228). -/
theorem and_evenMask_eq (v : Word) : v &&& 0xFFFFFFFFFFFFFFFE#64 = v >>> 1 <<< 1 := by
  have hmask : 0xFFFFFFFFFFFFFFFE#64 = ~~~1#64 := by decide
  apply BitVec.eq_of_getLsbD_eq
  intro k hk
  rw [hmask, BitVec.getLsbD_and, BitVec.getLsbD_not, BitVec.getLsbD_one, BitVec.getLsbD_shiftLeft, BitVec.getLsbD_ushiftRight]
  rcases Nat.eq_zero_or_pos k with rfl | hpos
  · simp
  · simp [hk, Nat.ne_of_gt hpos, show ¬ k < 1 by omega, show 1 + (k - 1) = k by omega]

theorem toNat_and_evenMask (v : Word) : (v &&& 0xFFFFFFFFFFFFFFFE#64).toNat = v.toNat / 2 * 2 := by
  have hv := v.isLt
  rw [and_evenMask_eq, BitVec.toNat_shiftLeft, BitVec.toNat_ushiftRight, Nat.shiftLeft_eq, Nat.shiftRight_eq_div_pow]
  omega

theorem getLsbD_and_evenMask (v : Word) {k : Nat} (hk : 0 < k) : (v &&& 0xFFFFFFFFFFFFFFFE#64).getLsbD k = v.getLsbD k := by
  rw [and_evenMask_eq, BitVec.getLsbD_shiftLeft, BitVec.getLsbD_ushiftRight, decide_eq_false (show ¬ k < 1 by omega),
    show 1 + (k - 1) = k by omega]
  by_cases h64 : k < 64
  · simp [h64]
  · simp [h64, BitVec.getLsbD_of_ge v k (by omega)]

/-- Settles O23: the target is the even number below the sum, which is that of the signed readings. -/
theorem jumpAndLinkRegister : Obligations.JumpAndLinkRegister := by
  refine ⟨encodedI_of_row .jalr (by decide) (by decide) fun _ => rfl, fun s rd rs1 imm => ?_⟩
  obtain ⟨t, ht, hwrites⟩ := linkAndJump_writesOnly s rd ((s.readReg rs1 + immI imm) &&& 0xFFFFFFFFFFFFFFFE#64)
  refine ⟨t, _, ht, hwrites, ?_⟩
  rw [toNat_and_evenMask, add_eq_ofInt, toInt_immI]

section NextPc

variable {s t : State}

theorem retire_pc {rd : RegIdx} {v : Word} (h : retire rd v s = .next t) : t.pc = s.pc + 4#64 := by
  cases h
  simp

theorem noEffect_pc (h : noEffect s = .next t) : t.pc = s.pc + 4#64 := by
  cases h
  rfl

theorem linkAndJump_pc {rd : RegIdx} {target : Word} (h : linkAndJump rd target s = .next t) : t.pc = target := by
  cases h
  rfl

theorem csrUpdate_pc {rd : RegIdx} {c : CsrIdx} {new : Word → Option Word} (h : csrUpdate rd c new s = .next t) :
    t.pc = s.pc + 4#64 := by
  obtain ⟨t', ht', hpc, -⟩ := csrUpdate_swapsCsrOnly s rd c new
  cases h.symm.trans ht'
  exact hpc

/-- A load that raises nothing was in range. -/
theorem loadFrom_pc {w : Width} {ext : Word → Word} {rd rs1 : RegIdx} {imm : BitVec 12} (h : loadFrom w ext rd rs1 imm s = .next t)
    (ht : t.status = .running) : t.pc = s.pc + 4#64 := by
  rcases loadFrom_cases w ext rd rs1 imm s with ⟨-, he⟩ | ⟨-, he⟩ <;> cases he.symm.trans h
  · simp
  · cases ht

theorem storeTo_pc {w : Width} {rs2 rs1 : RegIdx} {imm : BitVec 12} (h : storeTo w rs2 rs1 imm s = .next t)
    (ht : t.status = .running) : t.pc = s.pc + 4#64 := by
  rcases storeTo_cases w rs2 rs1 imm s with ⟨-, he⟩ | ⟨-, he⟩ <;> cases he.symm.trans h
  · rfl
  · cases ht

theorem nextPc_of_branchIf {i : Instr} {taken : Bool} {off : BitVec 12} {p : Prop} (hb : branchOf s i = some (p, off))
    (hp : taken = true ↔ p) (h : branchIf taken off s = .next t) : NextPc i s t.pc := by
  cases h
  simp only [NextPc, hb, ← hp, setPc_pc, immB_eq_ofInt]
  exact ⟨fun h => if_pos h, fun h => if_neg h⟩

end NextPc

/-- Settles O36: each of the shared operations has one next pc, and an access that raises nothing went on. -/
theorem nextProgramCounter : Obligations.NextProgramCounter := by
  intro i s t _ h ht
  cases i
  case beq => exact nextPc_of_branchIf rfl beq_iff_eq h
  case bne => exact nextPc_of_branchIf rfl bne_iff_ne h
  case blt => exact nextPc_of_branchIf rfl signedLess_iff h
  case bge => exact nextPc_of_branchIf rfl not_signedLess_iff h
  case bltu => exact nextPc_of_branchIf rfl unsignedLess_iff h
  case bgeu => exact nextPc_of_branchIf rfl not_unsignedLess_iff h
  case jal rd off => exact (linkAndJump_pc h).trans (congrArg (s.pc + ·) (immJ_eq_ofInt off))
  case jalr rd rs1 imm =>
    rw [linkAndJump_pc h, immI_eq_ofInt]
    exact ⟨by simp, fun k hk => getLsbD_and_evenMask _ hk⟩
  case ecall => cases h; cases ht
  case lb | lh | lw | ld | lbu | lhu | lwu => exact loadFrom_pc h ht
  case sb | sh | sw | sd => exact storeTo_pc h ht
  case csrrw | csrrs | csrrc | csrrwi | csrrsi | csrrci =>
    simp only [exec, execCsrrw, execCsrrs, execCsrrc, execCsrrwi, execCsrrsi, execCsrrci] at h
    exact csrUpdate_pc h
  case ebreak | fence | fenceTso | pause | rdcycle | rdtime | rdinstret | rdcycleh | rdtimeh | rdinstreth => exact noEffect_pc h
  all_goals exact retire_pc h

end Sys2Proof.Proofs
end

section
/-! Which parts of the state an instruction can change at all (spec/40_execution_loop.md R123, spec/20_memory.md R54). -/

namespace Sys2Proof.Proofs

open Sys2Proof.Machine Sys2Proof.Laws

/-- A register, CSR or byte that changed is one that the instruction names. -/
def ChangesOnlyNamed (i : Instr) (s t : State) : Prop :=
  (∀ r : RegIdx, t.readReg r ≠ s.readReg r → destOf i = some r) ∧
    (∀ c : CsrIdx, t.readCsr c ≠ s.readCsr c → csrOf i = some c) ∧
    (∀ a : Nat, t.readByte a ≠ s.readByte a →
      ∃ ea n, accessOf s i = some (.store, ea, n) ∧ ea.toNat ≤ a ∧ a < ea.toNat + n ∧ AllMapped s ea n)

section Shapes

variable {i : Instr} {s t : State}

theorem changesOnlyNamed_of_same (hr : SameRegisters s t) (hc : SameCsrs s t) (hm : SameMemory s t) : ChangesOnlyNamed i s t :=
  ⟨fun r h => absurd (hr r) h, fun c h => absurd (hc c) h, fun a h => absurd (hm a) h⟩

theorem dest_of_changed {rd : RegIdx} {v : Word} (hd : destOf i = some rd)
    (hr : ∀ r : RegIdx, t.readReg r = if r = rd ∧ rd ≠ 0#5 then v else s.readReg r) (r : RegIdx) (h : t.readReg r ≠ s.readReg r) :
    destOf i = some r := by
  by_cases hrd : r = rd
  · rw [hrd, hd]
  · exact absurd ((hr r).trans (if_neg fun hrd' => hrd hrd'.1)) h

theorem changesOnlyNamed_of_writesOnly {rd : RegIdx} {v next : Word} (hd : destOf i = some rd) (h : WritesOnly s t rd v next) :
    ChangesOnlyNamed i s t := by
  obtain ⟨-, hr, hc, hm, -⟩ := h
  exact ⟨dest_of_changed hd hr, fun c h => absurd (hc c) h, fun a h => absurd (hm a) h⟩

theorem changesOnlyNamed_of_swapsCsrOnly {rd : RegIdx} {c : CsrIdx} {new : Word} (hd : destOf i = some rd) (hi : csrOf i = some c)
    (h : SwapsCsrOnly s t rd c new) : ChangesOnlyNamed i s t := by
  obtain ⟨-, hr, hc, hm, -⟩ := h
  refine ⟨dest_of_changed hd hr, fun k hk => ?_, fun a h => absurd (hm a) h⟩
  by_cases hkc : k = c
  · rw [hkc, hi]
  · exact absurd ((hc k).trans (if_neg hkc)) hk

theorem changesOnlyNamed_of_storesOnly {ea v : Word} {n : Nat} (hi : accessOf s i = some (.store, ea, n)) (hmapped : AllMapped s ea n)
    (h : StoresOnly s t ea n v) : ChangesOnlyNamed i s t := by
  obtain ⟨-, -, hm, hr, hc, -⟩ := h
  refine ⟨fun r h => absurd (hr r) h, fun c h => absurd (hc c) h, fun a ha => ⟨ea, n, hi, ?_⟩⟩
  have hinside : ¬ (a < ea.toNat ∨ ea.toNat + n ≤ a) := fun hout => ha (hm a hout)
  exact ⟨by omega, by omega, hmapped⟩

/-! The shared operations. -/

theorem changesOnlyNamed_of_retire {rd : RegIdx} {v : Word} (hd : destOf i = some rd) (h : retire rd v s = .next t) :
    ChangesOnlyNamed i s t := by
  obtain ⟨t', ht', hw⟩ := retire_writesOnly s rd v
  cases h.symm.trans ht'
  exact changesOnlyNamed_of_writesOnly hd hw

theorem changesOnlyNamed_of_linkAndJump {rd : RegIdx} {target : Word} (hd : destOf i = some rd)
    (h : linkAndJump rd target s = .next t) : ChangesOnlyNamed i s t := by
  obtain ⟨t', ht', hw⟩ := linkAndJump_writesOnly s rd target
  cases h.symm.trans ht'
  exact changesOnlyNamed_of_writesOnly hd hw

theorem changesOnlyNamed_of_csrUpdate {rd : RegIdx} {c : CsrIdx} {new : Word → Option Word} (hd : destOf i = some rd)
    (hi : csrOf i = some c) (h : csrUpdate rd c new s = .next t) : ChangesOnlyNamed i s t := by
  obtain ⟨t', ht', hw⟩ := csrUpdate_swapsCsrOnly s rd c new
  cases h.symm.trans ht'
  exact changesOnlyNamed_of_swapsCsrOnly hd hi hw

theorem changesOnlyNamed_of_branchIf {taken : Bool} {off : BitVec 12} (h : branchIf taken off s = .next t) : ChangesOnlyNamed i s t := by
  obtain ⟨t', ht', -, hr, hc, hm, -⟩ := branchIf_goesOnly s taken off
  cases h.symm.trans ht'
  exact changesOnlyNamed_of_same hr hc hm

theorem changesOnlyNamed_of_noEffect (h : noEffect s = .next t) : ChangesOnlyNamed i s t := by
  obtain ⟨t', ht', -, hr, hc, hm, -⟩ := noEffect_goesOnly s
  cases h.symm.trans ht'
  exact changesOnlyNamed_of_same hr hc hm

theorem changesOnlyNamed_raise (e : Exc) : ChangesOnlyNamed i s (s.raise e) :=
  changesOnlyNamed_of_same (fun _ => rfl) (fun _ => rfl) (fun _ => rfl)

theorem changesOnlyNamed_of_loadFrom {w : Width} {ext : Word → Word} {rd rs1 : RegIdx} {imm : BitVec 12} (hd : destOf i = some rd)
    (h : loadFrom w ext rd rs1 imm s = .next t) : ChangesOnlyNamed i s t := by
  obtain ⟨hmapped, hfault⟩ := loadFrom_rule w ext rd rs1 imm s
  by_cases ha : AllMapped s (effective (s.readReg rs1) (immI imm)) w.bytes
  · obtain ⟨t', ht', hw⟩ := hmapped ha
    cases h.symm.trans ht'
    exact changesOnlyNamed_of_writesOnly hd hw
  · cases h.symm.trans (hfault ha)
    exact changesOnlyNamed_raise _

theorem changesOnlyNamed_of_storeTo {w : Width} {rs2 rs1 : RegIdx} {imm : BitVec 12}
    (hi : accessOf s i = some (.store, effective (s.readReg rs1) (immS imm), w.bytes)) (h : storeTo w rs2 rs1 imm s = .next t) :
    ChangesOnlyNamed i s t := by
  obtain ⟨hmapped, hfault⟩ := storeTo_rule w rs2 rs1 imm s
  by_cases ha : AllMapped s (effective (s.readReg rs1) (immS imm)) w.bytes
  · obtain ⟨t', ht', hw⟩ := hmapped ha
    cases h.symm.trans ht'
    exact changesOnlyNamed_of_storesOnly hi ha hw
  · cases h.symm.trans (hfault ha)
    exact changesOnlyNamed_raise _

end Shapes

/-- Settles O37: each of the shared operations changes only what it is given. -/
theorem onlyNamedDestinationsChange : Obligations.OnlyNamedDestinationsChange := by
  intro i s t h
  change ChangesOnlyNamed i s t
  cases i
  case ecall => cases h; exact changesOnlyNamed_raise _
  case beq | bne | blt | bge | bltu | bgeu => exact changesOnlyNamed_of_branchIf h
  case jal | jalr => exact changesOnlyNamed_of_linkAndJump rfl h
  case lb | lh | lw | ld | lbu | lhu | lwu => exact changesOnlyNamed_of_loadFrom rfl h
  case sb => exact changesOnlyNamed_of_storeTo (w := .byte) rfl h
  case sh => exact changesOnlyNamed_of_storeTo (w := .half) rfl h
  case sw => exact changesOnlyNamed_of_storeTo (w := .word) rfl h
  case sd => exact changesOnlyNamed_of_storeTo (w := .double) rfl h
  case csrrw | csrrs | csrrc | csrrwi | csrrsi | csrrci =>
    simp only [exec, execCsrrw, execCsrrs, execCsrrc, execCsrrwi, execCsrrsi, execCsrrci] at h
    exact changesOnlyNamed_of_csrUpdate rfl rfl h
  case ebreak | fence | fenceTso | pause | rdcycle | rdtime | rdinstret | rdcycleh | rdtimeh | rdinstreth =>
    exact changesOnlyNamed_of_noEffect h
  all_goals exact changesOnlyNamed_of_retire rfl h

end Sys2Proof.Proofs
end

section
/-! Runs (spec/40_execution_loop.md R130, R131), and what reaches the instruction stream: stores in `Memory` mode, the loader's bytes and
the word placed for the next fetch (spec/20_memory.md R65, R68). -/

namespace Sys2Proof.Proofs

open Sys2Proof.Machine Sys2Proof.Laws

/-! ### Runs -/

theorem runFor_of_next {s t : State} (k : Nat) (h : step s = .next t) : runFor (k + 1) s = runFor k t := by
  rw [runFor, h]

theorem runFor_of_no_next {s : State} (k : Nat) (h : ∀ t, step s ≠ .next t) : runFor k s = s := by
  cases k with
  | zero => rfl
  | succ k =>
    rw [runFor]
    split
    · next t ht => exact absurd ht (h t)
    · rfl
    · rfl

theorem runFor_add (j k : Nat) (s : State) : runFor (j + k) s = runFor k (runFor j s) := by
  induction j generalizing s with
  | zero => rw [Nat.zero_add, runFor]
  | succ j ih =>
    by_cases h : ∃ t, step s = .next t
    · obtain ⟨t, ht⟩ := h
      rw [Nat.succ_add, runFor_of_next _ ht, runFor_of_next _ ht, ih]
    · have hno := not_exists.mp h
      rw [runFor_of_no_next _ hno, runFor_of_no_next _ hno, runFor_of_no_next _ hno]

theorem runFor_of_not_running {s : State} (k : Nat) (hs : s.status ≠ .running) : runFor k s = s :=
  runFor_of_no_next k fun _ h => hs (step_cases h).2.1

/-- Settles O38: a step that answers no next state ends the run where it is, and only a running machine has a next state. -/
theorem runsComposeAndFinishedRunsStay : Obligations.RunsComposeAndFinishedRunsStay :=
  fun s j k => ⟨runFor_add j k s, fun hfinished => runFor_of_not_running k (of_decide_eq_true hfinished)⟩

theorem step_params {s t : State} (h : step s = .next t) : t.params = s.params := by
  rcases step_effect h with rfl | heffect
  · rfl
  · exact effect_params heffect

/-- Only a fetch that finds no word exhausts a machine. -/
theorem step_exhausted {s t : State} (h : step s = .next t) (ht : t.status = .exhausted) :
    FetchFinds s .exhausted ∧ t = s.setStatus .exhausted := by
  obtain ⟨hacc, hs, -⟩ := step_cases h
  obtain ⟨t', ht', hgives⟩ := stepOutcomes s hacc hs
  cases h.symm.trans ht'
  cases hgives with
  | exhausted hf _ ht => exact ⟨hf, ht⟩
  | fetchFault e hf _ heq => subst heq; cases ht
  | illegal w hf hd _ heq => subst heq; cases ht
  | executes w i hf hd _ hx =>
    cases hx with
    | accessFault kind ea n ha hm _ heq => subst heq; cases ht
    | envCall a hi ha _ heq => subst heq; cases ht
    | commits _ hi hm hrunning => cases hrunning.symm.trans ht

/-- A run that is exhausted was so by its last step, from a state with the same parameters. -/
theorem runFor_exhausted {s : State} {k : Nat} (hs : s.status = .running) (h : (runFor k s).status = .exhausted) :
    ∃ u, FetchFinds u .exhausted ∧ runFor k s = u.setStatus .exhausted ∧ u.params = s.params := by
  induction k generalizing s with
  | zero => cases hs.symm.trans h
  | succ k ih =>
    by_cases hnext : ∃ t, step s = .next t
    · obtain ⟨t, ht⟩ := hnext
      rw [runFor_of_next k ht] at h ⊢
      by_cases hrunning : t.status = .running
      · obtain ⟨u, hu, heq, hparams⟩ := ih hrunning h
        exact ⟨u, hu, heq, hparams.trans (step_params ht)⟩
      · rw [runFor_of_not_running k hrunning] at h ⊢
        obtain ⟨hfinds, heq⟩ := step_exhausted ht h
        exact ⟨s, hfinds, heq, rfl⟩
    · rw [runFor_of_no_next _ (not_exists.mp hnext)] at h
      cases hs.symm.trans h

/-- That fetch was one of `Buffer` mode, past the end of the program. -/
theorem runFor_exhausted_buffer {s : State} {k : Nat} (hs : s.status = .running) (h : (runFor k s).status = .exhausted) :
    ∃ program, s.params.fetchMode = .buffer program ∧ s.params.memBase.toNat + 4 * program.length ≤ (runFor k s).pc.toNat := by
  obtain ⟨u, hfinds, heq, hparams⟩ := runFor_exhausted hs h
  cases hfinds with
  | bufEnd program hm hp hn =>
    refine ⟨program, hparams ▸ hm, ?_⟩
    rw [heq, setStatus_pc, ← hparams]
    omega

/-- Settles O39: what exhausts a run is a fetch of `Buffer` mode past the end of the program. -/
theorem runsEndAsTheModeSays : Obligations.RunsEndAsTheModeSays := by
  intro s k hs
  refine ⟨fun hm h => ?memory, fun program hm h => ?buffer⟩
  case memory =>
    obtain ⟨program, hbuffer, -⟩ := runFor_exhausted_buffer hs h
    cases hm.symm.trans hbuffer
  case buffer =>
    obtain ⟨program', hbuffer, hpc⟩ := runFor_exhausted_buffer hs h
    cases hm.symm.trans hbuffer
    exact hpc

/-! ### Stores and the instruction stream (R65) -/

/-- In `Buffer` mode a fetch depends on the pc and the parameters alone. -/
theorem fetch_buffer_congr {s t : State} {program : List Insn} (hm : s.params.fetchMode = .buffer program) (hparams : t.params = s.params)
    (pc : Word) : fetch (t.setPc pc) = fetch (s.setPc pc) := by
  have ht : (t.setPc pc).params.fetchMode = .buffer program := by rw [setPc_params, hparams, hm]
  have hs : (s.setPc pc).params.fetchMode = .buffer program := hm
  rcases Nat.lt_or_ge pc.toNat s.params.memBase.toNat with hp | hp
  · rw [fetch_buffer_below ht (by rwa [setPc_params, hparams]), fetch_buffer_below hs hp, setPc_pc, setPc_pc]
  · rw [fetch_buffer ht (by rwa [setPc_params, hparams]), fetch_buffer hs hp, setPc_params, hparams, setPc_params, setPc_pc, setPc_pc]

/-- Settles O42: in `Memory` mode the four bytes stored are those fetched; in `Buffer` mode no effect of an instruction reaches the
parameters. -/
theorem storesReachTheInstructionStreamInMemoryModeOnly : Obligations.StoresReachTheInstructionStreamInMemoryModeOnly := by
  intro s
  refine ⟨?memory, fun program i t pc hm h => fetch_buffer_congr hm (effect_params (exec_effect h)) pc⟩
  case memory =>
    rintro rs2 rs1 imm _ hm rfl ha
    obtain ⟨hstored, -⟩ := storeTo_rule .word rs2 rs1 imm s
    obtain ⟨t, ht, -, hbytes, -, -, -, -, -, -, hparams⟩ := hstored ha
    refine ⟨t, ht, fetch_memory_bytes (by rw [setPc_params, hparams, hm]) (by rwa [AllMapped, setPc_params, hparams]) fun k hk => ?_⟩
    rw [readByte_setPc, setPc_pc, hbytes k hk]
    apply BitVec.eq_of_getLsbD_eq
    intro j hj
    simp [hj, show 8 * k + j < 32 by omega]

/-! ### The loader (R68) -/

/-- One byte of the loader. -/
theorem loadBytes_cons (s : State) (a : Nat) (x : Byte) (rest : List Byte) :
    ∃ u : State, s.loadBytes a (x :: rest) = u.loadBytes (a + 1) rest ∧ u.params = s.params ∧
      ∀ b, u.readByte b = if b = a ∧ mapped s.params a = true then x else s.readByte b := by
  rw [State.loadBytes]
  by_cases hm : mapped s.params a = true
  · refine ⟨_, rfl, by rw [if_pos hm], fun b => ?_⟩
    rw [if_pos hm, State.readByte, read_write]
    simp only [hm, and_true]
    rfl
  · exact ⟨_, rfl, by rw [if_neg hm], fun b => by rw [if_neg hm, if_neg fun h => hm h.2]⟩

theorem readByte_loadBytes (s : State) (a : Nat) (bs : List Byte) (b : Nat) :
    (s.loadBytes a bs).readByte b = (if a ≤ b ∧ mapped s.params b = true then bs[b - a]? else none).getD (s.readByte b) := by
  induction bs generalizing s a with
  | nil => simp [State.loadBytes]
  | cons x rest ih =>
    obtain ⟨u, hload, hparams, hread⟩ := loadBytes_cons s a x rest
    rw [hload, ih, hparams, hread]
    rcases Nat.lt_trichotomy b a with hlt | rfl | hgt
    · rw [if_neg (by omega), if_neg (by omega), if_neg (by omega)]
    · rw [if_neg (by omega), Nat.sub_self]
      by_cases hm : mapped s.params b = true <;> simp [hm]
    · have hindex : b - a = b - (a + 1) + 1 := by omega
      have hne : ¬ (b = a ∧ mapped s.params a = true) := fun h => Nat.ne_of_gt hgt h.1
      rw [hindex, List.getElem?_cons_succ, if_neg hne]
      simp only [show a + 1 ≤ b by omega, show a ≤ b by omega, true_and]

/-! ### The word placed for the next fetch -/

theorem getElem?_placeInProgram (program : List Insn) (k : Nat) (w : Insn) : (placeInProgram program k w)[k]? = some w := by
  unfold placeInProgram
  split
  · next h => rw [List.getElem?_set_self h]
  · next h =>
    have hlen : (program ++ List.replicate (k - program.length) 0#32).length = k := by
      rw [List.length_append, List.length_replicate]
      omega
    rw [List.getElem?_append_right (Nat.le_of_eq hlen), hlen, Nat.sub_self]
    rfl

theorem withFetchWord_eq (s : State) (w : Insn) : s.withFetchWord 32 w.toNat = placeWord s w := by
  rw [State.withFetchWord, Nat.mod_eq_of_lt w.isLt, BitVec.ofNat_toNat, BitVec.setWidth_eq]

theorem fetch_placeWord {s : State} (w : Insn) (hmapped : s.params.fetchMode = .memory → AllMapped s s.pc 4)
    (hbase : s.params.memBase.toNat ≤ s.pc.toNat) : fetch (placeWord s w) = .word w := by
  unfold placeWord
  cases hm : s.params.fetchMode with
  | memory =>
    have ha := hmapped hm
    refine fetch_memory_bytes (by rw [loadBytes_params, hm]) (by rwa [AllMapped, loadBytes_params, loadBytes_pc]) fun k hk => ?_
    obtain ⟨hlow, hhigh⟩ := ha
    have hmem : mapped s.params (s.pc.toNat + k) = true := (mapped_iff _ _).mpr (by rw [memTop]; omega)
    rw [loadBytes_pc, readByte_loadBytes, if_pos ⟨Nat.le_add_right _ _, hmem⟩, Nat.add_sub_cancel_left]
    interval_cases k <;> rfl
  | buffer program =>
    have hword : (placeInProgram program (bufferIndex s.params s.pc) w)[(s.pc.toNat - s.params.memBase.toNat) / 4]? = some w :=
      bufferIndex_eq hbase ▸ getElem?_placeInProgram program (bufferIndex s.params s.pc) w
    exact fetch_of_finds (.bufWord (placeInProgram program (bufferIndex s.params s.pc) w) w rfl hbase hword)

theorem placeWord_pc (s : State) (w : Insn) : (placeWord s w).pc = s.pc := by
  unfold placeWord
  split
  · exact loadBytes_pc ..
  · rfl

theorem placeWord_status (s : State) (w : Insn) : (placeWord s w).status = s.status := by
  unfold placeWord
  split
  · exact loadBytes_status ..
  · rfl

/-- Whether the parameters are accepted does not depend on the program. -/
theorem accepted_placeWord (s : State) (w : Insn) : accepted (placeWord s w).params = accepted s.params := by
  unfold placeWord
  split
  · rw [loadBytes_params]
  · rfl

/-- Settles O47: the loader writes memory alone, byte by byte; a placed word is where the fetch finds it, and placing it changes neither pc,
status nor whether the parameters are accepted. -/
theorem loadedBytesAreReadAndFetched : Obligations.LoadedBytesAreReadAndFetched := by
  refine ⟨fun s a bs => ⟨readByte_loadBytes s a bs, loadBytes_pc .., fun r => ?registers, fun c => ?csrs, ?elsewhere⟩,
    fun s w hacc hs hmapped hbase => ?step⟩
  case registers => simp only [State.readReg, loadBytes_x]
  case csrs => simp only [State.readCsr, loadBytes_csr]
  case elsewhere => simp [SameElsewhere]
  case step =>
    rw [withFetchWord_eq]
    have hacc' := (accepted_placeWord s w).trans hacc
    have hs' := (placeWord_status s w).trans hs
    have hf := fetch_placeWord w hmapped hbase
    cases hd : decode w with
    | some i => exact step_of_decoded hacc' hs' hf hd
    | none => rw [step_of_illegal hacc' hs' hf hd, placeWord_pc]; rfl

end Sys2Proof.Proofs
end
